-- ==== Sys2Proof/Word.lean ====
section
/-! DEFINITION. The word types of R4FFT: an F-word (R10, R50), a register word (R29), a byte of a
record as the model writes it out (log 7). -/

namespace Sys2Proof

/-- A byte of the model's own serialization of a micro-operation record (log 7). No memory of R4FFT is
addressed in bytes (R50, R51). -/
abbrev Byte := BitVec 8

/-- A 32-bit register or command word (R10, R29). -/
abbrev Word32 := BitVec 32

/-- An F-word: 64 bits, bit 63 sign, bits 62:52 biased exponent, bits 51:0 fraction (R10, R50, R90). -/
abbrev FWord := BitVec 64

end Sys2Proof
end

