-- ==== Sys2Proof/Config.lean ====
section
/-! DEFINITION. What an implementation fixes (the parameters of R7 that a rule reads) and the free values
(U1, U5, U10). -/

namespace Sys2Proof

/-- The two OPEN numeric parameters of R7. They stand in `State` as plain data that no step changes, so
that every statement holds for every choice of them (log 4). -/
structure Cfg where
  /-- `LOG4_NMAX` (R7 P1). -/
  log4NMax : Nat
  /-- `LS`, complex samples per chunk (R7 P2). -/
  ls : Nat
  deriving DecidableEq, Repr

/-- `N_MAX = 4^LOG4_NMAX` (R7 P1), the capacity of XMEM and YMEM in complex samples. -/
def Cfg.nMax (c : Cfg) : Nat := 4 ^ c.log4NMax

/-- The F-words of XMEM, and of YMEM: `2*N_MAX` (R40). -/
def Cfg.sampleWords (c : Cfg) : Nat := 2 * c.nMax

/-- The F-words of BUF: `8*LS` (R25, R40). -/
def Cfg.bufWords (c : Cfg) : Nat := 8 * c.ls

/-- The ranges R7 gives: `1 <= LOG4_NMAX <= 15`, and `LS` a power of two in `1 .. 128`. -/
def Cfg.valid (c : Cfg) : Bool :=
  decide (1 ≤ c.log4NMax) && decide (c.log4NMax ≤ 15) && [1, 2, 4, 8, 16, 32, 64, 128].contains c.ls

namespace Config

/-- FREE VALUE (R44, U1; log 1). What XMEM word `a` holds after reset number `epoch`, until first written. -/
opaque powerOnX : Nat → Nat → FWord

/-- FREE VALUE (R44, U1; log 1). What YMEM word `a` holds after reset number `epoch`, until first written. -/
opaque powerOnY : Nat → Nat → FWord

/-- FREE VALUE (R44, U1; log 1). What BUF word `a` holds after reset number `epoch`, until first written. -/
opaque powerOnB : Nat → Nat → FWord

/-- FREE VALUE (R96, U5, parameter `NAN_DRAW` of R7; log 2). The sign (bit 52) and the fraction (bits 51:0) of the
NaN that operation number `k` draws. -/
opaque nanDraw : Nat → BitVec 53

/-- FREE VALUE (R209, U10; log 15). What a read made while a command executes returns. -/
opaque busyRead : Nat → BitVec 64

end Config

end Sys2Proof
end

