-- ==== Sys2Proof/Syntax.lean ====
section
/-! DEFINITION. The operations of R4FFT (R70, R73, R77): three commands, six micro-operations. -/

namespace Sys2Proof

/-- The data memory of a COMBINE: the 1-bit selector `mem`, 0 = YMEM, 1 = BUF (R77). -/
inductive DataMem where
  | ymem
  | buf
  deriving DecidableEq, Repr

/-- One constructor per row of spec/opcode_table.json. Commands carry no operand (R72); a
micro-operation is a record with typed operands in the order of R77. -/
inductive Instr where
  /-- `INIT_TW` (R118). -/
  | initTw
  /-- `XFORM` (R151). -/
  | xform
  /-- `XFORM_T` (R161). -/
  | xformT
  /-- `BFLY4(yb, xb, s)` (R127): YMEM base, XMEM base, input stride in complex elements. -/
  | bfly4 (yb xb st : Nat)
  /-- `CMUL(ar, ai, br, bi)` (R135). -/
  | cmul (ar ai br bi : FWord)
  /-- `COMBINE(mem, base, s, n, j)` (R139). -/
  | combine (mem : DataMem) (base st n j : Nat)
  /-- `BUFLD(yb, Q, t)` (R158). -/
  | bufld (yb q t : Nat)
  /-- `BUFST(yb, Q, t)` (R159). -/
  | bufst (yb q t : Nat)
  /-- `TWRD(d, o)` (R117). -/
  | twrd (d o : Nat)
  deriving DecidableEq, Repr

end Sys2Proof
end

