-- ==== Sys2Proof/WellFormed.lean ====
section
/-! DEFINITION. Which operations the formats of R71 and R77 can carry: every natural operand "fits 32 bits"
(R77, R9). What the Driver guarantees beyond that (R127, R139, R158: strides, ranges) is a property of a
trace, in Safety.lean, not of the format. -/

namespace Sys2Proof

/-- A natural operand fits its 32-bit field (R77). -/
def fits32 (v : Nat) : Bool := decide (v < 2 ^ 32)

/-- The operands fit the record's fields (R77). Commands have none (R72), CMUL's are F-words. -/
def Instr.wellFormed : Instr → Bool
  | .initTw => true
  | .xform => true
  | .xformT => true
  | .bfly4 yb xb st => fits32 yb && fits32 xb && fits32 st
  | .cmul _ _ _ _ => true
  | .combine _ base st n j => fits32 base && fits32 st && fits32 n && fits32 j
  | .bufld yb q t => fits32 yb && fits32 q && fits32 t
  | .bufst yb q t => fits32 yb && fits32 q && fits32 t
  | .twrd d o => fits32 d && fits32 o

end Sys2Proof
end

