-- ==== Sys2Proof/Decode.lean ====
section
/-! DEFINITION. The command decoder (R73, R74), the decoder of a micro-operation record written out as bytes
(R77; the byte layout is the model's own, log 7), and the encoder after them. -/

namespace Sys2Proof

/-- Why a word or a record is no operation. -/
inductive Reject where
  /-- The word is none of the three commands (R74). -/
  | illegalCommand (w : Word32)
  /-- The kind code is 0x0 or 0x7 .. 0xF (R77). -/
  | unusedKind (k : Nat)
  /-- The bits above the 4-bit kind code are not zero (log 7). -/
  | kindTooWide
  /-- The `mem` selector is neither 0 nor 1 (R77). -/
  | badSelector
  /-- The record ends before its last operand (log 7). -/
  | truncated
  deriving DecidableEq, Repr

/-- What an operation looks like where it enters the machine: a word on CMD, or a record at the
sequencer's issue point. -/
inductive Wire where
  | command (w : Word32)
  | record (bs : List Byte)
  deriving DecidableEq, Repr

/-- The command decoder: `(w AND 0xFFFFFFFF) = match` (R73); every other word is illegal (R74). -/
def decodeCommand (w : Word32) : Except Reject Instr :=
  if w = 0x00000001#32 then .ok .initTw
  else if w = 0x00000002#32 then .ok .xform
  else if w = 0x00000003#32 then .ok .xformT
  else .error (.illegalCommand w)

/-- The first `n` bytes as a number, least significant first, and the rest. -/
def takeLE : Nat → List Byte → Except Reject (Nat × List Byte)
  | 0, bs => .ok (0, bs)
  | _ + 1, [] => .error .truncated
  | n + 1, b :: bs =>
    match takeLE n bs with
    | .ok (v, rest) => .ok (b.toNat + 256 * v, rest)
    | .error e => .error e

/-- A 32-bit natural operand (R77). -/
def takeNat (bs : List Byte) : Except Reject (Nat × List Byte) := takeLE 4 bs

/-- An F-word operand (R77). -/
def takeFWord (bs : List Byte) : Except Reject (FWord × List Byte) :=
  match takeLE 8 bs with
  | .ok (v, rest) => .ok (BitVec.ofNat 64 v, rest)
  | .error e => .error e

/-- The selector operand: 0 = YMEM, 1 = BUF (R77). -/
def takeMem : List Byte → Except Reject (DataMem × List Byte)
  | [] => .error .truncated
  | b :: bs =>
    if b = 0x00#8 then .ok (.ymem, bs)
    else if b = 0x01#8 then .ok (.buf, bs)
    else .error .badSelector

/-- The operands of the micro-operation of kind `k`, in the order of R77. -/
def decodeOperands (k : Nat) (bs : List Byte) : Except Reject (Instr × List Byte) :=
  match k with
  | 1 => do
    let (yb, bs) ← takeNat bs
    let (xb, bs) ← takeNat bs
    let (st, bs) ← takeNat bs
    .ok (.bfly4 yb xb st, bs)
  | 2 => do
    let (ar, bs) ← takeFWord bs
    let (ai, bs) ← takeFWord bs
    let (br, bs) ← takeFWord bs
    let (bi, bs) ← takeFWord bs
    .ok (.cmul ar ai br bi, bs)
  | 3 => do
    let (mem, bs) ← takeMem bs
    let (base, bs) ← takeNat bs
    let (st, bs) ← takeNat bs
    let (n, bs) ← takeNat bs
    let (j, bs) ← takeNat bs
    .ok (.combine mem base st n j, bs)
  | 4 => do
    let (yb, bs) ← takeNat bs
    let (q, bs) ← takeNat bs
    let (t, bs) ← takeNat bs
    .ok (.bufld yb q t, bs)
  | 5 => do
    let (yb, bs) ← takeNat bs
    let (q, bs) ← takeNat bs
    let (t, bs) ← takeNat bs
    .ok (.bufst yb q t, bs)
  | 6 => do
    let (d, bs) ← takeNat bs
    let (o, bs) ← takeNat bs
    .ok (.twrd d o, bs)
  | k => .error (.unusedKind k)

/-- The record decoder: the kind code (R77) in the first byte, then the operands. -/
def decodeRecord : List Byte → Except Reject (Instr × List Byte)
  | [] => .error .truncated
  | b :: bs =>
    if b.toNat < 16 then decodeOperands b.toNat bs
    else .error .kindTooWide

/-- The decoder: total on every word and on every list of bytes. The second component is what follows
the record. -/
def decode : Wire → Except Reject (Instr × List Byte)
  | .command w =>
    match decodeCommand w with
    | .ok i => .ok (i, [])
    | .error e => .error e
  | .record bs => decodeRecord bs

/-- `v` in `n` bytes, least significant first. -/
def putLE : Nat → Nat → List Byte
  | 0, _ => []
  | n + 1, v => BitVec.ofNat 8 v :: putLE n (v / 256)

/-- The selector's byte (R77). -/
def putMem : DataMem → List Byte
  | .ymem => [0x00#8]
  | .buf => [0x01#8]

/-- The encoder: the command words of R73, the kind codes and operand order of R77. -/
def encode : Instr → Wire
  | .initTw => .command 0x00000001#32
  | .xform => .command 0x00000002#32
  | .xformT => .command 0x00000003#32
  | .bfly4 yb xb st => .record (0x01#8 :: (putLE 4 yb ++ putLE 4 xb ++ putLE 4 st))
  | .cmul ar ai br bi =>
    .record (0x02#8 :: (putLE 8 ar.toNat ++ putLE 8 ai.toNat ++ putLE 8 br.toNat ++ putLE 8 bi.toNat))
  | .combine mem base st n j =>
    .record (0x03#8 :: (putMem mem ++ putLE 4 base ++ putLE 4 st ++ putLE 4 n ++ putLE 4 j))
  | .bufld yb q t => .record (0x04#8 :: (putLE 4 yb ++ putLE 4 q ++ putLE 4 t))
  | .bufst yb q t => .record (0x05#8 :: (putLE 4 yb ++ putLE 4 q ++ putLE 4 t))
  | .twrd d o => .record (0x06#8 :: (putLE 4 d ++ putLE 4 o))

/-- The bytes of the longest record: a kind byte and CMUL's four F-words. -/
def longestRecord : Nat := 33

/-- A table word laid out as the hardware takes it: a row of 32 bits is a command word (R71), a shorter row is
the kind code of a record whose operands are all zero (R77). -/
def tableWire (nbits w : Nat) : Wire :=
  if 32 ≤ nbits then .command (BitVec.ofNat 32 w)
  else .record (putLE longestRecord (w % 2 ^ nbits))

/-- The operation the decoder reads from a word numbered as spec/opcode_table.json numbers its bits. -/
def decodeTableWord (nbits w : Nat) : Option Instr :=
  match decode (tableWire nbits w) with
  | .ok (i, _) => some i
  | .error _ => none

end Sys2Proof
end

