-- ==== Sys2Proof/Machine/State.lean ====
section
/-! DEFINITION. The state of R4FFT (R20 to R44), what the host and the platform can do to it (R63, R200), why a
step can stop, and the state after reset (R42, R44, R200). -/

namespace Sys2Proof.Machine

/-- A word-addressed memory: the words written since reset as (flat offset, F-word) pairs, offsets strictly
rising. An offset that is not listed has not been written since reset (log 1). -/
abbrev Mem := List (Nat × FWord)

/-- Eight F-words: the eight words of four complex samples, the temporaries `t0..t7`, the products `p0..p7`
(R35). Generic in the number format, as 40_numerics.md asks. -/
structure Oct (F : Type) where
  w0 : F
  w1 : F
  w2 : F
  w3 : F
  w4 : F
  w5 : F
  w6 : F
  w7 : F
  deriving DecidableEq, Repr

/-- The result codes of `STATUS.ERR` (R180). Codes 5..15 are never written, so they have no constructor (U9). -/
inductive ErrCode where
  | ok
  | invalidSize
  | indexOutOfRange
  | uninitializedTable
  | illegalCommand
  deriving DecidableEq, Repr

/-- The fields of STATUS (R32). The reserved bits read 0 and are no storage. -/
structure StatusReg where
  /-- Bit 0. -/
  busy : Bool
  /-- Bit 1. -/
  done : Bool
  /-- Bits 7:4. -/
  err : ErrCode
  deriving DecidableEq, Repr

/-- The variant of a recursion frame (R38). -/
inductive Variant where
  | plain
  | tiled
  deriving DecidableEq, Repr

/-- The phase of a recursion frame (R38). -/
inductive Phase where
  | divide
  | combine
  deriving DecidableEq, Repr

/-- A frame of the sequencer's stack (R38; the layout is informative, log 14). `j` is the branch counter while
dividing and the group counter while a plain frame combines; `t` and `e` are a tiled frame's tile counter and its
counter inside the tile. -/
structure Frame where
  variant : Variant
  size : Nat
  n : Nat
  yb : Nat
  xb : Nat
  st : Nat
  th : Nat
  phase : Phase
  j : Nat
  t : Nat
  e : Nat
  deriving DecidableEq, Repr

/-- The memory windows a host can name (R63). BUF has none (R25, R62). -/
inductive Window where
  | xmem
  | ymem
  | twrom
  deriving DecidableEq, Repr

/-- What an agent outside the sequencer's own recursion does next: the host primitives of R63, reset (R200), and a
stand-alone micro-operation at the sequencer's issue point (R140, R182; log 9). -/
inductive Event where
  /-- A 32-bit write at a byte offset of the register block (R29); at offset 0 it is a write to CMD (R70). -/
  | writeReg (off : Nat) (w : Word32)
  /-- A 32-bit read at a byte offset of the register block (R29). -/
  | readReg (off : Nat)
  /-- `HostWrite(M, a, v)` (R63). -/
  | writeMem (win : Window) (a : Nat) (v : FWord)
  /-- `HostRead(M, a)` (R63). -/
  | readMem (win : Window) (a : Nat)
  /-- A stand-alone micro-operation, as a record (R77; log 9). -/
  | issue (record : List Byte)
  /-- The platform delivers reset (R200). -/
  | reset
  deriving DecidableEq, Repr

/-- What a host read returned (log 18). -/
inductive Reply where
  | word (w : Word32)
  | fword (v : FWord)
  deriving DecidableEq, Repr

/-- The machine's state: all that R20 lists, the configuration constants of R43, and the model's own fields. -/
structure State where
  /-- XMEM (R21). -/
  xmem : Mem
  /-- YMEM (R22). -/
  ymem : Mem
  /-- BUF (R25). -/
  buf : Mem
  /-- `ARG_N` (R30). -/
  argN : Word32
  /-- `ARG_TH` (R31). -/
  argTh : Word32
  /-- `TWN` (R28). -/
  twn : Word32
  /-- `STATUS` (R32). -/
  status : StatusReg
  /-- `t0..t7` (R35). -/
  t : Oct FWord
  /-- `p0..p7` (R35). -/
  p : Oct FWord
  /-- The frame stack, top first (R38). -/
  frames : List Frame
  /-- The configuration constants that `CFG` reads (R33, R43; log 4). -/
  cfg : Cfg
  /-- TWROM (R27): the words, by linear address (R115), in which this machine's ROM differs from the default table
  of R112 (log 5). `Configured` says which lists are a ROM (R113), and no step changes it. -/
  twrom : Mem
  /-- Model's own (log 10): the real part a stand-alone CMUL returned (R135). -/
  cr : FWord
  /-- Model's own (log 10): the imaginary part a stand-alone CMUL returned (R135). -/
  ci : FWord
  /-- Model's own (log 10): the word a stand-alone TWRD returned (R117). -/
  tw : FWord
  /-- Model's own (log 2): the number of the next free draw. -/
  draws : Nat
  /-- Model's own (log 16): how many resets have been delivered; it selects the power-on words of R44. -/
  epoch : Nat
  /-- Model's own (log 8): what happens next, oldest first. -/
  events : List Event
  /-- Model's own (log 18): what the host's reads returned, newest first. -/
  replies : List Reply
  deriving DecidableEq, Repr

/-- Why the machine stops. None of these is reached by a host command (R167): each belongs to a stand-alone
micro-operation. -/
inductive Fault where
  /-- Raised by a stand-alone BFLY4 that names an XMEM word at or above `2*N_MAX`, which does not exist (R40). Safe:
  the spec gives such an operation no effect, "the Driver only issues it" in range (R127). -/
  | noXmemWord
  /-- Raised by a stand-alone BFLY4, BUFLD or BUFST that names a YMEM word at or above `2*N_MAX`, which does not
  exist (R40). Safe: the spec gives such an operation no effect (R127, R158, R159). -/
  | noYmemWord
  deriving DecidableEq, Repr

/-- Why an operation has no meaning. -/
inductive Refusal where
  /-- Raised by an arm of `exec` whose instruction has no meaning yet. Safe. -/
  | notModelled (mnemonic : String)
  /-- Raised by an issued record that is no micro-operation: an unused kind, or bytes that are no record (R77: "the
  sequencer never produces them"; log 23). Safe. -/
  | notARecord (why : Reject)
  deriving DecidableEq, Repr

/-- Eight words of zero. -/
def Oct.zero : Oct FWord := ⟨0, 0, 0, 0, 0, 0, 0, 0⟩

/-- STATUS after reset: BUSY 0, DONE 0, ERR 0 (R42). -/
def StatusReg.idle : StatusReg := ⟨false, false, .ok⟩

/-- The state after reset (R42, R44, R200) of a machine with configuration `cfg` and ROM `twrom`: arguments, TWN and
STATUS zero, no frame, no memory word written. `t`, `p` and the return ports are zero by choice (logs 3, 10). The machines R7 admits are those with
`Configured cfg twrom` (Machine/Rom.lean): parameters in range, a ROM under the laws of R113 (log 5). -/
def State.resetOf (cfg : Cfg) (twrom : Mem) : State where
  xmem := []
  ymem := []
  buf := []
  argN := 0
  argTh := 0
  twn := 0
  status := StatusReg.idle
  t := Oct.zero
  p := Oct.zero
  frames := []
  cfg := cfg
  twrom := twrom
  cr := 0
  ci := 0
  tw := 0
  draws := 0
  epoch := 0
  events := []
  replies := []

/-- The reference configuration: `LS = 2` (R7), `LOG4_NMAX = 3` (95_test_vectors.md's conventions; log 4). -/
def referenceCfg : Cfg := ⟨3, 2⟩

/-- The machine right after reset, with the reference configuration and the default ROM (logs 4, 5). -/
def State.reset : State := State.resetOf referenceCfg []

end Sys2Proof.Machine
end

