-- ==== Sys2Proof/Machine/Ops.lean ====
section
/-! DEFINITION. The named operations over memories, STATUS and the free draws: the one place where a word is read or
written (R11, R50), where an error is raised and where a command ends (R70, R186). -/

namespace Sys2Proof.Machine

/-- The word written at offset `a` since reset, if any (R44). -/
def Mem.get : Mem → Nat → Option FWord
  | [], _ => none
  | (b, v) :: m, a => if a = b then some v else Mem.get m a

/-- `M[a] <- v` (R11), keeping the offsets strictly rising (log 1). -/
def Mem.set : Mem → Nat → FWord → Mem
  | [], a, v => [(a, v)]
  | (b, w) :: m, a, v =>
    if a < b then (a, v) :: (b, w) :: m
    else if a = b then (a, v) :: m
    else (b, w) :: Mem.set m a v

/-- Every offset of the list is at least `lo`, and they strictly rise. -/
def Mem.wfFrom : Nat → Mem → Bool
  | _, [] => true
  | lo, (b, _) :: m => decide (lo ≤ b) && Mem.wfFrom (b + 1) m

/-- The canonical form: offsets strictly rising (log 1). -/
def Mem.wf (m : Mem) : Bool := Mem.wfFrom 0 m

/-- Every listed offset exists in a memory of `size` words (R40). -/
def Mem.below (size : Nat) (m : Mem) : Bool := m.all fun c => decide (c.1 < size)

/-- `XMEM[a]` (R11); a word not written since reset holds its power-on draw (R44). -/
def State.readX (s : State) (a : Nat) : FWord := (s.xmem.get a).getD (Config.powerOnX s.epoch a)

/-- `YMEM[a]` (R11, R44). -/
def State.readY (s : State) (a : Nat) : FWord := (s.ymem.get a).getD (Config.powerOnY s.epoch a)

/-- `BUF[a]` (R11, R44). -/
def State.readB (s : State) (a : Nat) : FWord := (s.buf.get a).getD (Config.powerOnB s.epoch a)

/-- `XMEM[a] <- v` (R11). Only the host does this (R21). -/
def State.writeX (s : State) (a : Nat) (v : FWord) : State := { s with xmem := s.xmem.set a v }

/-- `YMEM[a] <- v` (R11). -/
def State.writeY (s : State) (a : Nat) (v : FWord) : State := { s with ymem := s.ymem.set a v }

/-- `BUF[a] <- v` (R11). -/
def State.writeB (s : State) (a : Nat) (v : FWord) : State := { s with buf := s.buf.set a v }

/-- `mem[a]` of a COMBINE (R139). -/
def State.readD (s : State) : DataMem → Nat → FWord
  | .ymem => s.readY
  | .buf => s.readB

/-- `mem[a] <- v` of a COMBINE (R139). -/
def State.writeD (s : State) : DataMem → Nat → FWord → State
  | .ymem => s.writeY
  | .buf => s.writeB

/-- `|mem|`: `|YMEM| = 2*N_MAX`, `|BUF| = 8*LS` (R40, R140). -/
def dataWords (c : Cfg) : DataMem → Nat
  | .ymem => c.sampleWords
  | .buf => c.bufWords

/-- The 4-bit code of a result (R180). -/
def ErrCode.code : ErrCode → BitVec 4
  | .ok => 0
  | .invalidSize => 1
  | .indexOutOfRange => 2
  | .uninitializedTable => 3
  | .illegalCommand => 4

/-- The 32 bits a read of STATUS returns: BUSY at bit 0, DONE at bit 1, ERR at bits 7:4, every reserved bit 0
(R32). -/
def StatusReg.word (r : StatusReg) : Word32 :=
  (BitVec.ofBool r.busy).setWidth 32 ||| ((BitVec.ofBool r.done).setWidth 32 <<< 1)
    ||| (r.err.code.setWidth 32 <<< 4)

/-- The 32 bits a read of CFG returns: LS at bits 7:0, LOG4_NMAX at bits 15:8, bits 31:16 zero (R33). -/
def cfgWord (c : Cfg) : Word32 :=
  (BitVec.ofNat 8 c.ls).setWidth 32 ||| ((BitVec.ofNat 8 c.log4NMax).setWidth 32 <<< 8)

/-- A command ends with result `c`: `ERR <- c`, `BUSY <- 0`, `DONE <- 1` (R70 step 5, R186). -/
def State.finish (s : State) (c : ErrCode) : State := { s with status := ⟨false, true, c⟩ }

/-- `raise E` (R14, R186): the one exception mechanism of R4FFT. It writes the code and changes nothing else; there is
no handler, nothing is saved and there is no return (R187). -/
def State.raise (s : State) (c : ErrCode) : State := s.finish c

/-- `n` free draws have been used (R96; log 2). -/
def State.draw (s : State) (n : Nat) : State := { s with draws := s.draws + n }

/-- `for v = 0 .. n-1`: `f` run upward through every value (R14). -/
def forUpTo : Nat → (Nat → State → State) → State → State
  | 0, _, s => s
  | n + 1, f, s => f n (forUpTo n f s)

end Sys2Proof.Machine
end

