-- ==== Sys2Proof/Machine/Flags.lean ====
section
/-! DEFINITION. R4FFT has no flags and no condition codes (R37); the only conditions its operations compute are the
checks whose failure is reported in `STATUS.ERR` (R181 to R185, R117, R140). Here they are, with the integer
arithmetic they need (R100, R101). -/

namespace Sys2Proof.Machine

/-- `log4(v)`: `m` for `v = 4^m` (R9). R9 defines it for no other value; there, and at 0, half the index of the highest
bit, rounded down, is the model's choice (DESIGN CHOICE, log 25). No run has such a TWN (R28), and the commands ask it only
of an `N` that passed `P4`. -/
def log4 (v : Nat) : Nat := Nat.log2 v / 2

/-- `P4(v)`: `v = 4^m` for some `m >= 1`, on the signed argument (R9, R101). -/
def P4 (v : Int) : Bool := decide (4 ≤ v) && decide (v.toNat = 4 ^ log4 v.toNat)

/-- `N = sext_32(ARG_N)` (R30, R72). -/
def State.sizeArg (s : State) : Int := s.argN.toInt

/-- `th = sext_32(ARG_TH)` (R31, R72). -/
def State.thresholdArg (s : State) : Int := s.argTh.toInt

/-- Check 2 of R185: `P4(N)` and `N <= N_MAX` (R181 a, b). -/
def State.sizeOk (s : State) : Bool := P4 s.sizeArg && decide (s.sizeArg ≤ s.cfg.nMax)

/-- Check 3 of R185: `P4(th)` and `LS <= th` (R181 c, d). -/
def State.thresholdOk (s : State) : Bool := P4 s.thresholdArg && decide ((s.cfg.ls : Int) ≤ s.thresholdArg)

/-- Check 4 of R185: `TWN = N` (R183). -/
def State.tableOk (s : State) : Bool := decide ((s.twn.toNat : Int) = s.sizeArg)

/-- TWRD's bounds (R117): it fails when `TWN = 0`, `d > log4(TWN) - 2` or `o >= 2*4^(d+2)`. The middle
comparison is on integers (with `TWN = 4` it fails for every `d`), written here without subtraction. A TWN that is no power
of 4, which R28 never stores, is compared as `log4` has it (log 25). -/
def State.tableIndexOk (s : State) (d o : Nat) : Bool :=
  decide (s.twn.toNat ≠ 0) && decide (d + 2 ≤ log4 s.twn.toNat) && decide (o < 2 * 4 ^ (d + 2))

/-- COMBINE's hoisted bounds (R140): (1) `n >= 2`, (2) `TWN != 0` and `n <= log4(TWN)`, (3) `j < 4^(n-1)`,
(4) `base + 6*s + 1 < |mem|`. A TWN that is no power of 4 as in `State.tableIndexOk` (log 25). -/
def State.combineOk (s : State) (m : DataMem) (base st n j : Nat) : Bool :=
  decide (2 ≤ n) && (decide (s.twn.toNat ≠ 0) && decide (n ≤ log4 s.twn.toNat)) && decide (j < 4 ^ (n - 1))
    && decide (base + 6 * st + 1 < dataWords s.cfg m)

/-- The XMEM words a BFLY4 reads exist: `xb + 6*s + 1 < 2*N_MAX` (R127, R40). -/
def State.leafSourceOk (s : State) (xb st : Nat) : Bool := decide (xb + 6 * st + 1 < s.cfg.sampleWords)

/-- The YMEM words a BFLY4 writes exist: `yb + 7 < 2*N_MAX` (R127, R40). -/
def State.leafTargetOk (s : State) (yb : Nat) : Bool := decide (yb + 7 < s.cfg.sampleWords)

/-- The YMEM words of tile `t` exist: the last one, the imaginary part of element `Q*3 + t*LS + LS - 1`, is below
`2*N_MAX` (R156, R158, R40). -/
def State.tileOk (s : State) (yb q t : Nat) : Bool :=
  decide (yb + 2 * (q * 3 + t * s.cfg.ls + s.cfg.ls) ≤ s.cfg.sampleWords)

end Sys2Proof.Machine
end

