-- ==== Sys2Proof/Machine/Numerics.lean ====
section
/-! DEFINITION. The arithmetic on samples (40_numerics.md): the record `(F, fadd, fsub, fmul)` that the rules of files
41 to 44 are written over, and its default member, IEEE 754 binary64 rounded once to nearest even (R90 to R97). -/

namespace Sys2Proof.Machine

/-- The numerics record. The first argument of each operation is the number of the operation's own draw, used only if
the result is a NaN ("a draw per operation", R96). -/
structure Numerics (F : Type) where
  fadd : Nat → F → F → F
  fsub : Nat → F → F → F
  fmul : Nat → F → F → F

/-- Bit 63 (R90). -/
def signBit (w : FWord) : Bool := decide (2 ^ 63 ≤ w.toNat)

/-- Bits 62:52, the biased exponent (R90). -/
def expField (w : FWord) : Nat := w.toNat / 2 ^ 52 % 2 ^ 11

/-- Bits 51:0, the fraction (R90). -/
def fracField (w : FWord) : Nat := w.toNat % 2 ^ 52

/-- A NaN: `e = 2047`, `f != 0` (R90). -/
def isNaN (w : FWord) : Bool := decide (expField w = 2047) && decide (fracField w ≠ 0)

/-- An infinity: `e = 2047`, `f = 0` (R90). -/
def isInf (w : FWord) : Bool := decide (expField w = 2047) && decide (fracField w = 0)

/-- A zero of either sign (R90). -/
def isZero (w : FWord) : Bool := decide (expField w = 0) && decide (fracField w = 0)

/-- A finite number (R90). -/
def isFinite (w : FWord) : Bool := decide (expField w ≠ 2047)

/-- The word with the sign `neg` and the exponent and fraction bits `mag`. -/
def packSign (neg : Bool) (mag : Nat) : FWord := BitVec.ofNat 64 ((if neg then 2 ^ 63 else 0) + mag)

/-- The exponent and fraction bits of an infinity. -/
def infMag : Nat := 2047 * 2 ^ 52

/-- `+0` (R90). -/
def plusZero : FWord := 0x0000000000000000#64

/-- `-0` (R90). -/
def minusZero : FWord := 0x8000000000000000#64

/-- `1.0` (R90). -/
def oneWord : FWord := 0x3FF0000000000000#64

/-- `neg` flips bit 63 (R93). -/
def fneg (w : FWord) : FWord := w ^^^ 0x8000000000000000#64

/-- The magnitude of a finite number, counted in units of `2^-1074`: every finite binary64 value is a whole number of
them (R90). -/
def magnitude (w : FWord) : Nat :=
  if expField w = 0 then fracField w else (2 ^ 52 + fracField w) * 2 ^ (expField w - 1)

/-- The value of a finite number in units of `2^-1074` (R90). -/
def value (w : FWord) : Int := if signBit w then -(magnitude w : Int) else magnitude w

/-- `m / 2^k` to the nearest whole number, ties to even (R91). -/
def nearestEven (m k : Nat) : Nat :=
  let q := m / 2 ^ k
  let r := m % 2 ^ k
  if 2 * r > 2 ^ k then q + 1
  else if 2 * r = 2 ^ k then q + q % 2
  else q

/-- `round` (R91) of the magnitude `m / 2^k` units of `2^-1074`: the exponent and fraction bits of the result. `drop`
bits fall below the result's last place: all but 53, and at least the `k` that are below the subnormal grid. A
significand that rounds up to `2^53` carries into the exponent field; past the largest finite number the result is the
infinity. -/
def roundMag (m k : Nat) : Nat :=
  let drop := max (Nat.log2 m - 52) k
  min ((drop - k) * 2 ^ 52 + nearestEven m drop) infMag

/-- The NaN that operation `k` draws: `e = 2047`, any sign, any fraction but zero (R96). A drawn fraction of zero
stands for the fraction 1, so every NaN pattern is some draw's. -/
def nanOf (k : Nat) : FWord :=
  let raw := (Config.nanDraw k).toNat
  packSign (decide (2 ^ 52 ≤ raw)) (infMag + (if raw % 2 ^ 52 = 0 then 1 else raw % 2 ^ 52))

/-- `fadd` (R92), cases in the rule's order. -/
def fadd (k : Nat) (a b : FWord) : FWord :=
  if isNaN a || isNaN b then nanOf k
  else if isInf a && isInf b && (signBit a != signBit b) then nanOf k
  else if isInf a then a
  else if isInf b then b
  else if isZero a && isZero b then (if signBit a && signBit b then minusZero else plusZero)
  else
    let r := value a + value b
    if r = 0 then plusZero
    else packSign (decide (r < 0)) (roundMag r.natAbs 0)

/-- `fsub(a, b)` is `fadd(a, neg(b))` (R93). -/
def fsub (k : Nat) (a b : FWord) : FWord := fadd k a (fneg b)

/-- `fmul` (R94), cases in the rule's order. The product of two magnitudes is in units of `2^-2148`. -/
def fmul (k : Nat) (a b : FWord) : FWord :=
  let neg := signBit a != signBit b
  if isNaN a || isNaN b then nanOf k
  else if (isZero a && isInf b) || (isInf a && isZero b) then nanOf k
  else if isInf a || isInf b then packSign neg infMag
  else if isZero a || isZero b then packSign neg 0
  else packSign neg (roundMag (magnitude a * magnitude b) 1074)

/-- The default member of the record: binary64, unfused (R95, R7 P3). -/
def binary64 : Numerics FWord := ⟨fadd, fsub, fmul⟩

end Sys2Proof.Machine
end

