-- ==== Sys2Proof/Machine/Operands.lean ====
section
/-! DEFINITION. The three addressing forms (R64) and the groups of eight words that BFLY4 and COMBINE move (R55). -/

namespace Sys2Proof.Machine

/-- Strided complex element: the flat offset of component `c` (0 real, 1 imaginary) of element `e` of the view with
base `b` and stride `st` (R12, R64). -/
def strided (b st e c : Nat) : Nat := b + 2 * e * st + c

/-- Contiguous complex element: the flat offset of component `c` of element `q` (R64). -/
def contiguous (b q c : Nat) : Nat := b + 2 * q + c

/-- Table coefficient: the word offset, within a level, of component `c` (0 cosine, 1 sine) of coefficient `i` of
group `j` (R27, R64). -/
def tableOffset (j i c : Nat) : Nat := 8 * j + 2 * i + c

/-- The eight words at strided elements 0..3, read through `read` (R127, R139). -/
def gather {F : Type} (read : Nat → F) (b st : Nat) : Oct F where
  w0 := read (strided b st 0 0)
  w1 := read (strided b st 0 1)
  w2 := read (strided b st 1 0)
  w3 := read (strided b st 1 1)
  w4 := read (strided b st 2 0)
  w5 := read (strided b st 2 1)
  w6 := read (strided b st 3 0)
  w7 := read (strided b st 3 1)

/-- The eight table words of group `j`, read through `read` (R139). -/
def gatherTable {F : Type} (read : Nat → F) (j : Nat) : Oct F where
  w0 := read (tableOffset j 0 0)
  w1 := read (tableOffset j 0 1)
  w2 := read (tableOffset j 1 0)
  w3 := read (tableOffset j 1 1)
  w4 := read (tableOffset j 2 0)
  w5 := read (tableOffset j 2 1)
  w6 := read (tableOffset j 3 0)
  w7 := read (tableOffset j 3 1)

/-- COMBINE's writes: `for q = 0 .. 3`, real then imaginary, at the strided elements (R139). -/
def scatter (m : DataMem) (b st : Nat) (y : Oct FWord) (s : State) : State :=
  ((((((((s.writeD m (strided b st 0 0) y.w0).writeD m (strided b st 0 1) y.w1).writeD m
    (strided b st 1 0) y.w2).writeD m (strided b st 1 1) y.w3).writeD m
    (strided b st 2 0) y.w4).writeD m (strided b st 2 1) y.w5).writeD m
    (strided b st 3 0) y.w6).writeD m (strided b st 3 1) y.w7)

/-- BFLY4's writes, contiguous, in the source's order 0, 1, 4, 5, 2, 3, 6, 7 (R127, R130). -/
def scatterLeaf (yb : Nat) (y : Oct FWord) (s : State) : State :=
  ((((((((s.writeY (contiguous yb 0 0) y.w0).writeY (contiguous yb 0 1) y.w1).writeY
    (contiguous yb 2 0) y.w4).writeY (contiguous yb 2 1) y.w5).writeY
    (contiguous yb 1 0) y.w2).writeY (contiguous yb 1 1) y.w3).writeY
    (contiguous yb 3 0) y.w6).writeY (contiguous yb 3 1) y.w7)

end Sys2Proof.Machine
end

