-- ==== Sys2Proof/Machine/Butterfly.lean ====
section
/-! DEFINITION. The 4-point kernel CORE4 (R125) and the micro-operation BFLY4 (R127). -/

namespace Sys2Proof.Machine

/-- The eight first-stage values `t0..t7` of CORE4 (R125); operations number `k .. k+7`. The operands are
`x0r, x0i, x1r, x1i, x2r, x2i, x3r, x3i`. -/
def coreSums {F : Type} (ops : Numerics F) (k : Nat) (x : Oct F) : Oct F where
  w0 := ops.fadd k x.w0 x.w4
  w1 := ops.fadd (k + 1) x.w2 x.w6
  w2 := ops.fadd (k + 2) x.w1 x.w5
  w3 := ops.fadd (k + 3) x.w3 x.w7
  w4 := ops.fsub (k + 4) x.w0 x.w4
  w5 := ops.fsub (k + 5) x.w3 x.w7
  w6 := ops.fsub (k + 6) x.w1 x.w5
  w7 := ops.fsub (k + 7) x.w2 x.w6

/-- The eight results of CORE4 from `t0..t7` (R125); operations number `k .. k+7`. The result words are
`y0r, y0i, y1r, y1i, y2r, y2i, y3r, y3i`; they are computed in the order `y0, y2, y1, y3`. -/
def coreResults {F : Type} (ops : Numerics F) (k : Nat) (t : Oct F) : Oct F where
  w0 := ops.fadd k t.w0 t.w1
  w1 := ops.fadd (k + 1) t.w2 t.w3
  w4 := ops.fsub (k + 2) t.w0 t.w1
  w5 := ops.fsub (k + 3) t.w2 t.w3
  w2 := ops.fsub (k + 4) t.w4 t.w5
  w3 := ops.fadd (k + 5) t.w6 t.w7
  w6 := ops.fadd (k + 6) t.w4 t.w5
  w7 := ops.fsub (k + 7) t.w6 t.w7

/-- CORE4 (R125): sixteen operations, each rounded once, numbered `k .. k+15`. -/
def core4 {F : Type} (ops : Numerics F) (k : Nat) (x : Oct F) : Oct F :=
  coreResults ops (k + 8) (coreSums ops k x)

/-- BFLY4 (R127) on a state in which its words exist: eight XMEM words read, CORE4, eight YMEM words written. -/
def bfly4 (yb xb st : Nat) (s : State) : State :=
  let x := gather s.readX xb st
  let t := coreSums binary64 s.draws x
  let y := coreResults binary64 (s.draws + 8) t
  (scatterLeaf yb y { s with t := t }).draw 16

/-- The meaning of `BFLY4(yb, xb, s)` (R127). The rule has no bounds check because the Driver issues it in range;
a stand-alone one that names a word that does not exist stops by name (log 12). -/
def execBfly4 (yb xb st : Nat) (s : State) : Host.Outcome State Fault Refusal :=
  if s.leafSourceOk xb st then
    if s.leafTargetOk yb then .next (bfly4 yb xb st s)
    else .fault .noYmemWord
  else .fault .noXmemWord

end Sys2Proof.Machine
end

