-- ==== Sys2Proof/Machine/Rom.lean ====
section
/-! DEFINITION. The twiddle ROM (R27, R111 to R116): its linear addresses, its default contents (each word the
correctly rounded cosine or sine of the exact angle, R112), and the read of a word. The default words are computed by
enclosing the real value between two fixed-point numbers, by half-angle formulas and angle addition, and rounding both
ends (log 6). -/

namespace Sys2Proof.Machine

/-- The transform size a level serves: `4^(d+2)` (R111). -/
def levelSize (d : Nat) : Nat := 4 ^ (d + 2)

/-- The F-words of level index `d`: `2 * 4^(d+2)` (R114). -/
def levelWords (d : Nat) : Nat := 2 * levelSize d

/-- `LB(d)`, the linear address of the first word of level index `d` (R115). -/
def levelBase (d : Nat) : Nat := 32 * (4 ^ d - 1) / 3

/-- The F-words of the whole ROM: `LB(LOG4_NMAX - 1)` (R40, R115). -/
def romWords (c : Cfg) : Nat := levelBase (c.log4NMax - 1)

/-- Bounds on the cosine and the sine of one angle in `[0, pi/2]`, in units of `2^-P`. -/
structure Enclosure where
  cLo : Nat
  cHi : Nat
  sLo : Nat
  sHi : Nat
  deriving DecidableEq, Repr

/-- The whole square root of `n`, if it is below `2^bits`: the bits from the highest down, each kept if the square
stays at most `n`. `acc` is what the higher bits gave. -/
def isqrtFrom : Nat → Nat → Nat → Nat
  | 0, _, acc => acc
  | bits + 1, n, acc =>
    if (acc + 2 ^ bits) * (acc + 2 ^ bits) ≤ n then isqrtFrom bits n (acc + 2 ^ bits)
    else isqrtFrom bits n acc

/-- `x / 2^P` rounded down. -/
def scaleDown (prec x : Nat) : Nat := x / 2 ^ prec

/-- `x / 2^P` rounded up. -/
def scaleUp (prec x : Nat) : Nat := (x + (2 ^ prec - 1)) / 2 ^ prec

/-- From bounds for an angle to bounds for half of it: `cos(a/2) = sqrt((1 + cos a)/2)`,
`sin(a/2) = sqrt((1 - cos a)/2)`. -/
def halfAngle (prec : Nat) (b : Enclosure) : Enclosure where
  cLo := isqrtFrom (prec + 1) ((2 ^ prec + b.cLo) * 2 ^ prec / 2) 0
  cHi := min (2 ^ prec) (isqrtFrom (prec + 1) ((2 ^ prec + b.cHi) * 2 ^ prec / 2) 0 + 1)
  sLo := isqrtFrom (prec + 1) ((2 ^ prec - b.cHi) * 2 ^ prec / 2) 0
  sHi := min (2 ^ prec) (isqrtFrom (prec + 1) ((2 ^ prec - b.cLo) * 2 ^ prec / 2) 0 + 1)

/-- From bounds for two angles whose sum is at most `pi/2` to bounds for the sum. -/
def addAngle (prec : Nat) (a b : Enclosure) : Enclosure where
  cLo := scaleDown prec (a.cLo * b.cLo) - scaleUp prec (a.sHi * b.sHi)
  cHi := min (2 ^ prec) (scaleUp prec (a.cHi * b.cHi) - scaleDown prec (a.sLo * b.sLo))
  sLo := min (2 ^ prec) (scaleDown prec (a.sLo * b.cLo) + scaleDown prec (a.cLo * b.sLo))
  sHi := min (2 ^ prec) (scaleUp prec (a.sHi * b.cHi) + scaleUp prec (a.cHi * b.sHi))

/-- Bounds for the angle `(pi/2) * r / 2^bits + acc`: `base` bounds the quarter, or the half, quarter and so on of
it that the next lower bit of `r` stands for twice. -/
def encloseFrom (prec : Nat) : Nat → Nat → Enclosure → Enclosure → Enclosure
  | 0, _, _, acc => acc
  | bits + 1, r, base, acc =>
    let half := halfAngle prec base
    if r / 2 ^ bits % 2 = 1 then encloseFrom prec bits r half (addAngle prec acc half)
    else encloseFrom prec bits r half acc

/-- Bounds for the angle `(pi/2) * r / 2^bits`, `r < 2^bits`: the walk starts from the exact quarter turn (0, 1) and
the exact zero angle (1, 0). -/
def enclose (prec bits r : Nat) : Enclosure :=
  encloseFrom prec bits r ⟨0, 0, 2 ^ prec, 2 ^ prec⟩ ⟨2 ^ prec, 2 ^ prec, 0, 0⟩

/-- The exponent and fraction bits of `x * 2^-P` rounded to nearest even (R91, R112). -/
def roundFixed (prec x : Nat) : Nat := roundMag (x * 2 ^ 1074) prec

/-- Both ends round to the same word, which is then the rounded real value. -/
def decided (prec lo hi : Nat) : Bool := decide (roundFixed prec lo = roundFixed prec hi)

/-- The rounded value between the bounds `pick` selects, at precision `P`, and at twice the precision while the ends
round differently and tries are left (log 6). -/
def romMagnitude (bits r : Nat) (pick : Enclosure → Nat × Nat) : Nat → Nat → Nat
  | 0, prec => roundFixed prec (pick (enclose prec bits r)).1
  | tries + 1, prec =>
    let b := pick (enclose prec bits r)
    if decided prec b.1 b.2 then roundFixed prec b.1
    else romMagnitude bits r pick tries (2 * prec)

/-- The first precision: 192 fractional bits; then 384 and 768 (log 6). -/
def romPrecision : Nat := 192

/-- The word for the cosine (`isSine = false`) or the sine of `2*pi*a/size(l)` with `size(l) = 4^(d+2)`: the quarter
turns are taken out exactly, the rest lies in `[0, pi/2)`. A real value of 0 gives `+0` (R112). -/
def romTrig (d a : Nat) (isSine : Bool) : FWord :=
  let quarter := 4 ^ (d + 1)
  let turns := a / quarter % 4
  let r := a % quarter
  let cosMag := romMagnitude (2 * (d + 1)) r (fun b => (b.cLo, b.cHi)) 2 romPrecision
  let sinMag := romMagnitude (2 * (d + 1)) r (fun b => (b.sLo, b.sHi)) 2 romPrecision
  let useSine := isSine != decide (turns % 2 = 1)
  let mag := if useSine then sinMag else cosMag
  let neg := if isSine then decide (2 ≤ turns) else decide (turns = 1) || decide (turns = 2)
  packSign (neg && decide (mag ≠ 0)) mag

/-- `ROMCOS(d, k, i)` of the default instance (R112): the word for `cos(2*pi*i*k / 4^(d+2))`. -/
def romCos (d k i : Nat) : FWord := romTrig d (i * k) false

/-- `ROMSIN(d, k, i)` of the default instance (R112): the word for `sin(2*pi*i*k / 4^(d+2))`. -/
def romSin (d k i : Nat) : FWord := romTrig d (i * k) true

/-- Word `o = 8*k + 2*i + c` of level index `d` of the default table (R111). -/
def romDefault (d o : Nat) : FWord :=
  if o % 2 = 0 then romCos d (o / 8) (o % 8 / 2) else romSin d (o / 8) (o % 8 / 2)

/-- Word `o` of level index `d` of the ROM instance that differs from the default table in the words `rom` lists, by
linear address (R7 P4; log 5). -/
def romOf (rom : Mem) (d o : Nat) : FWord := (rom.get (levelBase d + o)).getD (romDefault d o)

/-- The laws L2 and L3 of R113 for a ROM given as words `rom d o`, over the levels `0 .. levels-1`. L1 holds of any
function. -/
def RomLaws (levels : Nat) (rom : Nat → Nat → FWord) : Prop :=
  (∀ d < levels, ∀ k < 4 ^ (d + 1), ∀ i < 4, i = 0 ∨ k = 0 →
      rom d (8 * k + 2 * i) = oneWord ∧ rom d (8 * k + 2 * i + 1) = plusZero) ∧
  (∀ d < levels, rom d (8 * (2 * 4 ^ d) + 2 * 2) = plusZero ∧ rom d (8 * (2 * 4 ^ d) + 2 * 2 + 1) = oneWord) ∧
  (∀ d < levels, ∀ o < levelWords d, isFinite (rom d o) = true ∧ magnitude (rom d o) ≤ magnitude oneWord)

/-- The level indices the ROM holds, `0 .. LOG4_NMAX - 2` (R27, R115): how many. -/
def romLevels (c : Cfg) : Nat := c.log4NMax - 1

/-- The machines R7 admits: parameters P1 and P2 in range, and a ROM instance (P4, U15) that lists only words the ROM
has and obeys the laws of R113 at every level it holds. -/
structure Configured (c : Cfg) (rom : Mem) : Prop where
  valid : c.valid = true
  romWf : rom.wf = true
  romBelow : rom.below (romWords c) = true
  romLaws : RomLaws (romLevels c) (romOf rom)

/-- `TW(d, o)` (R11, R27): this machine's ROM word. -/
def State.romWord (s : State) (d o : Nat) : FWord := romOf s.twrom d o

/-- The level index whose block holds linear address `a`, looking at level indices `d, d+1, ...` for `fuel` levels. -/
def levelFrom : Nat → Nat → Nat → Nat
  | 0, d, _ => d
  | fuel + 1, d, a => if a < levelBase (d + 1) then d else levelFrom fuel (d + 1) a

/-- ROM word at linear address `a` (R63 `HostRead(TWROM, LB(d)+o)`, R115). -/
def State.romLinear (s : State) (a : Nat) : FWord :=
  let d := levelFrom 15 0 a
  s.romWord d (a - levelBase d)

end Sys2Proof.Machine
end

