-- ==== Sys2Proof/Machine/Combine.lean ====
section
/-! DEFINITION. The complex multiply CMUL (R135) and the twiddle combine stage COMBINE (R139 to R141). -/

namespace Sys2Proof.Machine

/-- `CMUL(ar, ai, br, bi) = ((ar*br) - (ai*bi), (ar*bi) + (ai*br))`, six roundings, unfused (R135, R95);
operations number `k .. k+5`. -/
def complexMul {F : Type} (ops : Numerics F) (k : Nat) (ar ai br bi : F) : F × F :=
  (ops.fsub (k + 2) (ops.fmul k ar br) (ops.fmul (k + 1) ai bi),
   ops.fadd (k + 5) (ops.fmul (k + 3) ar bi) (ops.fmul (k + 4) ai br))

/-- The four products `p0..p7` of COMBINE: sample `i` times coefficient `i` (R139); operations number
`k .. k+23`. -/
def products {F : Type} (ops : Numerics F) (k : Nat) (a b : Oct F) : Oct F :=
  let c0 := complexMul ops k a.w0 a.w1 b.w0 b.w1
  let c1 := complexMul ops (k + 6) a.w2 a.w3 b.w2 b.w3
  let c2 := complexMul ops (k + 12) a.w4 a.w5 b.w4 b.w5
  let c3 := complexMul ops (k + 18) a.w6 a.w7 b.w6 b.w7
  ⟨c0.1, c0.2, c1.1, c1.2, c2.1, c2.2, c3.1, c3.2⟩

/-- The arithmetic of one COMBINE on samples `a` with coefficients `b` (R139); operations number `k .. k+39`. -/
def combineValues {F : Type} (ops : Numerics F) (k : Nat) (a b : Oct F) : Oct F :=
  core4 ops (k + 24) (products ops k a b)

/-- COMBINE (R139) on a state in which its checks hold: all eight data words and all eight coefficients are read
before the first word is written (R141). -/
def combine (m : DataMem) (base st n j : Nat) (s : State) : State :=
  let a := gather (s.readD m) base st
  let b := gatherTable (s.romWord (n - 2)) j
  let p := products binary64 s.draws a b
  let t := coreSums binary64 (s.draws + 24) p
  let y := coreResults binary64 (s.draws + 32) t
  (scatter m base st y { s with p := p, t := t }).draw 40

/-- The meaning of `CMUL(ar, ai, br, bi)` (R135): the pair it returns goes to the return ports (log 10). -/
def execCmul (ar ai br bi : FWord) (s : State) : Host.Outcome State Fault Refusal :=
  let c := complexMul binary64 s.draws ar ai br bi
  .next (State.draw { s with cr := c.1, ci := c.2 } 6)

/-- The meaning of `COMBINE(mem, base, s, n, j)` (R139): `IndexOutOfRangeError` before any write if a check of R140
fails (log 11). -/
def execCombine (m : DataMem) (base st n j : Nat) (s : State) : Host.Outcome State Fault Refusal :=
  if s.combineOk m base st n j then .next (combine m base st n j s)
  else .next (s.raise .indexOutOfRange)

end Sys2Proof.Machine
end

