-- ==== Sys2Proof/Machine/Driver.lean ====
section
/-! DEFINITION. The recursive driver: BUFLD and BUFST (R158, R159), REC and RECT (R150, R155), the commands XFORM and
XFORM_T (R151, R161), and the trace of a command (R160). A size `N` is held as its exponent `n`, `N = 4^n` (R150's
precondition). -/

namespace Sys2Proof.Machine

/-- The BUF offset of the real part of element `e` of chunk `i` (R156, R158). -/
def bufSlot (ls i e : Nat) : Nat := 2 * (i * ls + e)

/-- The YMEM offset of the real part of element `e` of chunk `(i, t)` (R156, R158). -/
def tileSlot (ls yb q t i e : Nat) : Nat := yb + 2 * (q * i + t * ls + e)

/-- One element's two word moves of BUFLD (R158). -/
def loadElement (yb q t i e : Nat) (s : State) : State :=
  let s := s.writeB (bufSlot s.cfg.ls i e) (s.readY (tileSlot s.cfg.ls yb q t i e))
  s.writeB (bufSlot s.cfg.ls i e + 1) (s.readY (tileSlot s.cfg.ls yb q t i e + 1))

/-- One element's two word moves of BUFST (R159). -/
def storeElement (yb q t i e : Nat) (s : State) : State :=
  let s := s.writeY (tileSlot s.cfg.ls yb q t i e) (s.readB (bufSlot s.cfg.ls i e))
  s.writeY (tileSlot s.cfg.ls yb q t i e + 1) (s.readB (bufSlot s.cfg.ls i e + 1))

/-- BUFLD (R158): tile `t` from YMEM to BUF, bit for bit. -/
def bufld (yb q t : Nat) (s : State) : State :=
  forUpTo 4 (fun i => forUpTo s.cfg.ls (fun e => loadElement yb q t i e)) s

/-- BUFST (R159): BUF back to tile `t` of YMEM, bit for bit. -/
def bufst (yb q t : Nat) (s : State) : State :=
  forUpTo 4 (fun i => forUpTo s.cfg.ls (fun e => storeElement yb q t i e)) s

/-- The meaning of `BUFLD(yb, Q, t)` (R158). The Driver issues it in range (R167); a stand-alone one that names a
YMEM word that does not exist stops by name (log 12). -/
def execBufld (yb q t : Nat) (s : State) : Host.Outcome State Fault Refusal :=
  if s.tileOk yb q t then .next (bufld yb q t s) else .fault .noYmemWord

/-- The meaning of `BUFST(yb, Q, t)` (R159), as `execBufld` (log 12). -/
def execBufst (yb q t : Nat) (s : State) : Host.Outcome State Fault Refusal :=
  if s.tileOk yb q t then .next (bufst yb q t s) else .fault .noYmemWord

/-- The combine phase of a plain frame of size `4^(m+1)`: one COMBINE per group (R150). -/
def combinePlain (m yb : Nat) (s : State) : State :=
  forUpTo (4 ^ m) (fun j => combine .ymem (yb + 2 * j) (4 ^ m) (m + 1) j) s

/-- `REC(4^n, n, yb, xb, s)` (R150). `n = 1` is the base case `N = 4`; `n = 0` is never called. -/
def recPlain : Nat → Nat → Nat → Nat → State → State
  | 0, _, _, _, s => s
  | 1, yb, xb, st, s => bfly4 yb xb st s
  | m + 2, yb, xb, st, s =>
    combinePlain (m + 1) yb
      (forUpTo 4 (fun j => recPlain (m + 1) (yb + 2 * 4 ^ (m + 1) * j) (xb + 2 * st * j) (4 * st)) s)

/-- One tile of a buffered frame of size `4^(m+1)`: BUFLD, the `LS` COMBINEs on BUF, BUFST (R155, R157). -/
def combineTile (m yb t : Nat) (s : State) : State :=
  bufst yb (4 ^ m) t
    (forUpTo s.cfg.ls (fun e => combine .buf (2 * e) s.cfg.ls (m + 1) (t * s.cfg.ls + e)) (bufld yb (4 ^ m) t s))

/-- The combine phase of a buffered frame of size `4^(m+1)`, tile by tile (R155). `Q/LS` is exact for a legal threshold
(R9); where LS does not divide `Q` it is rounded down (DESIGN CHOICE, log 25). -/
def combineTiled (m yb : Nat) (s : State) : State :=
  forUpTo (4 ^ m / s.cfg.ls) (fun t => combineTile m yb t) s

/-- `RECT(4^n, n, yb, xb, s, th)` (R155): plain when `N <= th`, else the same divide phase and a buffered combine
phase. A legal `th` is at least 4, so `n = 0` is never called. -/
def recTiled (th : Nat) : Nat → Nat → Nat → Nat → State → State
  | 0, _, _, _, s => s
  | m + 1, yb, xb, st, s =>
    if 4 ^ (m + 1) ≤ th then recPlain (m + 1) yb xb st s
    else
      combineTiled m yb
        (forUpTo 4 (fun j => recTiled th m (yb + 2 * 4 ^ m * j) (xb + 2 * st * j) (4 * st)) s)

/-- The meaning of `XFORM` (R151): the checks in the order of R185, then REC and `ERR <- 0`, one transition (R169). -/
def execXform (s : State) : Host.Outcome State Fault Refusal :=
  if !s.sizeOk then .next (s.raise .invalidSize)
  else if !s.tableOk then .next (s.raise .uninitializedTable)
  else .next ((recPlain (log4 s.sizeArg.toNat) 0 0 1 s).finish .ok)

/-- The meaning of `XFORM_T` (R161): the checks in the order of R185, then RECT and `ERR <- 0`, one transition
(R169). -/
def execXformT (s : State) : Host.Outcome State Fault Refusal :=
  if !s.sizeOk then .next (s.raise .invalidSize)
  else if !s.thresholdOk then .next (s.raise .invalidSize)
  else if !s.tableOk then .next (s.raise .uninitializedTable)
  else .next ((recTiled s.thresholdArg.toNat (log4 s.sizeArg.toNat) 0 0 1 s).finish .ok)

/-- `[f(v) : v = 0 .. n-1]` and `concat` of such lists (R160). -/
def listUpTo : Nat → (Nat → List Instr) → List Instr
  | 0, _ => []
  | n + 1, f => listUpTo n f ++ f n

/-- The trace `T(4^n, n, yb, xb, s)` of R160. -/
def tracePlain : Nat → Nat → Nat → Nat → List Instr
  | 0, _, _, _ => []
  | 1, yb, xb, st => [.bfly4 yb xb st]
  | m + 2, yb, xb, st =>
    listUpTo 4 (fun j => tracePlain (m + 1) (yb + 2 * 4 ^ (m + 1) * j) (xb + 2 * st * j) (4 * st))
      ++ listUpTo (4 ^ (m + 1)) (fun j => [.combine .ymem (yb + 2 * j) (4 ^ (m + 1)) (m + 2) j])

/-- The trace `TT(4^n, n, yb, xb, s, th)` of R160, for chunk length `ls` (`Q/LS` as in `combineTiled`, log 25). -/
def traceTiled (ls th : Nat) : Nat → Nat → Nat → Nat → List Instr
  | 0, _, _, _ => []
  | m + 1, yb, xb, st =>
    if 4 ^ (m + 1) ≤ th then tracePlain (m + 1) yb xb st
    else
      listUpTo 4 (fun j => traceTiled ls th m (yb + 2 * 4 ^ m * j) (xb + 2 * st * j) (4 * st))
        ++ listUpTo (4 ^ m / ls) (fun t =>
          [.bufld yb (4 ^ m) t]
            ++ listUpTo ls (fun e => [.combine .buf (2 * e) ls (m + 1) (t * ls + e)])
            ++ [.bufst yb (4 ^ m) t])

/-- The trace of a host command written in state `s` (R160): empty for INIT_TW and for every command that fails. -/
def commandTrace (i : Instr) (s : State) : List Instr :=
  match i with
  | .xform => if s.sizeOk && s.tableOk then tracePlain (log4 s.sizeArg.toNat) 0 0 1 else []
  | .xformT =>
    if s.sizeOk && s.thresholdOk && s.tableOk then
      traceTiled s.cfg.ls s.thresholdArg.toNat (log4 s.sizeArg.toNat) 0 0 1
    else []
  | .initTw => []
  | .bfly4 _ _ _ => []
  | .cmul _ _ _ _ => []
  | .combine _ _ _ _ _ => []
  | .bufld _ _ _ => []
  | .bufst _ _ _ => []
  | .twrd _ _ => []

end Sys2Proof.Machine
end

