-- ==== Sys2Proof/Machine/Twiddle.lean ====
section
/-! DEFINITION. The table micro-operation TWRD (R117) and the command INIT_TW (R118). -/

namespace Sys2Proof.Machine

/-- The meaning of `TWRD(d, o)` (R117): the word goes to the return port (log 10), or `IndexOutOfRangeError`
(log 11). -/
def execTwrd (d o : Nat) (s : State) : Host.Outcome State Fault Refusal :=
  if s.tableIndexOk d o then .next { s with tw := s.romWord d o }
  else .next (s.raise .indexOutOfRange)

/-- The meaning of `INIT_TW` (R118): `TWN <- N` (the same 32 bits, N being positive), or `InvalidSizeError` with TWN
kept. -/
def execInitTw (s : State) : Host.Outcome State Fault Refusal :=
  if s.sizeOk then .next (State.finish { s with twn := s.argN } .ok)
  else .next (s.raise .invalidSize)

end Sys2Proof.Machine
end

