-- ==== Sys2Proof/Machine/Dispatch.lean ====
section
/-! DEFINITION. One arm per operation of spec/opcode_table.json. -/

namespace Sys2Proof.Machine

def exec (i : Instr) (s : State) : Host.Outcome State Fault Refusal :=
  match i with
  -- commands (R73)
  | .initTw => Sys2Proof.Machine.execInitTw s
  | .xform => Sys2Proof.Machine.execXform s
  | .xformT => Sys2Proof.Machine.execXformT s
  -- micro-operations (R77)
  | .bfly4 yb xb st => Sys2Proof.Machine.execBfly4 yb xb st s
  | .cmul ar ai br bi => Sys2Proof.Machine.execCmul ar ai br bi s
  | .combine m base st n j => Sys2Proof.Machine.execCombine m base st n j s
  | .bufld yb q t => Sys2Proof.Machine.execBufld yb q t s
  | .bufst yb q t => Sys2Proof.Machine.execBufst yb q t s
  | .twrd d o => Sys2Proof.Machine.execTwrd d o s

end Sys2Proof.Machine
end

