-- ==== Sys2Proof/Machine/HostPort.lean ====
section
/-! DEFINITION. What an event does (R29, R63, R70, R200, R208, R209): register and window accesses, reset, and which
operation, if any, the event starts. -/

namespace Sys2Proof.Machine

/-- What an accepted event amounts to. -/
inductive Action where
  /-- An operation runs in this state. -/
  | run (i : Instr) (s : State)
  /-- The event is over and this is the state. -/
  | settled (s : State)
  /-- The event names no operation. -/
  | refuse (r : Refusal)
  deriving DecidableEq, Repr

/-- A host register write outside CMD (R29): ARG_N and ARG_TH store the word as it is (R30, R31); STATUS, TWN, CFG and
the reserved offsets ignore it (R28, R32, R33, R29). -/
def writeRegister (off : Nat) (w : Word32) (s : State) : State :=
  if off = 0x04 then { s with argN := w }
  else if off = 0x08 then { s with argTh := w }
  else s

/-- What a host register read returns (R29): CMD and the reserved offsets read 0. -/
def readRegister (off : Nat) (s : State) : Word32 :=
  if off = 0x04 then s.argN
  else if off = 0x08 then s.argTh
  else if off = 0x0C then s.status.word
  else if off = 0x10 then s.twn
  else if off = 0x14 then cfgWord s.cfg
  else 0

/-- A host read returned `r`. -/
def State.reply (s : State) (r : Reply) : State := { s with replies := r :: s.replies }

/-- The F-words of a window (R40, R61). -/
def windowWords (c : Cfg) : Window → Nat
  | .xmem => c.sampleWords
  | .ymem => c.sampleWords
  | .twrom => romWords c

/-- A host write to a word of a window (R63); the ROM window ignores it (R62, R208). -/
def writeWindow (win : Window) (a : Nat) (v : FWord) (s : State) : State :=
  match win with
  | .xmem => s.writeX a v
  | .ymem => s.writeY a v
  | .twrom => s

/-- What a host read of a window's word returns (R63); the ROM whatever TWN holds (R117). -/
def readWindow (win : Window) (a : Nat) (s : State) : FWord :=
  match win with
  | .xmem => s.readX a
  | .ymem => s.readY a
  | .twrom => s.romLinear a

/-- A register read made while a command executes (R209): STATUS returns BUSY 1, DONE 0 and an unspecified ERR, any
other register an unspecified value (free values, log 15). -/
def busyReadRegister (off : Nat) (s : State) : State :=
  let free := Config.busyRead s.draws
  let w : Word32 := if off = 0x0C then 1 ||| ((free.setWidth 4).setWidth 32 <<< 4) else free.setWidth 32
  (s.reply (.word w)).draw 1

/-- A window read made while a command executes returns an unspecified value (R209; log 15). -/
def busyReadWindow (s : State) : State := (s.reply (.fword (Config.busyRead s.draws))).draw 1

/-- Reset is delivered (R200, R201): the state after reset, of the same machine, with new power-on words; the model's
own event list, replies and draw number go on (log 16). -/
def State.resetNow (s : State) : State :=
  { State.resetOf s.cfg s.twrom with
    draws := s.draws
    epoch := s.epoch + 1
    events := s.events
    replies := s.replies }

/-- A word written to CMD while idle (R70): the command it encodes runs; any other word raises
IllegalCommandError (R74, R184). -/
def writeCommand (w : Word32) (s : State) : Action :=
  match decodeCommand w with
  | .ok i => .run i s
  | .error _ => .settled (s.raise .illegalCommand)

/-- What event `ev` does in state `s`. An access that the platform bridge refuses (an offset that is no whole register,
R29, or outside a window, R61) has no effect (U11; log 17). While a command executes, writes are ignored and reads
return what R209 says. -/
def accept (ev : Event) (s : State) : Action :=
  match ev with
  | .writeReg off w =>
    if s.status.busy then .settled s
    else if off = 0x00 then writeCommand w s
    else .settled (writeRegister off w s)
  | .readReg off =>
    if off % 4 ≠ 0 then .settled s
    else if s.status.busy then .settled (busyReadRegister off s)
    else .settled (s.reply (.word (readRegister off s)))
  | .writeMem win a v =>
    if s.status.busy then .settled s
    else if a < windowWords s.cfg win then .settled (writeWindow win a v s)
    else .settled s
  | .readMem win a =>
    if windowWords s.cfg win ≤ a then .settled s
    else if s.status.busy then .settled (busyReadWindow s)
    else .settled (s.reply (.fword (readWindow win a s)))
  | .issue record =>
    match decodeRecord record with
    | .ok (i, _) => .run i s
    | .error e => .refuse (.notARecord e)
  | .reset => .settled s.resetNow

/-- The event that makes an encoded operation run: a write of a command word to CMD (R70), or a stand-alone issue of a
record (log 9). -/
def eventOf : Wire → Event
  | .command w => .writeReg 0x00 w
  | .record bs => .issue bs

/-- `s` idle, with `ev` the next event. -/
def State.withEvent (s : State) (ev : Event) : State :=
  { s with
    status := { s.status with busy := false }
    frames := []
    events := ev :: s.events }

end Sys2Proof.Machine
end

