-- ==== Sys2Proof/Machine/Sequencer.lean ====
section
/-! DEFINITION. The sequencer's frame stack (R38, R39): the recursion of the Driver one move at a time. A host command
is one atomic transition (R169), so no run from reset finds a frame on the stack; these moves say what the machine does
in a state that has one, and R169 says they end where the command ends (log 14). -/

namespace Sys2Proof.Machine

/-- The child frame of branch `j` (R39, R150, R155). A command's frames have size `4^n`; for any other `N/4` is rounded down
and `n - 1` stops at 0 (DESIGN CHOICE, log 25). -/
def childFrame (f : Frame) : Frame :=
  { f with
    size := f.size / 4
    n := f.n - 1
    yb := f.yb + 2 * (f.size / 4) * f.j
    xb := f.xb + 2 * f.st * f.j
    st := 4 * f.st
    phase := .divide
    j := 0
    t := 0
    e := 0 }

/-- The top frame pops: its parent's branch counter goes up (R39). When the root pops, the command ends with
`ERR <- 0` (R70 step 5). -/
def popFrame (rest : List Frame) (s : State) : State :=
  match rest with
  | [] => State.finish { s with frames := [] } .ok
  | g :: gs => { s with frames := { g with j := g.j + 1 } :: gs }

/-- A frame that divides pushes the child of branch `j`, or goes on to its combine phase at `j = 4` (R39). -/
def tickDivide (f : Frame) (rest : List Frame) (s : State) : State :=
  if f.j < 4 then { s with frames := childFrame f :: f :: rest }
  else { s with frames := { f with phase := .combine, j := 0 } :: rest }

/-- One move of a plain frame (R39): a leaf issues its BFLY4 and pops; a combining frame issues COMBINE for group `j`,
and pops when `j` reaches `N/4`. -/
def tickPlain (f : Frame) (rest : List Frame) (s : State) : State :=
  if f.size = 4 then popFrame rest (bfly4 f.yb f.xb f.st s)
  else
    match f.phase with
    | .divide => tickDivide f rest s
    | .combine =>
      if f.j < f.size / 4 then
        { combine .ymem (f.yb + 2 * f.j) (f.size / 4) f.n f.j s with frames := { f with j := f.j + 1 } :: rest }
      else popFrame rest s

/-- One move of a tiled frame (R39): with `N <= th` it is a plain frame from then on; a combining frame issues, for tile
`t`, BUFLD (`e = 0`), the COMBINE of element `e - 1` (`e = 1 .. LS`), BUFST (`e = LS + 1`). -/
def tickTiled (f : Frame) (rest : List Frame) (s : State) : State :=
  if f.size ≤ f.th then { s with frames := { f with variant := .plain } :: rest }
  else
    match f.phase with
    | .divide => tickDivide f rest s
    | .combine =>
      if f.t < f.size / 4 / s.cfg.ls then
        if f.e = 0 then
          { bufld f.yb (f.size / 4) f.t s with frames := { f with e := 1 } :: rest }
        else if f.e ≤ s.cfg.ls then
          { combine .buf (2 * (f.e - 1)) s.cfg.ls f.n (f.t * s.cfg.ls + (f.e - 1)) s with
            frames := { f with e := f.e + 1 } :: rest }
        else
          { bufst f.yb (f.size / 4) f.t s with frames := { f with t := f.t + 1, e := 0 } :: rest }
      else popFrame rest s

/-- One move of the sequencer; an empty stack has none (R38, R194). -/
def tick (s : State) : State :=
  match s.frames with
  | [] => s
  | f :: rest =>
    match f.variant with
    | .plain => tickPlain f rest s
    | .tiled => tickTiled f rest s

/-- `k` moves of the sequencer. -/
def ticks : Nat → State → State
  | 0, s => s
  | k + 1, s => ticks k (tick s)

/-- The root frame of XFORM (R151) or XFORM_T (R161). -/
def rootFrame (variant : Variant) (n th : Nat) : Frame where
  variant := variant
  size := 4 ^ n
  n := n
  yb := 0
  xb := 0
  st := 1
  th := th
  phase := .divide
  j := 0
  t := 0
  e := 0

/-- A command that passed its checks has started (R70 step 1: BUSY 1, DONE 0) and its root frame is pushed. -/
def started (f : Frame) (s : State) : State :=
  { s with status := { s.status with busy := true, done := false }, frames := [f] }

end Sys2Proof.Machine
end

