-- ==== Sys2Proof/Machine/Step.lean ====
section
/-! DEFINITION. One step: the next event if there is one, else one move of the sequencer (none when it is idle). -/

namespace Sys2Proof.Machine

/-- One step (log 8). With no event pending and no frame on the stack nothing happens (R194, R200). -/
def step (s : State) : Host.Outcome State Fault Refusal :=
  match s.events with
  | [] => .next (tick s)
  | ev :: rest =>
    match accept ev { s with events := rest } with
    | .run i s' => exec i s'
    | .settled s' => .next s'
    | .refuse r => .refused r

/-- `s` with the operation of a table word next: it is written to CMD, or issued as a record, by the very next step
(log 8). R4FFT fetches nothing from memory (R60), so this sets the pending event and an idle sequencer. -/
def State.withFetchWord (s : State) (nbits w : Nat) : State := s.withEvent (eventOf (tableWire nbits w))

end Sys2Proof.Machine
end

