-- ==== Sys2Proof/Machine/Dataflow.lean ====
section
/-! DEFINITION. The recursion of R150 as a function on values, over any numerics record and any table (40_numerics.md:
"every rule of files 41 to 44 is written over the record"). The claims about the real instance (R99, R126, R143, R171) are
about this function over the reals, and the machine computes it over binary64. -/

namespace Sys2Proof.Machine

/-- Word `a` of the eight. -/
def Oct.word {F : Type} (x : Oct F) : Nat → F
  | 0 => x.w0
  | 1 => x.w1
  | 2 => x.w2
  | 3 => x.w3
  | 4 => x.w4
  | 5 => x.w5
  | 6 => x.w6
  | _ => x.w7

/-- What the `2*4^n` output words of `REC(4^n, n, yb, xb, s)` hold, by flat offset from `yb`, when the input words are
`x` (R150, R143). With `n = 0` the one sample itself. Every operation is given draw number 0. -/
def recValues {F : Type} (ops : Numerics F) (table : Nat → Nat → F) (x : Nat → F) :
    Nat → Nat → Nat → Nat → F
  | 0, xb, _, a => x (xb + a)
  | 1, xb, st, a => (core4 ops 0 (gather x xb st)).word a
  | m + 2, xb, st, a =>
    let q := 4 ^ (m + 1)
    let k := a / 2 % q
    let sub := fun j => recValues ops table x (m + 1) (xb + 2 * st * j) (4 * st)
    let samples : Oct F :=
      ⟨sub 0 (2 * k), sub 0 (2 * k + 1), sub 1 (2 * k), sub 1 (2 * k + 1),
       sub 2 (2 * k), sub 2 (2 * k + 1), sub 3 (2 * k), sub 3 (2 * k + 1)⟩
    (combineValues ops 0 samples (gatherTable (table m) k)).word (2 * (a / 2 / q) + a % 2)

end Sys2Proof.Machine
end

