-- ==== Sys2Proof/RealInstance.lean ====
section
/-! DEFINITION. The real instance of the numerics record (R99): `F` the reals, the operations exact, the table holding
the exact cosines and sines. It is used in statements only, never by the machine. -/

namespace Sys2Proof

/-- Exact addition, subtraction and multiplication (R99). -/
noncomputable def realNumerics : Machine.Numerics ℝ :=
  ⟨fun _ a b => a + b, fun _ a b => a - b, fun _ a b => a * b⟩

/-- The exact table word at offset `o = 8*k + 2*i + c` of level index `d` (R111, R99). -/
noncomputable def realTable (d o : Nat) : ℝ :=
  if o % 2 = 0 then Real.cos (2 * Real.pi * ((o % 8 / 2 * (o / 8) : Nat) : ℝ) / 4 ^ (d + 2))
  else Real.sin (2 * Real.pi * ((o % 8 / 2 * (o / 8) : Nat) : ℝ) / 4 ^ (d + 2))

end Sys2Proof
end

