-- ==== Sys2Proof/Safety.lean ====
section
/-! DEFINITION. The terms in which claims about R4FFT are stated: the invariant of the state, what an operation may not
touch, when a stand-alone micro-operation is in range, equality of words up to NaN patterns (R96), and the
composition of a trace (R160). -/

namespace Sys2Proof.Machine

/-- `TWN` is 0 or a power of 4 from 4 to `N_MAX` (R28). -/
def State.twnLegal (s : State) : Bool :=
  decide (s.twn.toNat = 0) || (P4 s.twn.toNat && decide (s.twn.toNat ≤ s.cfg.nMax))

/-- The invariant of a state between commands: parameters in range and a ROM that obeys the laws of R113 (R7, U15),
memories canonical and inside their sizes (R40), TWN legal (R28), idle with an empty frame stack (R38, R169). -/
structure State.Inv (s : State) : Prop where
  configured : Configured s.cfg s.twrom
  xmemWf : s.xmem.wf = true
  ymemWf : s.ymem.wf = true
  bufWf : s.buf.wf = true
  xmemBelow : s.xmem.below s.cfg.sampleWords = true
  ymemBelow : s.ymem.below s.cfg.sampleWords = true
  bufBelow : s.buf.below s.cfg.bufWords = true
  twnLegal : s.twnLegal = true
  idle : s.status.busy = false
  noFrames : s.frames = []

/-- `t` differs from `s` at most in YMEM, BUF, the temporaries `t0..t7`, `p0..p7` and the draw number. -/
def State.SameControl (s t : State) : Prop :=
  t = { s with ymem := t.ymem, buf := t.buf, t := t.t, p := t.p, draws := t.draws }

/-- The two words are equal, or both are NaNs (R96, R170). -/
def sameWord (a b : FWord) : Prop := a = b ∨ (isNaN a = true ∧ isNaN b = true)

/-- The micro-operation passes its own checks, or names only words that exist (R117, R140, R127, R158, R159). A
command has its own checks. -/
def microOk (s : State) : Instr → Bool
  | .bfly4 yb xb st => s.leafSourceOk xb st && s.leafTargetOk yb
  | .combine m base st n j => s.combineOk m base st n j
  | .bufld yb q t => s.tileOk yb q t
  | .bufst yb q t => s.tileOk yb q t
  | .twrd d o => s.tableIndexOk d o
  | .cmul _ _ _ _ => true
  | .initTw => true
  | .xform => true
  | .xformT => true

/-- The operations of a trace, one after another, stopping where one does (R160). -/
def runTrace : List Instr → State → Host.Outcome State Fault Refusal
  | [], s => .next s
  | i :: is, s =>
    match exec i s with
    | .next s' => runTrace is s'
    | .fault r => .fault r
    | .refused r => .refused r

/-- How many operations of the trace satisfy `sel`. -/
def countOps (sel : Instr → Bool) (tr : List Instr) : Nat := (tr.filter sel).length

/-- A BFLY4. -/
def isBfly4 : Instr → Bool
  | .bfly4 _ _ _ => true
  | .initTw => false
  | .xform => false
  | .xformT => false
  | .cmul _ _ _ _ => false
  | .combine _ _ _ _ _ => false
  | .bufld _ _ _ => false
  | .bufst _ _ _ => false
  | .twrd _ _ => false

/-- A COMBINE. -/
def isCombine : Instr → Bool
  | .combine _ _ _ _ _ => true
  | .bfly4 _ _ _ => false
  | .initTw => false
  | .xform => false
  | .xformT => false
  | .cmul _ _ _ _ => false
  | .bufld _ _ _ => false
  | .bufst _ _ _ => false
  | .twrd _ _ => false

/-- A host command (R70). -/
def isCommand : Instr → Bool
  | .initTw => true
  | .xform => true
  | .xformT => true
  | .bfly4 _ _ _ => false
  | .cmul _ _ _ _ => false
  | .combine _ _ _ _ _ => false
  | .bufld _ _ _ => false
  | .bufst _ _ _ => false
  | .twrd _ _ => false

end Sys2Proof.Machine
end

