-- ==== Sys2Proof/Certificates/Slice0/Obligations.lean ====
section
/-! DEFINITION. The statements about R4FFT for the provers. Each cites the rules of spec/ it formalises. A statement
about a free value (a power-on word, a NaN pattern, a read while busy) holds for every value of it. -/

open Sys2Proof Sys2Proof.Machine

/-! ### Encoding (R71 to R77) -/

/-- Every well-formed operation is read back from its encoding, every operand at every value its field admits, whatever
follows a record (R73, R77; the byte layout of a record is the model's, log 7). -/
def Obligations.DecodeOfEncode : Prop :=
  (∀ i : Instr, i.wellFormed = true → decode (encode i) = .ok (i, [])) ∧
  (∀ (i : Instr) (bs rest : List Byte), i.wellFormed = true → encode i = .record bs →
    decodeRecord (bs ++ rest) = .ok (i, rest))

/-- R73: a word is a command exactly when bits 31:8 are 0 and bits 7:0 are its OPC. R74: every other word is illegal. -/
def Obligations.CommandDecoder : Prop :=
  (∀ (w : Word32) (i : Instr), decodeCommand w = .ok i ↔
    w.extractLsb' 8 24 = 0#24 ∧ (w.extractLsb' 0 8 = 0x01#8 ∧ i = .initTw ∨
      w.extractLsb' 0 8 = 0x02#8 ∧ i = .xform ∨ w.extractLsb' 0 8 = 0x03#8 ∧ i = .xformT)) ∧
  (∀ w : Word32, w ≠ 0x00000001#32 → w ≠ 0x00000002#32 → w ≠ 0x00000003#32 →
    decodeCommand w = .error (.illegalCommand w))

/-- The model's choice (log 23, in the byte layout of log 7): the kinds 0x0 and 0x7..0xF, of which the spec says only that
they are unused and never produced (R77, U9), are rejected by name. -/
def Obligations.UnusedKindsRejected : Prop :=
  ∀ (b : Byte) (rest : List Byte), b.toNat = 0 ∨ (7 ≤ b.toNat ∧ b.toNat ≤ 15) →
    decodeRecord (b :: rest) = .error (.unusedKind b.toNat)

/-- Words written out from R73 and R77 decode to what they stand for (one per family; record operands in the model's
layout, log 7). -/
def Obligations.SpecWordsDecode : Prop :=
  decode (.command 0x00000001#32) = .ok (.initTw, []) ∧
  decode (.command 0x00000003#32) = .ok (.xformT, []) ∧
  decode (.record [0x01#8, 0x08#8, 0#8, 0#8, 0#8, 0x02#8, 0#8, 0#8, 0#8, 0x04#8, 0#8, 0#8, 0#8]) =
    .ok (.bfly4 8 2 4, []) ∧
  decode (.record [0x03#8, 0x01#8, 0x02#8, 0#8, 0#8, 0#8, 0x02#8, 0#8, 0#8, 0#8, 0x02#8, 0#8, 0#8, 0#8,
    0x03#8, 0#8, 0#8, 0#8]) = .ok (.combine .buf 2 2 2 3, []) ∧
  decode (.record [0x06#8, 0#8, 0#8, 0#8, 0#8, 0x14#8, 0#8, 0#8, 0#8]) = .ok (.twrd 0 20, [])

/-! ### The step -/

/-- The step runs the decoded operation: a command word written to CMD while idle (R70), or an issued record (log 9),
is executed on the state with the event taken off. Nothing is fetched from memory (R60). -/
def Obligations.StepRunsDecoded : Prop :=
  (∀ (s : State) (w : Word32) (i : Instr) (rest : List Event), s.events = .writeReg 0x00 w :: rest →
    s.status.busy = false → decodeCommand w = .ok i → step s = exec i { s with events := rest }) ∧
  (∀ (s : State) (bs tail : List Byte) (i : Instr) (rest : List Event), s.events = .issue bs :: rest →
    decodeRecord bs = .ok (i, tail) → step s = exec i { s with events := rest })

/-- Every well-formed operation, encoded and made the next event, is what the very next step executes, on the idle
state (log 8). -/
def Obligations.EncodedOperationRuns : Prop :=
  ∀ (s : State) (i : Instr), i.wellFormed = true →
    step (s.withEvent (eventOf (encode i))) =
      exec i { s with status := { s.status with busy := false }, frames := [] }

/-- R74, R184, R186: a word that is no command ends with code 4 and changes STATUS only; the arguments are not
examined. -/
def Obligations.IllegalCommandRaises : Prop :=
  ∀ (s : State) (w : Word32) (rest : List Event), s.events = .writeReg 0x00 w :: rest → s.status.busy = false →
    w ≠ 0x00000001#32 → w ≠ 0x00000002#32 → w ≠ 0x00000003#32 →
    step s = .next { s with events := rest, status := ⟨false, true, .illegalCommand⟩ }

/-- R194, R200: idle with nothing pending, the machine does nothing. -/
def Obligations.IdleStepChangesNothing : Prop :=
  ∀ s : State, s.events = [] → s.frames = [] → step s = .next s

/-! ### Reset -/

/-- R42: after reset ARG_N, ARG_TH, TWN and STATUS are 0, the frame stack is empty and no command executes, at
`State.reset` and at the reset of every configuration and every ROM. -/
def Obligations.ResetRegisters : Prop :=
  ∀ s : State, (s = State.reset ∨ ∃ (c : Cfg) (rom : Mem), s = State.resetOf c rom) →
    s.argN = 0 ∧ s.argTh = 0 ∧ s.twn = 0 ∧ s.status.word = 0 ∧
    s.status.busy = false ∧ s.status.done = false ∧ s.status.err = .ok ∧ s.frames = []

/-- R200, R201, R43, R44: a reset delivered in any state, also while a command executes, leaves the registers of R42,
the constants as they were, and memories whose words are unwritten (free power-on values, log 16). -/
def Obligations.ResetEventResets : Prop :=
  ∀ (s : State) (rest : List Event), s.events = .reset :: rest →
    ∃ t, step s = .next t ∧ t.argN = 0 ∧ t.argTh = 0 ∧ t.twn = 0 ∧ t.status = ⟨false, false, .ok⟩ ∧ t.frames = [] ∧
      t.cfg = s.cfg ∧ (∀ d o, t.romWord d o = s.romWord d o) ∧
      (∀ a, t.readX a = Config.powerOnX (s.epoch + 1) a) ∧ (∀ a, t.readY a = Config.powerOnY (s.epoch + 1) a) ∧
      (∀ a, t.readB a = Config.powerOnB (s.epoch + 1) a)

/-- The invariant holds after reset, at `State.reset` and for every machine R7 admits: every configuration in range and
every ROM under the laws of R113. -/
def Obligations.ResetMeetsInvariant : Prop :=
  State.reset.Inv ∧ ∀ (c : Cfg) (rom : Mem), Configured c rom → (State.resetOf c rom).Inv

/-- Every step keeps the invariant: parameters in range and the ROM under the laws of R113 (R7, U15), memories canonical
and inside their sizes (R40), TWN 0 or a power of 4 up to `N_MAX` (R28), idle with an empty frame stack between commands
(R38, R169). -/
def Obligations.StepKeepsInvariant : Prop :=
  ∀ s t : State, s.Inv → step s = .next t → t.Inv

/-! ### What no operation does -/

/-- R21, R27, R30, R31, R62: no operation writes XMEM, the ROM, ARG_N or ARG_TH, nor the constants, nor the pending
events and the host's replies; only stand-alone CMUL and TWRD write the return ports. -/
def Obligations.ExecSparesInputs : Prop :=
  ∀ (i : Instr) (s t : State), exec i s = .next t →
    t.xmem = s.xmem ∧ t.twrom = s.twrom ∧ t.argN = s.argN ∧ t.argTh = s.argTh ∧ t.cfg = s.cfg ∧
    t.frames = s.frames ∧ t.epoch = s.epoch ∧ t.events = s.events ∧ t.replies = s.replies ∧
    ((∀ ar ai br bi, i ≠ .cmul ar ai br bi) → t.cr = s.cr ∧ t.ci = s.ci) ∧
    ((∀ d o, i ≠ .twrd d o) → t.tw = s.tw)

/-- R28, R120: TWN changes only by a successful INIT_TW, to its N, or by a reset. -/
def Obligations.TwnChangedOnlyByInitTwOrReset : Prop :=
  ∀ s t : State, step s = .next t → t.twn ≠ s.twn →
    (∃ rest, s.events = .reset :: rest) ∨
    (∃ rest, s.events = .writeReg 0x00 0x00000001#32 :: rest ∧ s.sizeOk = true ∧ t.twn = s.argN)

/-- R182, C6: no host command ends with `IndexOutOfRangeError`, nor in a fault or a refusal. -/
def Obligations.CommandsNeverEndInCodeTwo : Prop :=
  ∀ (i : Instr) (s : State), isCommand i = true →
    ∃ t, exec i s = .next t ∧ t.status.busy = false ∧ t.status.done = true ∧ t.status.err ≠ .indexOutOfRange

/-! ### Numerics (R91 to R98) -/

/-- R91: `round` of the real `r` of sign `neg` and magnitude `m / 2^k` units of `2^-1074` is the binary64 value nearest to
`r`, ties to the even fraction, subnormals included, and the infinity of `r`'s sign from `2^1024 - 2^970` on. -/
def Obligations.RoundIsNearestEven : Prop :=
  ∀ (neg : Bool) (m k : Nat) (w : FWord), w = packSign neg (roundMag m k) →
    ((2 ^ 1024 - 2 ^ 970) * 2 ^ 1074 * 2 ^ k ≤ m → isInf w = true ∧ signBit w = neg) ∧
    (m < (2 ^ 1024 - 2 ^ 970) * 2 ^ 1074 * 2 ^ k →
      isFinite w = true ∧ signBit w = neg ∧
      ∀ v : FWord, isFinite v = true → signBit v = neg →
        |(magnitude w * 2 ^ k : Int) - m| ≤ |(magnitude v * 2 ^ k : Int) - m| ∧
        (v ≠ w → |(magnitude w * 2 ^ k : Int) - m| = |(magnitude v * 2 ^ k : Int) - m| → fracField w % 2 = 0))

/-- R92: the cases of `fadd`, with `round` as `roundMag` (R91), and its commutativity. -/
def Obligations.FaddCases : Prop :=
  ∀ (k : Nat) (a b : FWord),
    (isNaN a = true ∨ isNaN b = true → isNaN (fadd k a b) = true) ∧
    (isInf a = true → isInf b = true → signBit a ≠ signBit b → isNaN (fadd k a b) = true) ∧
    (isInf a = true → isInf b = true → signBit a = signBit b → fadd k a b = a ∧ fadd k a b = b) ∧
    (isInf a = true → isFinite b = true → fadd k a b = a) ∧
    (isFinite a = true → isInf b = true → fadd k a b = b) ∧
    (isZero a = true → isZero b = true →
      fadd k a b = if a = minusZero ∧ b = minusZero then minusZero else plusZero) ∧
    (isFinite a = true → isFinite b = true → value a + value b ≠ 0 →
      fadd k a b = packSign (decide (value a + value b < 0)) (roundMag (value a + value b).natAbs 0)) ∧
    (isFinite a = true → isFinite b = true → ¬ (isZero a = true ∧ isZero b = true) → value a + value b = 0 →
      fadd k a b = plusZero) ∧
    (isNaN (fadd k a b) = false → fadd k a b = fadd k b a)

/-- R93: `fsub` is `fadd` of the negated operand, and the signs of zero results. -/
def Obligations.FsubCases : Prop :=
  ∀ (k : Nat) (a b : FWord),
    fsub k a b = fadd k a (b ^^^ 0x8000000000000000#64) ∧
    (isInf a = true → isInf b = true → signBit a = signBit b → isNaN (fsub k a b) = true) ∧
    (isFinite a = true → fsub k a a = plusZero) ∧
    fsub k plusZero minusZero = plusZero ∧
    fsub k minusZero plusZero = minusZero

/-- R94: the cases of `fmul`, its commutativity, and multiplication by `1.0` and `+0`. -/
def Obligations.FmulCases : Prop :=
  ∀ (k : Nat) (a b : FWord),
    (isNaN a = true ∨ isNaN b = true → isNaN (fmul k a b) = true) ∧
    (isZero a = true → isInf b = true → isNaN (fmul k a b) = true) ∧
    (isInf a = true → isZero b = true → isNaN (fmul k a b) = true) ∧
    (isInf a = true ∨ isInf b = true → isNaN a = false → isNaN b = false → isZero a = false → isZero b = false →
      fmul k a b = packSign (signBit a != signBit b) infMag) ∧
    (isZero a = true ∨ isZero b = true → isFinite a = true → isFinite b = true →
      fmul k a b = packSign (signBit a != signBit b) 0) ∧
    (isFinite a = true → isFinite b = true → isZero a = false → isZero b = false →
      fmul k a b = packSign (signBit a != signBit b) (roundMag (magnitude a * magnitude b) 1074)) ∧
    (isNaN (fmul k a b) = false → fmul k a b = fmul k b a) ∧
    (isNaN a = false → fmul k a oneWord = a) ∧
    (isFinite a = true → fmul k a plusZero = if signBit a = true then minusZero else plusZero)

/-- R98: a result that is representable in binary64 is produced exactly (a nonzero one, word for word). -/
def Obligations.RepresentableIsExact : Prop :=
  ∀ (k : Nat) (a b w : FWord), isFinite a = true → isFinite b = true → isFinite w = true → value w ≠ 0 →
    (value a + value b = value w → fadd k a b = w) ∧
    (value a - value b = value w → fsub k a b = w) ∧
    (value a * value b = value w * 2 ^ 1074 → fmul k a b = w)

/-- R101: `P4` on a signed argument: the fifteen powers of 4, and bitwise. -/
def Obligations.P4OfArguments : Prop :=
  (∀ w : Word32, P4 w.toInt = true ↔
    w.toInt ∈ [4, 16, 64, 256, 1024, 4096, 16384, 65536, 262144, 1048576, 4194304, 16777216, 67108864, 268435456,
      1073741824]) ∧
  (∀ w : Word32, P4 w.toInt = true ↔
    0 < w.toInt ∧ ∃ i < 32, i % 2 = 0 ∧ 2 ≤ i ∧ ∀ b < 32, w.getLsbD b = decide (b = i))

/-! ### Registers and host accesses -/

/-- R32: the bits of STATUS. -/
def Obligations.StatusWordBits : Prop :=
  ∀ r : StatusReg, r.word.getLsbD 0 = r.busy ∧ r.word.getLsbD 1 = r.done ∧ r.word.extractLsb' 2 2 = 0#2 ∧
    r.word.extractLsb' 4 4 = (match r.err with
      | .ok => 0#4
      | .invalidSize => 1#4
      | .indexOutOfRange => 2#4
      | .uninitializedTable => 3#4
      | .illegalCommand => 4#4) ∧
    r.word.extractLsb' 8 24 = 0#24

/-- R33: the bits an idle host reads from CFG; a write to it is ignored, and no operation changes what it reads. -/
def Obligations.CfgWordBits : Prop :=
  ∀ (s : State) (rest : List Event), s.cfg.valid = true → s.status.busy = false →
    (s.events = .readReg 0x14 :: rest → ∃ w : Word32,
      step s = .next { s with events := rest, replies := .word w :: s.replies } ∧
      (w.extractLsb' 0 8).toNat = s.cfg.ls ∧ (w.extractLsb' 8 8).toNat = s.cfg.log4NMax ∧
      w.extractLsb' 16 16 = 0#16) ∧
    (∀ v, s.events = .writeReg 0x14 v :: rest → step s = .next { s with events := rest }) ∧
    (∀ i t, exec i s = .next t → t.cfg = s.cfg)

/-- R29: what an idle host reads at each register offset; reads change nothing but the model's reply list. -/
def Obligations.RegisterReads : Prop :=
  ∀ (s : State) (off : Nat) (rest : List Event), s.events = .readReg off :: rest → s.status.busy = false →
    (off = 0x00 ∨ off % 4 = 0 ∧ 0x18 ≤ off → step s = .next { s with events := rest, replies := .word 0 :: s.replies }) ∧
    (off = 0x04 → step s = .next { s with events := rest, replies := .word s.argN :: s.replies }) ∧
    (off = 0x08 → step s = .next { s with events := rest, replies := .word s.argTh :: s.replies }) ∧
    (off = 0x0C → step s = .next { s with events := rest, replies := .word s.status.word :: s.replies }) ∧
    (off = 0x10 → step s = .next { s with events := rest, replies := .word s.twn :: s.replies }) ∧
    (off = 0x14 → step s = .next { s with events := rest, replies := .word (cfgWord s.cfg) :: s.replies })

/-- R29, R30, R31, R28, R32: an idle host's write stores every pattern in ARG_N and ARG_TH and is ignored elsewhere
outside CMD. -/
def Obligations.RegisterWrites : Prop :=
  ∀ (s : State) (off : Nat) (w : Word32) (rest : List Event), s.events = .writeReg off w :: rest →
    s.status.busy = false →
    (off = 0x04 → step s = .next { s with events := rest, argN := w }) ∧
    (off = 0x08 → step s = .next { s with events := rest, argTh := w }) ∧
    (off ≠ 0x00 → off ≠ 0x04 → off ≠ 0x08 → step s = .next { s with events := rest })

/-- R63, R53: an idle host's write to a word of XMEM or YMEM is what its next read of that word returns, and leaves every
other word; R61: outside the window nothing happens. -/
def Obligations.WindowWriteThenRead : Prop :=
  ∀ (s : State) (a : Nat) (v : FWord) (rest : List Event), s.status.busy = false →
    (a < 2 * s.cfg.nMax → s.events = .writeMem .xmem a v :: .readMem .xmem a :: rest →
      ∃ t u, step s = .next t ∧ step t = .next u ∧ u.replies = .fword v :: s.replies ∧
        u = { s with events := rest, xmem := u.xmem, replies := u.replies } ∧
        ∀ b, b ≠ a → u.readX b = s.readX b) ∧
    (a < 2 * s.cfg.nMax → s.events = .writeMem .ymem a v :: .readMem .ymem a :: rest →
      ∃ t u, step s = .next t ∧ step t = .next u ∧ u.replies = .fword v :: s.replies ∧
        u = { s with events := rest, ymem := u.ymem, replies := u.replies } ∧
        ∀ b, b ≠ a → u.readY b = s.readY b) ∧
    (2 * s.cfg.nMax ≤ a → s.events = .writeMem .xmem a v :: rest ∨ s.events = .writeMem .ymem a v :: rest →
      step s = .next { s with events := rest })

/-- R63, R115, R117, R62: the host's read of the ROM window at `LB(d) + o` returns `TW(d, o)` whatever TWN holds, and its
write there is ignored. -/
def Obligations.RomWindow : Prop :=
  ∀ (s : State) (d o : Nat) (v : FWord) (rest : List Event), s.status.busy = false → s.cfg.log4NMax ≤ 15 →
    d + 2 ≤ s.cfg.log4NMax → o < 2 * 4 ^ (d + 2) →
    (s.events = .readMem .twrom (levelBase d + o) :: rest →
      step s = .next { s with events := rest, replies := .fword (s.romWord d o) :: s.replies }) ∧
    (s.events = .writeMem .twrom (levelBase d + o) v :: rest → step s = .next { s with events := rest })

/-- R209: while a command executes, a write to CMD, ARG_N, ARG_TH, XMEM or YMEM is ignored; a read of STATUS returns
BUSY 1, DONE 0; no read has an effect on the machine (the draw number and the replies are the model's own). -/
def Obligations.BusyAccess : Prop :=
  ∀ (s : State) (rest : List Event), s.status.busy = true →
    (∀ off w, s.events = .writeReg off w :: rest → step s = .next { s with events := rest }) ∧
    (∀ win a v, s.events = .writeMem win a v :: rest → step s = .next { s with events := rest }) ∧
    (s.events = .readReg 0x0C :: rest →
      ∃ w : Word32, step s =
        .next { s with events := rest, replies := .word w :: s.replies, draws := s.draws + 1 } ∧
        w.getLsbD 0 = true ∧ w.getLsbD 1 = false) ∧
    (∀ off t, s.events = .readReg off :: rest → step s = .next t →
      t = { s with events := rest, replies := t.replies, draws := t.draws }) ∧
    (∀ win a t, s.events = .readMem win a :: rest → step s = .next t →
      t = { s with events := rest, replies := t.replies, draws := t.draws })

/-! ### Butterfly -/

/-- R125: the sixteen operations of CORE4, each rounded once, numbered for their draws. -/
def Obligations.Core4Formulas : Prop :=
  ∀ (k : Nat) (x0r x0i x1r x1i x2r x2i x3r x3i : FWord),
    ∃ t0 t1 t2 t3 t4 t5 t6 t7 : FWord,
      t0 = fadd k x0r x2r ∧ t1 = fadd (k + 1) x1r x3r ∧ t2 = fadd (k + 2) x0i x2i ∧ t3 = fadd (k + 3) x1i x3i ∧
      t4 = fsub (k + 4) x0r x2r ∧ t5 = fsub (k + 5) x1i x3i ∧ t6 = fsub (k + 6) x0i x2i ∧
      t7 = fsub (k + 7) x1r x3r ∧
      core4 binary64 k ⟨x0r, x0i, x1r, x1i, x2r, x2i, x3r, x3i⟩ =
        ⟨fadd (k + 8) t0 t1, fadd (k + 9) t2 t3, fsub (k + 12) t4 t5, fadd (k + 13) t6 t7,
         fsub (k + 10) t0 t1, fsub (k + 11) t2 t3, fadd (k + 14) t4 t5, fsub (k + 15) t6 t7⟩

/-- R126: over the real instance CORE4 is the 4-point DFT with the positive exponent. -/
def Obligations.Core4IsPositiveDft : Prop :=
  ∀ (k : Nat) (x : Oct ℝ) (q : Nat), q < 4 →
    (⟨(core4 realNumerics k x).word (2 * q), (core4 realNumerics k x).word (2 * q + 1)⟩ : ℂ) =
      ∑ m ∈ Finset.range 4, (⟨x.word (2 * m), x.word (2 * m + 1)⟩ : ℂ) * Complex.I ^ (m * q)

/-- R127: BFLY4 completes whenever its words exist: result word `c` of CORE4 of the strided XMEM samples at `YMEM[yb + c]`
(natural order, R130), every other YMEM word and all other state as before but the temporaries. R127's operands have
`s >= 1`; that stride 0 runs as the pseudocode reads too is the model's choice (log 13). -/
def Obligations.Bfly4Result : Prop :=
  ∀ (s : State) (yb xb st : Nat), xb + 6 * st + 1 < 2 * s.cfg.nMax → yb + 7 < 2 * s.cfg.nMax →
    ∃ t, exec (.bfly4 yb xb st) s = .next t ∧
      (∀ c < 8, t.readY (yb + c) = (core4 binary64 s.draws
        ⟨s.readX xb, s.readX (xb + 1), s.readX (xb + 2 * st), s.readX (xb + 2 * st + 1),
         s.readX (xb + 4 * st), s.readX (xb + 4 * st + 1), s.readX (xb + 6 * st), s.readX (xb + 6 * st + 1)⟩).word c) ∧
      (∀ a, a < yb ∨ yb + 8 ≤ a → t.readY a = s.readY a) ∧
      t.t = coreSums binary64 s.draws (gather s.readX xb st) ∧
      t = { s with ymem := t.ymem, t := t.t, draws := s.draws + 16 }

/-- The model's choice (log 12): a stand-alone BFLY4, BUFLD or BUFST that names a word that does not exist (R40) stops by
name. The spec leaves it out: "the Driver only issues it" in range (R127, R158, R159). -/
def Obligations.AbsentWordsFault : Prop :=
  ∀ (s : State) (yb xb st q t : Nat),
    (2 * s.cfg.nMax ≤ xb + 6 * st + 1 → exec (.bfly4 yb xb st) s = .fault .noXmemWord) ∧
    (xb + 6 * st + 1 < 2 * s.cfg.nMax → 2 * s.cfg.nMax ≤ yb + 7 → exec (.bfly4 yb xb st) s = .fault .noYmemWord) ∧
    (2 * s.cfg.nMax < yb + 2 * (q * 3 + t * s.cfg.ls + s.cfg.ls) →
      exec (.bufld yb q t) s = .fault .noYmemWord ∧ exec (.bufst yb q t) s = .fault .noYmemWord)

/-! ### Combine -/

/-- R135, R95: CMUL completes in every state with six rounded operations, and changes nothing but the model's return
ports and draw number (log 10). -/
def Obligations.CmulResult : Prop :=
  ∀ (s : State) (ar ai br bi : FWord),
    exec (.cmul ar ai br bi) s = .next { s with
      cr := fsub (s.draws + 2) (fmul s.draws ar br) (fmul (s.draws + 1) ai bi)
      ci := fadd (s.draws + 5) (fmul (s.draws + 3) ar bi) (fmul (s.draws + 4) ai br)
      draws := s.draws + 6 }

/-- R139, R141: COMBINE completes whenever the four checks of R140 hold, for either memory: result `q` of CORE4 of the
four products (samples and coefficients all read from the state before) where sample `q` was; every other word of both
memories and all other state as before but the temporaries. R139's `base` is even; that an odd one runs as the pseudocode
reads too is the model's choice (log 13), and so is what happens with a TWN that R28 never stores (logs 20, 25). -/
def Obligations.CombineResult : Prop :=
  ∀ (s : State) (m : DataMem) (base st n j : Nat), 1 ≤ st → 2 ≤ n → s.twn.toNat ≠ 0 → n ≤ log4 s.twn.toNat →
    j < 4 ^ (n - 1) →
    base + 6 * st + 1 < (match m with | .ymem => 2 * s.cfg.nMax | .buf => 8 * s.cfg.ls) →
    ∃ t, exec (.combine m base st n j) s = .next t ∧
      (∀ q < 4, ∀ c < 2, t.readD m (base + 2 * q * st + c) =
        (core4 binary64 (s.draws + 24) (products binary64 s.draws
          ⟨s.readD m base, s.readD m (base + 1), s.readD m (base + 2 * st), s.readD m (base + 2 * st + 1),
           s.readD m (base + 4 * st), s.readD m (base + 4 * st + 1),
           s.readD m (base + 6 * st), s.readD m (base + 6 * st + 1)⟩
          ⟨s.romWord (n - 2) (8 * j), s.romWord (n - 2) (8 * j + 1), s.romWord (n - 2) (8 * j + 2),
           s.romWord (n - 2) (8 * j + 3), s.romWord (n - 2) (8 * j + 4), s.romWord (n - 2) (8 * j + 5),
           s.romWord (n - 2) (8 * j + 6), s.romWord (n - 2) (8 * j + 7)⟩)).word (2 * q + c)) ∧
      (∀ a, (∀ q < 4, ∀ c < 2, a ≠ base + 2 * q * st + c) → t.readD m a = s.readD m a) ∧
      (m = .ymem → t.buf = s.buf) ∧ (m = .buf → t.ymem = s.ymem) ∧
      t = { s with ymem := t.ymem, buf := t.buf, t := t.t, p := t.p, draws := s.draws + 40 }

/-- R140, R182: when a check of COMBINE fails, `IndexOutOfRangeError` and nothing written but STATUS (log 11). That the checks
decide for operands R139 excludes too (stride 0, an odd base) is the model's choice (log 13), and so is `log4` of a TWN that
is no power of 4 (log 25). -/
def Obligations.CombineBounds : Prop :=
  ∀ (s : State) (m : DataMem) (base st n j : Nat),
    n < 2 ∨ s.twn.toNat = 0 ∨ log4 s.twn.toNat < n ∨ 4 ^ (n - 1) ≤ j ∨
      (match m with | .ymem => 2 * s.cfg.nMax | .buf => 8 * s.cfg.ls) ≤ base + 6 * st + 1 →
    exec (.combine m base st n j) s = .next { s with status := ⟨false, true, .indexOutOfRange⟩ }

/-- The model's choice (log 13): stride 0, which R139's operands exclude, runs as the pseudocode reads: the last result
stays. A TWN that R28 never stores is as logs 20 and 25 have it. -/
def Obligations.CombineStrideZero : Prop :=
  ∀ (s : State) (m : DataMem) (base n j : Nat), 2 ≤ n → s.twn.toNat ≠ 0 → n ≤ log4 s.twn.toNat → j < 4 ^ (n - 1) →
    base + 1 < (match m with | .ymem => 2 * s.cfg.nMax | .buf => 8 * s.cfg.ls) →
    ∃ t y, exec (.combine m base 0 n j) s = .next t ∧
      y = combineValues binary64 s.draws (gather (s.readD m) base 0) (gatherTable (s.romWord (n - 2)) j) ∧
      t.readD m base = y.w6 ∧ t.readD m (base + 1) = y.w7 ∧
      (∀ a, a ≠ base → a ≠ base + 1 → t.readD m a = s.readD m a)

/-- R142: the COMBINEs of two different groups of one frame commute, word for word up to NaN patterns (R96). R139's
`base` is even; odd bases are covered as log 13 has them. -/
def Obligations.GroupsCommute : Prop :=
  ∀ (s : State) (n yb k k' : Nat), 2 ≤ n → k < 4 ^ (n - 1) → k' < 4 ^ (n - 1) → k ≠ k' → ∀ a,
    sameWord
      ((combine .ymem (yb + 2 * k') (4 ^ (n - 1)) n k' (combine .ymem (yb + 2 * k) (4 ^ (n - 1)) n k s)).readY a)
      ((combine .ymem (yb + 2 * k) (4 ^ (n - 1)) n k (combine .ymem (yb + 2 * k') (4 ^ (n - 1)) n k' s)).readY a)

/-! ### Twiddle table -/

/-- R117: TWRD returns `TW(d, o)` (to the model's return port, log 10) or raises `IndexOutOfRangeError` exactly when
`TWN = 0`, `d > log4(TWN) - 2` or `o >= 2*4^(d+2)`; nothing else changes. That the check decides also with a TWN that is no
power of 4, or above `N_MAX`, which R28 never stores, is the model's choice (logs 25, 20). -/
def Obligations.TwrdResult : Prop :=
  ∀ (s : State) (d o : Nat),
    (s.twn.toNat = 0 ∨ (log4 s.twn.toNat : Int) - 2 < d ∨ 2 * 4 ^ (d + 2) ≤ o →
      exec (.twrd d o) s = .next { s with status := ⟨false, true, .indexOutOfRange⟩ }) ∧
    (s.twn.toNat ≠ 0 → (d : Int) ≤ (log4 s.twn.toNat : Int) - 2 → o < 2 * 4 ^ (d + 2) →
      exec (.twrd d o) s = .next { s with tw := s.romWord d o })

/-- R118: INIT_TW with a power of 4 up to `N_MAX` sets TWN to it; with any other N it raises `InvalidSizeError` and keeps
TWN; nothing but TWN and STATUS changes. -/
def Obligations.InitTwResult : Prop :=
  ∀ s : State,
    (P4 s.argN.toInt = true → s.argN.toInt ≤ 4 ^ s.cfg.log4NMax →
      exec .initTw s = .next { s with twn := s.argN, status := ⟨false, true, .ok⟩ } ∧
      (s.argN.toNat : Int) = s.argN.toInt) ∧
    (P4 s.argN.toInt = false ∨ (4 : Int) ^ s.cfg.log4NMax < s.argN.toInt →
      exec .initTw s = .next { s with status := ⟨false, true, .invalidSize⟩ })

/-- R115, R114: the levels' blocks lie one after another, each of `2 * 4^(d+2)` words, from address 0; the table for size
`4^n` holds the sum of its levels; word `o` of level index `d` is ROM word `LB(d) + o`. -/
def Obligations.RomBlocks : Prop :=
  (∀ d, 3 * levelBase d = 32 * (4 ^ d - 1) ∧ levelBase (d + 1) = levelBase d + 2 * 4 ^ (d + 2)) ∧
  levelBase 0 = 0 ∧ levelBase 1 = 32 ∧ levelBase 2 = 160 ∧ levelBase 3 = 672 ∧ levelBase 4 = 2720 ∧
  (∀ n, 1 ≤ n → levelBase (n - 1) = ∑ l ∈ Finset.Icc 1 (n - 1), 2 * 4 ^ (l + 1)) ∧
  (∀ c : Cfg, romWords c = levelBase (c.log4NMax - 1)) ∧
  ∀ (s : State) (d o : Nat), d ≤ 13 → o < 2 * 4 ^ (d + 2) → s.romLinear (levelBase d + o) = s.romWord d o

/-- R113, R7 P4, U15: the default ROM obeys the laws L2 and L3 at every level; no step changes a ROM word (L1); the exact
entries are the only ones whose angle is a multiple of `pi/2`; and in every state of a machine R7 admits, whatever its ROM
instance, an enabled table word (R117) lies in a level the ROM holds, is finite and in `[-1.0, 1.0]`, and the coefficients
of group 0 are `(1.0, +0)`. -/
def Obligations.RomObeysLaws : Prop :=
  (∀ levels, RomLaws levels romDefault) ∧
  (∀ s t : State, step s = .next t → ∀ d o, t.romWord d o = s.romWord d o) ∧
  (∀ d k i, k < 4 ^ (d + 1) → i < 4 →
    (4 ^ (d + 1) ∣ i * k ↔ i = 0 ∨ k = 0 ∨ (i = 2 ∧ k = 2 * 4 ^ d))) ∧
  ∀ s : State, s.Inv → ∀ d o, s.tableIndexOk d o = true →
    d < romLevels s.cfg ∧ isFinite (s.romWord d o) = true ∧ magnitude (s.romWord d o) ≤ magnitude oneWord ∧
    gatherTable (s.romWord d) 0 =
      ⟨oneWord, plusZero, oneWord, plusZero, oneWord, plusZero, oneWord, plusZero⟩

/-- R116: in the default ROM, and in the exact table, level `d` is every fourth group of level `d + 1`. -/
def Obligations.DefaultRomNesting : Prop :=
  ∀ d k i c, k < 4 ^ (d + 1) → i < 4 → c < 2 →
    romDefault d (8 * k + 2 * i + c) = romDefault (d + 1) (8 * (4 * k) + 2 * i + c) ∧
    realTable d (8 * k + 2 * i + c) = realTable (d + 1) (8 * (4 * k) + 2 * i + c)

/-- R112, for every word whose enclosure decides it at the first precision (log 6): the default ROM word is a nearest
binary64 value of the exact cosine or sine of the exact angle. -/
def Obligations.DefaultRomCorrectlyRounded : Prop :=
  ∀ d k i, k < 4 ^ (d + 1) → i < 4 →
    let b := enclose romPrecision (2 * (d + 1)) (i * k % 4 ^ (d + 1))
    let angle : ℝ := 2 * Real.pi * ((i * k : Nat) : ℝ) / 4 ^ (d + 2)
    decided romPrecision b.cLo b.cHi = true → decided romPrecision b.sLo b.sHi = true →
      (isFinite (romCos d k i) = true ∧ ∀ v, isFinite v = true →
        |(value (romCos d k i) : ℝ) / 2 ^ 1074 - Real.cos angle| ≤ |(value v : ℝ) / 2 ^ 1074 - Real.cos angle|) ∧
      (isFinite (romSin d k i) = true ∧ ∀ v, isFinite v = true →
        |(value (romSin d k i) : ℝ) / 2 ^ 1074 - Real.sin angle| ≤ |(value v : ℝ) / 2 ^ 1074 - Real.sin angle|)

/-! ### Buffer moves -/

/-- R158, R156: BUFLD completes whenever the tile's words exist, moves the four chunks bit for bit, writes no other BUF word
and changes nothing else. R158's operands are `yb` even, `Q >= LS` and `t < Q/LS`; that all others which name existing words
run as the pseudocode reads is the model's choice (log 13). -/
def Obligations.BufldResult : Prop :=
  ∀ (s : State) (yb q t : Nat), yb + 2 * (q * 3 + t * s.cfg.ls + s.cfg.ls) ≤ 2 * s.cfg.nMax →
    ∃ u, exec (.bufld yb q t) s = .next u ∧
      (∀ i < 4, ∀ e < s.cfg.ls, ∀ c < 2,
        u.readB (2 * (i * s.cfg.ls + e) + c) = s.readY (yb + 2 * (q * i + t * s.cfg.ls + e) + c)) ∧
      (∀ b, 8 * s.cfg.ls ≤ b → u.readB b = s.readB b) ∧
      u = { s with buf := u.buf }

/-- R159, R156: BUFST completes whenever the tile's words exist, with `Q >= LS` moves BUF back to the four chunks bit for
bit, writes no other YMEM word and changes nothing else. The operands of R158 and R159 are `yb` even, `Q >= LS` and
`t < Q/LS`; that all others which name existing words complete with the same frame is the model's choice (log 13). -/
def Obligations.BufstResult : Prop :=
  ∀ (s : State) (yb q t : Nat), yb + 2 * (q * 3 + t * s.cfg.ls + s.cfg.ls) ≤ 2 * s.cfg.nMax →
    ∃ u, exec (.bufst yb q t) s = .next u ∧
      (s.cfg.ls ≤ q → ∀ i < 4, ∀ e < s.cfg.ls, ∀ c < 2,
        u.readY (yb + 2 * (q * i + t * s.cfg.ls + e) + c) = s.readB (2 * (i * s.cfg.ls + e) + c)) ∧
      (∀ a, (∀ i < 4, ∀ e < s.cfg.ls, ∀ c < 2, a ≠ yb + 2 * (q * i + t * s.cfg.ls + e) + c) →
        u.readY a = s.readY a) ∧
      u = { s with ymem := u.ymem }

/-! ### Transforms -/

/-- R151, R181, R183, R185, R186: when XFORM fails, the code is decided by the size first and the table second, and nothing
but STATUS changes. -/
def Obligations.XformErrors : Prop :=
  ∀ s : State,
    (P4 s.argN.toInt = false ∨ (4 : Int) ^ s.cfg.log4NMax < s.argN.toInt →
      exec .xform s = .next { s with status := ⟨false, true, .invalidSize⟩ }) ∧
    (P4 s.argN.toInt = true → s.argN.toInt ≤ 4 ^ s.cfg.log4NMax → (s.twn.toNat : Int) ≠ s.argN.toInt →
      exec .xform s = .next { s with status := ⟨false, true, .uninitializedTable⟩ })

/-- R161, R181, R183, R185, R186: when XFORM_T fails, size first, threshold second, table third, and nothing but STATUS
changes. -/
def Obligations.XformTErrors : Prop :=
  ∀ s : State,
    (P4 s.argN.toInt = false ∨ (4 : Int) ^ s.cfg.log4NMax < s.argN.toInt →
      exec .xformT s = .next { s with status := ⟨false, true, .invalidSize⟩ }) ∧
    (P4 s.argN.toInt = true → s.argN.toInt ≤ 4 ^ s.cfg.log4NMax →
      P4 s.argTh.toInt = false ∨ s.argTh.toInt < s.cfg.ls →
      exec .xformT s = .next { s with status := ⟨false, true, .invalidSize⟩ }) ∧
    (P4 s.argN.toInt = true → s.argN.toInt ≤ 4 ^ s.cfg.log4NMax → P4 s.argTh.toInt = true →
      (s.cfg.ls : Int) ≤ s.argTh.toInt → (s.twn.toNat : Int) ≠ s.argN.toInt →
      exec .xformT s = .next { s with status := ⟨false, true, .uninitializedTable⟩ })

/-- R151, R150, R166, R210: an accepted XFORM of size `N = 4^n` completes with code 0; YMEM words `0 .. 2N-1` hold the
values of the recursion on the XMEM words and the ROM, up to NaN patterns; YMEM words from `2N` on, BUF and all other state
are as before but the temporaries. -/
def Obligations.XformComputes : Prop :=
  ∀ (s : State) (n : Nat), 1 ≤ n → n ≤ s.cfg.log4NMax → s.argN.toInt = 4 ^ n → s.twn.toNat = 4 ^ n →
    ∃ t, exec .xform s = .next t ∧ t.status = ⟨false, true, .ok⟩ ∧
      (∀ a < 2 * 4 ^ n, sameWord (t.readY a) (recValues binary64 s.romWord s.readX n 0 1 a)) ∧
      (∀ a, 2 * 4 ^ n ≤ a → t.readY a = s.readY a) ∧
      t = { s with ymem := t.ymem, t := t.t, p := t.p, draws := t.draws, status := t.status }

/-- R161, R155, R166, R181: an accepted XFORM_T completes with code 0 and leaves the same values; BUF may change. -/
def Obligations.XformTComputes : Prop :=
  ∀ (s : State) (n k : Nat), s.cfg.valid = true → 1 ≤ n → n ≤ s.cfg.log4NMax → s.argN.toInt = 4 ^ n →
    s.twn.toNat = 4 ^ n → 1 ≤ k → s.argTh.toInt = 4 ^ k → s.cfg.ls ≤ 4 ^ k →
    ∃ t, exec .xformT s = .next t ∧ t.status = ⟨false, true, .ok⟩ ∧
      (∀ a < 2 * 4 ^ n, sameWord (t.readY a) (recValues binary64 s.romWord s.readX n 0 1 a)) ∧
      (∀ a, 2 * 4 ^ n ≤ a → t.readY a = s.readY a) ∧
      (n ≤ k → t.buf = s.buf) ∧
      t = { s with ymem := t.ymem, buf := t.buf, t := t.t, p := t.p, draws := t.draws, status := t.status }

/-- R22, R166: a transform of size `4^n` writes every YMEM word `0 .. 2N-1`. -/
def Obligations.TransformsOverwriteTheirRange : Prop :=
  ∀ (s : State) (n : Nat), 1 ≤ n →
    (∀ a < 2 * 4 ^ n, ((recPlain n 0 0 1 s).ymem.get a).isSome = true) ∧
    (∀ th, 4 ≤ th → (∀ m, th < 4 ^ (m + 1) → s.cfg.ls ∣ 4 ^ m) →
      ∀ a < 2 * 4 ^ n, ((recTiled th n 0 0 1 s).ymem.get a).isSome = true)

/-- R170: XFORM_T and XFORM, started from the same XMEM, ROM, ARG_N and TWN, leave the same YMEM words `0 .. 2N-1` up to
NaN patterns, whatever the thresholds and chunk lengths. -/
def Obligations.TiledEqualsPlain : Prop :=
  ∀ (s s' : State) (n k : Nat), s.cfg.valid = true → 1 ≤ n → n ≤ s.cfg.log4NMax → n ≤ s'.cfg.log4NMax →
    s.argN.toInt = 4 ^ n → s.twn.toNat = 4 ^ n → 1 ≤ k → s.argTh.toInt = 4 ^ k → s.cfg.ls ≤ 4 ^ k →
    s'.argN = s.argN → s'.twn = s.twn → s'.xmem = s.xmem → s'.epoch = s.epoch → s'.twrom = s.twrom →
    ∃ t t', exec .xformT s = .next t ∧ exec .xform s' = .next t' ∧
      ∀ a < 2 * 4 ^ n, sameWord (t.readY a) (t'.readY a)

/-- R160, R169: an accepted command's effect is the composition of the effects of its trace's micro-operations, each as its
own meaning has it, and then the end of the command. With an LS that R7 excludes the number of tiles is the model's choice
(log 25). -/
def Obligations.CommandsComposeTheirTrace : Prop :=
  ∀ s : State, s.sizeOk = true → s.tableOk = true →
    (∃ u, runTrace (commandTrace .xform s) s = .next u ∧ exec .xform s = .next (u.finish .ok)) ∧
    (s.thresholdOk = true →
      ∃ u, runTrace (commandTrace .xformT s) s = .next u ∧ exec .xformT s = .next (u.finish .ok))

/-- R167: no index of a command's trace is out of range: every COMBINE passes R140, every table word it reads passes R117,
every BFLY4, BUFLD and BUFST names words that exist; and no command ends with code 2. With an LS that R7 excludes the number
of tiles is the model's choice (log 25). -/
def Obligations.NoIndexOutOfRange : Prop :=
  ∀ (s : State) (c : Instr), isCommand c = true →
    (∀ i ∈ commandTrace c s, microOk s i = true) ∧
    (∀ m base st n j, Instr.combine m base st n j ∈ commandTrace c s →
      ∀ i < 4, ∀ b < 2, s.tableIndexOk (n - 2) (8 * j + 2 * i + b) = true) ∧
    (∀ t, exec c s = .next t → t.status.err ≠ .indexOutOfRange)

/-- R174: the counts of the plain trace of size `4^n`, and of the tiled trace's BFLY4 and COMBINE. -/
def Obligations.TraceCounts : Prop :=
  ∀ n, 1 ≤ n →
    (∀ yb xb st, countOps isBfly4 (tracePlain n yb xb st) = 4 ^ (n - 1) ∧
      countOps isCombine (tracePlain n yb xb st) = (n - 1) * 4 ^ (n - 1) ∧
      (tracePlain n yb xb st).length = n * 4 ^ (n - 1)) ∧
    (∀ ls th yb xb st, 4 ≤ th → (∀ m, th < 4 ^ (m + 1) → ls ∣ 4 ^ m) →
      countOps isBfly4 (traceTiled ls th n yb xb st) = 4 ^ (n - 1) ∧
      countOps isCombine (traceTiled ls th n yb xb st) = (n - 1) * 4 ^ (n - 1))

/-- R176: with `N = 4` the trace of XFORM and of XFORM_T is the single `BFLY4(0, 0, 1)`, and BUF is not touched. -/
def Obligations.SizeFourIsOneButterfly : Prop :=
  ∀ s : State, s.argN.toInt = 4 → s.twn.toNat = 4 → 1 ≤ s.cfg.log4NMax →
    commandTrace .xform s = [.bfly4 0 0 1] ∧ exec .xform s = .next ((bfly4 0 0 1 s).finish .ok) ∧
    (bfly4 0 0 1 s).buf = s.buf ∧
    (s.thresholdOk = true →
      commandTrace .xformT s = [.bfly4 0 0 1] ∧ exec .xformT s = .next ((bfly4 0 0 1 s).finish .ok))

/-- R165: branches `j` and `j'` of a frame write disjoint quarters, so their order leaves every YMEM word the same up to
NaN patterns. Frames whose bases are odd or whose stride is 0, which the Driver never makes, are covered as log 13 has
them. -/
def Obligations.BranchesCommute : Prop :=
  ∀ (s : State) (m yb xb st j j' : Nat), 1 ≤ m → j < 4 → j' < 4 → j ≠ j' →
    let branch := fun i u => recPlain m (yb + 2 * 4 ^ m * i) (xb + 2 * st * i) (4 * st) u
    (∀ a, a < yb + 2 * 4 ^ m * j ∨ yb + 2 * 4 ^ m * (j + 1) ≤ a → (branch j s).readY a = s.readY a) ∧
    (∀ a, sameWord ((branch j' (branch j s)).readY a) ((branch j (branch j' s)).readY a))

/-- R166: the output of REC and of RECT depends on no XMEM word but `xb + 2*s*m + c`, `m < N`, and on no YMEM or BUF word
the call found. Frames whose bases are odd or whose stride is 0, which the Driver never makes, are covered as log 13 has
them. -/
def Obligations.RecursionReadsOnlyItsInput : Prop :=
  ∀ (s s' : State) (n yb xb st : Nat), 1 ≤ n →
    (∀ m < 4 ^ n, ∀ c < 2, s.readX (xb + 2 * st * m + c) = s'.readX (xb + 2 * st * m + c)) →
    (∀ d o, s.romWord d o = s'.romWord d o) →
    (∀ a < 2 * 4 ^ n, sameWord ((recPlain n yb xb st s).readY (yb + a)) ((recPlain n yb xb st s').readY (yb + a))) ∧
    (∀ th, 4 ≤ th → (∀ m, th < 4 ^ (m + 1) → s.cfg.ls ∣ 4 ^ m) →
      ∀ a < 2 * 4 ^ n,
        sameWord ((recTiled th n yb xb st s).readY (yb + a)) ((recPlain n yb xb st s').readY (yb + a)))

/-- R169, R39, R168: performing the command one move of the frame stack at a time ends, with an empty stack, in exactly the
state of the atomic command. With an LS that does not divide `Q` the number of tiles is the model's choice (log 25). -/
def Obligations.SmallStepsEndInTheCommand : Prop :=
  ∀ (s : State) (n th : Nat), 1 ≤ n → s.frames = [] →
    (∃ k, ticks k (started (rootFrame .plain n 0) s) = (recPlain n 0 0 1 s).finish .ok) ∧
    (4 ≤ th → 1 ≤ s.cfg.ls →
      ∃ k, ticks k (started (rootFrame .tiled n th) s) = (recTiled th n 0 0 1 s).finish .ok)

/-- R168, R38: the frame stack of a command of size `4^n` never holds more than `n` frames. -/
def Obligations.FrameStackDepth : Prop :=
  ∀ (s : State) (variant : Variant) (n th k : Nat), 1 ≤ n → 4 ≤ th →
    (ticks k (started (rootFrame variant n th) s)).frames.length ≤ n

/-- R171, R143, R99: over the real instance the recursion computes the unnormalised DFT with positive exponent, in natural
order. -/
def Obligations.RecursionIsDft : Prop :=
  ∀ (n : Nat) (x : Nat → ℝ) (q : Nat), 1 ≤ n → q < 4 ^ n →
    (⟨recValues realNumerics realTable x n 0 1 (2 * q), recValues realNumerics realTable x n 0 1 (2 * q + 1)⟩ : ℂ) =
      ∑ m ∈ Finset.range (4 ^ n), (⟨x (2 * m), x (2 * m + 1)⟩ : ℂ) *
        Complex.exp (2 * Real.pi * Complex.I * ((m * q : Nat) : ℂ) / (4 ^ n : ℂ))
end

