-- ==== Sys2Proof/Laws/State.lean ====
section
/-! SUPPORT. One lemma per field per update of State, true by unfolding, so that no later proof unfolds a record update. -/

namespace Sys2Proof.Machine

variable (s : State)

@[simp] theorem State.writeX_xmem (a : Nat) (v : FWord) : (s.writeX a v).xmem = s.xmem.set a v := rfl
@[simp] theorem State.writeX_ymem (a : Nat) (v : FWord) : (s.writeX a v).ymem = s.ymem := rfl
@[simp] theorem State.writeX_buf (a : Nat) (v : FWord) : (s.writeX a v).buf = s.buf := rfl
@[simp] theorem State.writeX_argN (a : Nat) (v : FWord) : (s.writeX a v).argN = s.argN := rfl
@[simp] theorem State.writeX_argTh (a : Nat) (v : FWord) : (s.writeX a v).argTh = s.argTh := rfl
@[simp] theorem State.writeX_twn (a : Nat) (v : FWord) : (s.writeX a v).twn = s.twn := rfl
@[simp] theorem State.writeX_status (a : Nat) (v : FWord) : (s.writeX a v).status = s.status := rfl
@[simp] theorem State.writeX_t (a : Nat) (v : FWord) : (s.writeX a v).t = s.t := rfl
@[simp] theorem State.writeX_p (a : Nat) (v : FWord) : (s.writeX a v).p = s.p := rfl
@[simp] theorem State.writeX_frames (a : Nat) (v : FWord) : (s.writeX a v).frames = s.frames := rfl
@[simp] theorem State.writeX_cfg (a : Nat) (v : FWord) : (s.writeX a v).cfg = s.cfg := rfl
@[simp] theorem State.writeX_twrom (a : Nat) (v : FWord) : (s.writeX a v).twrom = s.twrom := rfl
@[simp] theorem State.writeX_cr (a : Nat) (v : FWord) : (s.writeX a v).cr = s.cr := rfl
@[simp] theorem State.writeX_ci (a : Nat) (v : FWord) : (s.writeX a v).ci = s.ci := rfl
@[simp] theorem State.writeX_tw (a : Nat) (v : FWord) : (s.writeX a v).tw = s.tw := rfl
@[simp] theorem State.writeX_draws (a : Nat) (v : FWord) : (s.writeX a v).draws = s.draws := rfl
@[simp] theorem State.writeX_epoch (a : Nat) (v : FWord) : (s.writeX a v).epoch = s.epoch := rfl
@[simp] theorem State.writeX_events (a : Nat) (v : FWord) : (s.writeX a v).events = s.events := rfl
@[simp] theorem State.writeX_replies (a : Nat) (v : FWord) : (s.writeX a v).replies = s.replies := rfl

@[simp] theorem State.writeY_xmem (a : Nat) (v : FWord) : (s.writeY a v).xmem = s.xmem := rfl
@[simp] theorem State.writeY_ymem (a : Nat) (v : FWord) : (s.writeY a v).ymem = s.ymem.set a v := rfl
@[simp] theorem State.writeY_buf (a : Nat) (v : FWord) : (s.writeY a v).buf = s.buf := rfl
@[simp] theorem State.writeY_argN (a : Nat) (v : FWord) : (s.writeY a v).argN = s.argN := rfl
@[simp] theorem State.writeY_argTh (a : Nat) (v : FWord) : (s.writeY a v).argTh = s.argTh := rfl
@[simp] theorem State.writeY_twn (a : Nat) (v : FWord) : (s.writeY a v).twn = s.twn := rfl
@[simp] theorem State.writeY_status (a : Nat) (v : FWord) : (s.writeY a v).status = s.status := rfl
@[simp] theorem State.writeY_t (a : Nat) (v : FWord) : (s.writeY a v).t = s.t := rfl
@[simp] theorem State.writeY_p (a : Nat) (v : FWord) : (s.writeY a v).p = s.p := rfl
@[simp] theorem State.writeY_frames (a : Nat) (v : FWord) : (s.writeY a v).frames = s.frames := rfl
@[simp] theorem State.writeY_cfg (a : Nat) (v : FWord) : (s.writeY a v).cfg = s.cfg := rfl
@[simp] theorem State.writeY_twrom (a : Nat) (v : FWord) : (s.writeY a v).twrom = s.twrom := rfl
@[simp] theorem State.writeY_cr (a : Nat) (v : FWord) : (s.writeY a v).cr = s.cr := rfl
@[simp] theorem State.writeY_ci (a : Nat) (v : FWord) : (s.writeY a v).ci = s.ci := rfl
@[simp] theorem State.writeY_tw (a : Nat) (v : FWord) : (s.writeY a v).tw = s.tw := rfl
@[simp] theorem State.writeY_draws (a : Nat) (v : FWord) : (s.writeY a v).draws = s.draws := rfl
@[simp] theorem State.writeY_epoch (a : Nat) (v : FWord) : (s.writeY a v).epoch = s.epoch := rfl
@[simp] theorem State.writeY_events (a : Nat) (v : FWord) : (s.writeY a v).events = s.events := rfl
@[simp] theorem State.writeY_replies (a : Nat) (v : FWord) : (s.writeY a v).replies = s.replies := rfl

@[simp] theorem State.writeB_xmem (a : Nat) (v : FWord) : (s.writeB a v).xmem = s.xmem := rfl
@[simp] theorem State.writeB_ymem (a : Nat) (v : FWord) : (s.writeB a v).ymem = s.ymem := rfl
@[simp] theorem State.writeB_buf (a : Nat) (v : FWord) : (s.writeB a v).buf = s.buf.set a v := rfl
@[simp] theorem State.writeB_argN (a : Nat) (v : FWord) : (s.writeB a v).argN = s.argN := rfl
@[simp] theorem State.writeB_argTh (a : Nat) (v : FWord) : (s.writeB a v).argTh = s.argTh := rfl
@[simp] theorem State.writeB_twn (a : Nat) (v : FWord) : (s.writeB a v).twn = s.twn := rfl
@[simp] theorem State.writeB_status (a : Nat) (v : FWord) : (s.writeB a v).status = s.status := rfl
@[simp] theorem State.writeB_t (a : Nat) (v : FWord) : (s.writeB a v).t = s.t := rfl
@[simp] theorem State.writeB_p (a : Nat) (v : FWord) : (s.writeB a v).p = s.p := rfl
@[simp] theorem State.writeB_frames (a : Nat) (v : FWord) : (s.writeB a v).frames = s.frames := rfl
@[simp] theorem State.writeB_cfg (a : Nat) (v : FWord) : (s.writeB a v).cfg = s.cfg := rfl
@[simp] theorem State.writeB_twrom (a : Nat) (v : FWord) : (s.writeB a v).twrom = s.twrom := rfl
@[simp] theorem State.writeB_cr (a : Nat) (v : FWord) : (s.writeB a v).cr = s.cr := rfl
@[simp] theorem State.writeB_ci (a : Nat) (v : FWord) : (s.writeB a v).ci = s.ci := rfl
@[simp] theorem State.writeB_tw (a : Nat) (v : FWord) : (s.writeB a v).tw = s.tw := rfl
@[simp] theorem State.writeB_draws (a : Nat) (v : FWord) : (s.writeB a v).draws = s.draws := rfl
@[simp] theorem State.writeB_epoch (a : Nat) (v : FWord) : (s.writeB a v).epoch = s.epoch := rfl
@[simp] theorem State.writeB_events (a : Nat) (v : FWord) : (s.writeB a v).events = s.events := rfl
@[simp] theorem State.writeB_replies (a : Nat) (v : FWord) : (s.writeB a v).replies = s.replies := rfl

@[simp] theorem State.finish_xmem (c : ErrCode) : (s.finish c).xmem = s.xmem := rfl
@[simp] theorem State.finish_ymem (c : ErrCode) : (s.finish c).ymem = s.ymem := rfl
@[simp] theorem State.finish_buf (c : ErrCode) : (s.finish c).buf = s.buf := rfl
@[simp] theorem State.finish_argN (c : ErrCode) : (s.finish c).argN = s.argN := rfl
@[simp] theorem State.finish_argTh (c : ErrCode) : (s.finish c).argTh = s.argTh := rfl
@[simp] theorem State.finish_twn (c : ErrCode) : (s.finish c).twn = s.twn := rfl
@[simp] theorem State.finish_status (c : ErrCode) : (s.finish c).status = ⟨false, true, c⟩ := rfl
@[simp] theorem State.finish_t (c : ErrCode) : (s.finish c).t = s.t := rfl
@[simp] theorem State.finish_p (c : ErrCode) : (s.finish c).p = s.p := rfl
@[simp] theorem State.finish_frames (c : ErrCode) : (s.finish c).frames = s.frames := rfl
@[simp] theorem State.finish_cfg (c : ErrCode) : (s.finish c).cfg = s.cfg := rfl
@[simp] theorem State.finish_twrom (c : ErrCode) : (s.finish c).twrom = s.twrom := rfl
@[simp] theorem State.finish_cr (c : ErrCode) : (s.finish c).cr = s.cr := rfl
@[simp] theorem State.finish_ci (c : ErrCode) : (s.finish c).ci = s.ci := rfl
@[simp] theorem State.finish_tw (c : ErrCode) : (s.finish c).tw = s.tw := rfl
@[simp] theorem State.finish_draws (c : ErrCode) : (s.finish c).draws = s.draws := rfl
@[simp] theorem State.finish_epoch (c : ErrCode) : (s.finish c).epoch = s.epoch := rfl
@[simp] theorem State.finish_events (c : ErrCode) : (s.finish c).events = s.events := rfl
@[simp] theorem State.finish_replies (c : ErrCode) : (s.finish c).replies = s.replies := rfl

@[simp] theorem State.raise_xmem (c : ErrCode) : (s.raise c).xmem = s.xmem := rfl
@[simp] theorem State.raise_ymem (c : ErrCode) : (s.raise c).ymem = s.ymem := rfl
@[simp] theorem State.raise_buf (c : ErrCode) : (s.raise c).buf = s.buf := rfl
@[simp] theorem State.raise_argN (c : ErrCode) : (s.raise c).argN = s.argN := rfl
@[simp] theorem State.raise_argTh (c : ErrCode) : (s.raise c).argTh = s.argTh := rfl
@[simp] theorem State.raise_twn (c : ErrCode) : (s.raise c).twn = s.twn := rfl
@[simp] theorem State.raise_status (c : ErrCode) : (s.raise c).status = ⟨false, true, c⟩ := rfl
@[simp] theorem State.raise_t (c : ErrCode) : (s.raise c).t = s.t := rfl
@[simp] theorem State.raise_p (c : ErrCode) : (s.raise c).p = s.p := rfl
@[simp] theorem State.raise_frames (c : ErrCode) : (s.raise c).frames = s.frames := rfl
@[simp] theorem State.raise_cfg (c : ErrCode) : (s.raise c).cfg = s.cfg := rfl
@[simp] theorem State.raise_twrom (c : ErrCode) : (s.raise c).twrom = s.twrom := rfl
@[simp] theorem State.raise_cr (c : ErrCode) : (s.raise c).cr = s.cr := rfl
@[simp] theorem State.raise_ci (c : ErrCode) : (s.raise c).ci = s.ci := rfl
@[simp] theorem State.raise_tw (c : ErrCode) : (s.raise c).tw = s.tw := rfl
@[simp] theorem State.raise_draws (c : ErrCode) : (s.raise c).draws = s.draws := rfl
@[simp] theorem State.raise_epoch (c : ErrCode) : (s.raise c).epoch = s.epoch := rfl
@[simp] theorem State.raise_events (c : ErrCode) : (s.raise c).events = s.events := rfl
@[simp] theorem State.raise_replies (c : ErrCode) : (s.raise c).replies = s.replies := rfl

@[simp] theorem State.draw_xmem (n : Nat) : (s.draw n).xmem = s.xmem := rfl
@[simp] theorem State.draw_ymem (n : Nat) : (s.draw n).ymem = s.ymem := rfl
@[simp] theorem State.draw_buf (n : Nat) : (s.draw n).buf = s.buf := rfl
@[simp] theorem State.draw_argN (n : Nat) : (s.draw n).argN = s.argN := rfl
@[simp] theorem State.draw_argTh (n : Nat) : (s.draw n).argTh = s.argTh := rfl
@[simp] theorem State.draw_twn (n : Nat) : (s.draw n).twn = s.twn := rfl
@[simp] theorem State.draw_status (n : Nat) : (s.draw n).status = s.status := rfl
@[simp] theorem State.draw_t (n : Nat) : (s.draw n).t = s.t := rfl
@[simp] theorem State.draw_p (n : Nat) : (s.draw n).p = s.p := rfl
@[simp] theorem State.draw_frames (n : Nat) : (s.draw n).frames = s.frames := rfl
@[simp] theorem State.draw_cfg (n : Nat) : (s.draw n).cfg = s.cfg := rfl
@[simp] theorem State.draw_twrom (n : Nat) : (s.draw n).twrom = s.twrom := rfl
@[simp] theorem State.draw_cr (n : Nat) : (s.draw n).cr = s.cr := rfl
@[simp] theorem State.draw_ci (n : Nat) : (s.draw n).ci = s.ci := rfl
@[simp] theorem State.draw_tw (n : Nat) : (s.draw n).tw = s.tw := rfl
@[simp] theorem State.draw_draws (n : Nat) : (s.draw n).draws = s.draws + n := rfl
@[simp] theorem State.draw_epoch (n : Nat) : (s.draw n).epoch = s.epoch := rfl
@[simp] theorem State.draw_events (n : Nat) : (s.draw n).events = s.events := rfl
@[simp] theorem State.draw_replies (n : Nat) : (s.draw n).replies = s.replies := rfl

@[simp] theorem State.reply_xmem (r : Reply) : (s.reply r).xmem = s.xmem := rfl
@[simp] theorem State.reply_ymem (r : Reply) : (s.reply r).ymem = s.ymem := rfl
@[simp] theorem State.reply_buf (r : Reply) : (s.reply r).buf = s.buf := rfl
@[simp] theorem State.reply_argN (r : Reply) : (s.reply r).argN = s.argN := rfl
@[simp] theorem State.reply_argTh (r : Reply) : (s.reply r).argTh = s.argTh := rfl
@[simp] theorem State.reply_twn (r : Reply) : (s.reply r).twn = s.twn := rfl
@[simp] theorem State.reply_status (r : Reply) : (s.reply r).status = s.status := rfl
@[simp] theorem State.reply_t (r : Reply) : (s.reply r).t = s.t := rfl
@[simp] theorem State.reply_p (r : Reply) : (s.reply r).p = s.p := rfl
@[simp] theorem State.reply_frames (r : Reply) : (s.reply r).frames = s.frames := rfl
@[simp] theorem State.reply_cfg (r : Reply) : (s.reply r).cfg = s.cfg := rfl
@[simp] theorem State.reply_twrom (r : Reply) : (s.reply r).twrom = s.twrom := rfl
@[simp] theorem State.reply_cr (r : Reply) : (s.reply r).cr = s.cr := rfl
@[simp] theorem State.reply_ci (r : Reply) : (s.reply r).ci = s.ci := rfl
@[simp] theorem State.reply_tw (r : Reply) : (s.reply r).tw = s.tw := rfl
@[simp] theorem State.reply_draws (r : Reply) : (s.reply r).draws = s.draws := rfl
@[simp] theorem State.reply_epoch (r : Reply) : (s.reply r).epoch = s.epoch := rfl
@[simp] theorem State.reply_events (r : Reply) : (s.reply r).events = s.events := rfl
@[simp] theorem State.reply_replies (r : Reply) : (s.reply r).replies = r :: s.replies := rfl

@[simp] theorem State.writeD_xmem (m : DataMem) (a : Nat) (v : FWord) : (s.writeD m a v).xmem = s.xmem := by
  cases m <;> rfl
@[simp] theorem State.writeD_argN (m : DataMem) (a : Nat) (v : FWord) : (s.writeD m a v).argN = s.argN := by
  cases m <;> rfl
@[simp] theorem State.writeD_argTh (m : DataMem) (a : Nat) (v : FWord) : (s.writeD m a v).argTh = s.argTh := by
  cases m <;> rfl
@[simp] theorem State.writeD_twn (m : DataMem) (a : Nat) (v : FWord) : (s.writeD m a v).twn = s.twn := by
  cases m <;> rfl
@[simp] theorem State.writeD_status (m : DataMem) (a : Nat) (v : FWord) : (s.writeD m a v).status = s.status := by
  cases m <;> rfl
@[simp] theorem State.writeD_t (m : DataMem) (a : Nat) (v : FWord) : (s.writeD m a v).t = s.t := by
  cases m <;> rfl
@[simp] theorem State.writeD_p (m : DataMem) (a : Nat) (v : FWord) : (s.writeD m a v).p = s.p := by
  cases m <;> rfl
@[simp] theorem State.writeD_frames (m : DataMem) (a : Nat) (v : FWord) : (s.writeD m a v).frames = s.frames := by
  cases m <;> rfl
@[simp] theorem State.writeD_cfg (m : DataMem) (a : Nat) (v : FWord) : (s.writeD m a v).cfg = s.cfg := by
  cases m <;> rfl
@[simp] theorem State.writeD_twrom (m : DataMem) (a : Nat) (v : FWord) : (s.writeD m a v).twrom = s.twrom := by
  cases m <;> rfl
@[simp] theorem State.writeD_cr (m : DataMem) (a : Nat) (v : FWord) : (s.writeD m a v).cr = s.cr := by
  cases m <;> rfl
@[simp] theorem State.writeD_ci (m : DataMem) (a : Nat) (v : FWord) : (s.writeD m a v).ci = s.ci := by
  cases m <;> rfl
@[simp] theorem State.writeD_tw (m : DataMem) (a : Nat) (v : FWord) : (s.writeD m a v).tw = s.tw := by
  cases m <;> rfl
@[simp] theorem State.writeD_draws (m : DataMem) (a : Nat) (v : FWord) : (s.writeD m a v).draws = s.draws := by
  cases m <;> rfl
@[simp] theorem State.writeD_epoch (m : DataMem) (a : Nat) (v : FWord) : (s.writeD m a v).epoch = s.epoch := by
  cases m <;> rfl
@[simp] theorem State.writeD_events (m : DataMem) (a : Nat) (v : FWord) : (s.writeD m a v).events = s.events := by
  cases m <;> rfl
@[simp] theorem State.writeD_replies (m : DataMem) (a : Nat) (v : FWord) : (s.writeD m a v).replies = s.replies := by
  cases m <;> rfl

@[simp] theorem State.writeD_ymem_of_buf (a : Nat) (v : FWord) : (s.writeD .buf a v).ymem = s.ymem := rfl
@[simp] theorem State.writeD_buf_of_ymem (a : Nat) (v : FWord) : (s.writeD .ymem a v).buf = s.buf := rfl

end Sys2Proof.Machine
end

