-- ==== Sys2Proof/Laws/Mem.lean ====
section
/-! SUPPORT. The memory operations: read after write, and that a write keeps the canonical form and the size. -/

namespace Sys2Proof.Machine

@[simp] theorem Mem.get_set_same (m : Mem) (a : Nat) (v : FWord) : Mem.get (Mem.set m a v) a = some v := by
  induction m with
  | nil => simp [Mem.set, Mem.get]
  | cons c m ih =>
    obtain ⟨b, w⟩ := c
    simp only [Mem.set]
    split
    · simp [Mem.get]
    · split
      · simp [Mem.get]
      · rename_i h; simp [Mem.get, h, ih]

theorem Mem.get_set_other (m : Mem) {a b : Nat} (v : FWord) (h : b ≠ a) :
    Mem.get (Mem.set m a v) b = Mem.get m b := by
  induction m with
  | nil => simp [Mem.set, Mem.get, h]
  | cons c m ih =>
    obtain ⟨x, w⟩ := c
    simp only [Mem.set]
    split
    · simp [Mem.get, h]
    · split
      · rename_i hx; subst hx; simp [Mem.get, h]
      · simp only [Mem.get, ih]

theorem Mem.get_set (m : Mem) (a b : Nat) (v : FWord) :
    Mem.get (Mem.set m a v) b = if b = a then some v else Mem.get m b := by
  split
  · rename_i h; subst h; exact Mem.get_set_same m b v
  · rename_i h; exact Mem.get_set_other m v h

theorem Mem.wfFrom_set (m : Mem) (lo a : Nat) (v : FWord) (hlo : lo ≤ a) (h : Mem.wfFrom lo m = true) :
    Mem.wfFrom lo (Mem.set m a v) = true := by
  induction m generalizing lo with
  | nil => simp [Mem.set, Mem.wfFrom, hlo]
  | cons c m ih =>
    obtain ⟨b, w⟩ := c
    simp only [Mem.wfFrom, Bool.and_eq_true, decide_eq_true_eq] at h
    simp only [Mem.set]
    split
    · rename_i hab
      simp only [Mem.wfFrom, Bool.and_eq_true, decide_eq_true_eq]
      exact ⟨hlo, hab, h.2⟩
    · split
      · rename_i _ hab
        subst hab
        simp only [Mem.wfFrom, Bool.and_eq_true, decide_eq_true_eq]
        exact ⟨hlo, h.2⟩
      · simp only [Mem.wfFrom, Bool.and_eq_true, decide_eq_true_eq]
        exact ⟨h.1, ih (b + 1) (by omega) h.2⟩

/-- A write keeps the canonical form. -/
theorem Mem.wf_set (m : Mem) (a : Nat) (v : FWord) (h : m.wf = true) : (m.set a v).wf = true :=
  Mem.wfFrom_set m 0 a v (Nat.zero_le a) h

/-- A write of an offset that exists keeps the memory inside its size. -/
theorem Mem.below_set (m : Mem) (size a : Nat) (v : FWord) (ha : a < size) (h : m.below size = true) :
    (m.set a v).below size = true := by
  induction m with
  | nil => simp [Mem.set, Mem.below, ha]
  | cons c m ih =>
    obtain ⟨b, w⟩ := c
    simp only [Mem.below, List.all_cons, Bool.and_eq_true, decide_eq_true_eq] at h ih ⊢
    simp only [Mem.set]
    split
    · simp only [List.all_cons, Bool.and_eq_true, decide_eq_true_eq]
      exact ⟨ha, h⟩
    · split
      · simp only [List.all_cons, Bool.and_eq_true, decide_eq_true_eq]
        exact ⟨ha, h.2⟩
      · simp only [List.all_cons, Bool.and_eq_true, decide_eq_true_eq]
        exact ⟨h.1, ih h.2⟩

/-- Writing the word that a listed offset already holds changes nothing. -/
theorem Mem.set_get_self (m : Mem) (lo a : Nat) (v : FWord) (hw : Mem.wfFrom lo m = true)
    (h : Mem.get m a = some v) : Mem.set m a v = m := by
  induction m generalizing lo with
  | nil => simp [Mem.get] at h
  | cons c m ih =>
    obtain ⟨b, w⟩ := c
    simp only [Mem.wfFrom, Bool.and_eq_true, decide_eq_true_eq] at hw
    simp only [Mem.get] at h
    split at h
    · rename_i hab; subst hab; cases h; simp [Mem.set]
    · rename_i hab
      have hgt : ∀ (m : Mem) (lo : Nat), Mem.wfFrom lo m = true → Mem.get m a = some v → lo ≤ a := by
        intro m
        induction m with
        | nil => intro lo _ h; simp [Mem.get] at h
        | cons c m ih' =>
          obtain ⟨x, u⟩ := c
          intro lo hw h
          simp only [Mem.wfFrom, Bool.and_eq_true, decide_eq_true_eq] at hw
          simp only [Mem.get] at h
          split at h
          · omega
          · have := ih' (x + 1) hw.2 h; omega
      have := hgt m (b + 1) hw.2 h
      simp only [Mem.set, if_neg (by omega : ¬ a < b), if_neg hab, ih (b + 1) hw.2 h]

variable (s : State)

@[simp] theorem State.readX_writeX (a b : Nat) (v : FWord) :
    (s.writeX a v).readX b = if b = a then v else s.readX b := by
  simp only [State.readX, State.writeX_xmem, State.writeX_epoch, Mem.get_set]; split <;> rfl
@[simp] theorem State.readY_writeY (a b : Nat) (v : FWord) :
    (s.writeY a v).readY b = if b = a then v else s.readY b := by
  simp only [State.readY, State.writeY_ymem, State.writeY_epoch, Mem.get_set]; split <;> rfl
@[simp] theorem State.readB_writeB (a b : Nat) (v : FWord) :
    (s.writeB a v).readB b = if b = a then v else s.readB b := by
  simp only [State.readB, State.writeB_buf, State.writeB_epoch, Mem.get_set]; split <;> rfl
@[simp] theorem State.readX_writeY (a : Nat) (v : FWord) : (s.writeY a v).readX = s.readX := by rfl
@[simp] theorem State.readX_writeB (a : Nat) (v : FWord) : (s.writeB a v).readX = s.readX := by rfl
@[simp] theorem State.readY_writeX (a : Nat) (v : FWord) : (s.writeX a v).readY = s.readY := by rfl
@[simp] theorem State.readY_writeB (a : Nat) (v : FWord) : (s.writeB a v).readY = s.readY := by rfl
@[simp] theorem State.readB_writeX (a : Nat) (v : FWord) : (s.writeX a v).readB = s.readB := by rfl
@[simp] theorem State.readB_writeY (a : Nat) (v : FWord) : (s.writeY a v).readB = s.readB := by rfl
@[simp] theorem State.romWord_writeX (a : Nat) (v : FWord) : (s.writeX a v).romWord = s.romWord := by rfl
@[simp] theorem State.romWord_writeY (a : Nat) (v : FWord) : (s.writeY a v).romWord = s.romWord := by rfl
@[simp] theorem State.romWord_writeB (a : Nat) (v : FWord) : (s.writeB a v).romWord = s.romWord := by rfl

@[simp] theorem State.readD_writeD (m : DataMem) (a b : Nat) (v : FWord) :
    (s.writeD m a v).readD m b = if b = a then v else s.readD m b := by
  cases m <;> simp [State.writeD, State.readD]

@[simp] theorem State.readX_finish (c : ErrCode) : (s.finish c).readX = s.readX := by rfl
@[simp] theorem State.readY_finish (c : ErrCode) : (s.finish c).readY = s.readY := by rfl
@[simp] theorem State.readB_finish (c : ErrCode) : (s.finish c).readB = s.readB := by rfl
@[simp] theorem State.readX_raise (c : ErrCode) : (s.raise c).readX = s.readX := by rfl
@[simp] theorem State.readY_raise (c : ErrCode) : (s.raise c).readY = s.readY := by rfl
@[simp] theorem State.readB_raise (c : ErrCode) : (s.raise c).readB = s.readB := by rfl
@[simp] theorem State.readX_draw (n : Nat) : (s.draw n).readX = s.readX := by rfl
@[simp] theorem State.readY_draw (n : Nat) : (s.draw n).readY = s.readY := by rfl
@[simp] theorem State.readB_draw (n : Nat) : (s.draw n).readB = s.readB := by rfl
@[simp] theorem State.readD_draw (m : DataMem) (n : Nat) : (s.draw n).readD m = s.readD m := by cases m <;> rfl
@[simp] theorem State.romWord_draw (n : Nat) : (s.draw n).romWord = s.romWord := by rfl

/-- A property that every pass of a loop keeps holds after the loop. -/
theorem forUpTo_keeps {P : State → Prop} (n : Nat) (f : Nat → State → State) (s : State) (h0 : P s)
    (hf : ∀ i < n, ∀ s, P s → P (f i s)) : P (forUpTo n f s) := by
  induction n with
  | zero => exact h0
  | succ n ih => exact hf n (Nat.lt_succ_self n) _ (ih fun i hi => hf i (Nat.lt_succ_of_lt hi))

/-- What holds of a loop after its first `i` passes: the usual counter-indexed invariant. -/
theorem forUpTo_invariant {P : Nat → State → Prop} (n : Nat) (f : Nat → State → State) (s : State) (h0 : P 0 s)
    (hf : ∀ i < n, ∀ s, P i s → P (i + 1) (f i s)) : P n (forUpTo n f s) := by
  induction n with
  | zero => exact h0
  | succ n ih => exact hf n (Nat.lt_succ_self n) _ (ih fun i hi => hf i (Nat.lt_succ_of_lt hi))

end Sys2Proof.Machine
end

