-- ==== Sys2Proof/Laws/Footprint.lean ====
section
/-! SUPPORT. What the micro-operations and the recursion may touch: one relation, proved once for every shared
operation, from which frames and invariants follow. -/

namespace Sys2Proof.Machine

theorem State.SameControl.refl (s : State) : s.SameControl s := rfl

theorem State.SameControl.trans {s t u : State} (h1 : s.SameControl t) (h2 : t.SameControl u) : s.SameControl u := by
  unfold State.SameControl at *
  rw [h1] at h2
  exact h2

/-- From `s` to `t` only YMEM words in `[lo, hi)`, BUF, the temporaries and the draw number may differ, and the memories
keep their form and their sizes. -/
structure Touches (lo hi : Nat) (s t : State) : Prop where
  control : s.SameControl t
  outside : ∀ a, a < lo ∨ hi ≤ a → t.ymem.get a = s.ymem.get a
  wfY : s.ymem.wf = true → t.ymem.wf = true
  wfB : s.buf.wf = true → t.buf.wf = true
  belowY : ∀ size, hi ≤ size → s.ymem.below size = true → t.ymem.below size = true
  belowB : s.buf.below s.cfg.bufWords = true → t.buf.below s.cfg.bufWords = true

theorem Touches.refl (lo hi : Nat) (s : State) : Touches lo hi s s :=
  ⟨rfl, fun _ _ => rfl, id, id, fun _ _ => id, id⟩

theorem State.SameControl.cfg {s t : State} (h : s.SameControl t) : t.cfg = s.cfg := by rw [h]
theorem State.SameControl.xmem {s t : State} (h : s.SameControl t) : t.xmem = s.xmem := by rw [h]
theorem State.SameControl.argN {s t : State} (h : s.SameControl t) : t.argN = s.argN := by rw [h]
theorem State.SameControl.argTh {s t : State} (h : s.SameControl t) : t.argTh = s.argTh := by rw [h]
theorem State.SameControl.twn {s t : State} (h : s.SameControl t) : t.twn = s.twn := by rw [h]
theorem State.SameControl.status {s t : State} (h : s.SameControl t) : t.status = s.status := by rw [h]
theorem State.SameControl.frames {s t : State} (h : s.SameControl t) : t.frames = s.frames := by rw [h]
theorem State.SameControl.twrom {s t : State} (h : s.SameControl t) : t.twrom = s.twrom := by rw [h]
theorem State.SameControl.cr {s t : State} (h : s.SameControl t) : t.cr = s.cr := by rw [h]
theorem State.SameControl.ci {s t : State} (h : s.SameControl t) : t.ci = s.ci := by rw [h]
theorem State.SameControl.tw {s t : State} (h : s.SameControl t) : t.tw = s.tw := by rw [h]
theorem State.SameControl.epoch {s t : State} (h : s.SameControl t) : t.epoch = s.epoch := by rw [h]
theorem State.SameControl.events {s t : State} (h : s.SameControl t) : t.events = s.events := by rw [h]
theorem State.SameControl.replies {s t : State} (h : s.SameControl t) : t.replies = s.replies := by rw [h]
theorem State.SameControl.readX {s t : State} (h : s.SameControl t) : t.readX = s.readX := by
  funext a; simp only [State.readX, h.xmem, h.epoch]
theorem State.SameControl.romWord {s t : State} (h : s.SameControl t) : t.romWord = s.romWord := by
  funext d o; simp only [State.romWord, h.twrom]

theorem Touches.trans {lo hi : Nat} {s t u : State} (h1 : Touches lo hi s t) (h2 : Touches lo hi t u) :
    Touches lo hi s u where
  control := h1.control.trans h2.control
  outside a ha := (h2.outside a ha).trans (h1.outside a ha)
  wfY h := h2.wfY (h1.wfY h)
  wfB h := h2.wfB (h1.wfB h)
  belowY size hs h := h2.belowY size hs (h1.belowY size hs h)
  belowB h := h1.control.cfg ▸ h2.belowB (h1.control.cfg.symm ▸ h1.belowB h)

theorem Touches.mono {lo hi lo' hi' : Nat} {s t : State} (h : Touches lo hi s t) (hl : lo' ≤ lo) (hh : hi ≤ hi') :
    Touches lo' hi' s t where
  control := h.control
  outside a ha := h.outside a (by omega)
  wfY := h.wfY
  wfB := h.wfB
  belowY size hs := h.belowY size (by omega)
  belowB := h.belowB

/-- YMEM reads the same outside what was touched. -/
theorem Touches.readY {lo hi : Nat} {s t : State} (h : Touches lo hi s t) (a : Nat) (ha : a < lo ∨ hi ≤ a) :
    t.readY a = s.readY a := by
  simp only [State.readY, h.outside a ha, h.control.epoch]

theorem Touches.writeY (lo hi : Nat) (s : State) (a : Nat) (v : FWord) (h1 : lo ≤ a) (h2 : a < hi) :
    Touches lo hi s (s.writeY a v) where
  control := rfl
  outside b hb := Mem.get_set_other _ _ (by omega)
  wfY := Mem.wf_set _ _ _
  wfB := id
  belowY size hs := Mem.below_set _ _ _ _ (by omega)
  belowB := id

theorem Touches.writeB (lo hi : Nat) (s : State) (a : Nat) (v : FWord) (h : a < s.cfg.bufWords) :
    Touches lo hi s (s.writeB a v) where
  control := rfl
  outside _ _ := rfl
  wfY := id
  wfB := Mem.wf_set _ _ _
  belowY _ _ := id
  belowB := Mem.below_set _ _ _ _ h

theorem Touches.temps (lo hi : Nat) (s : State) (t p : Oct FWord) : Touches lo hi s { s with t := t, p := p } :=
  ⟨rfl, fun _ _ => rfl, id, id, fun _ _ => id, id⟩

theorem Touches.draw (lo hi : Nat) (s : State) (n : Nat) : Touches lo hi s (s.draw n) :=
  ⟨rfl, fun _ _ => rfl, id, id, fun _ _ => id, id⟩

theorem Touches.scatterLeaf (yb : Nat) (y : Oct FWord) (s : State) : Touches yb (yb + 8) s (scatterLeaf yb y s) := by
  unfold Machine.scatterLeaf contiguous
  refine Touches.trans ?_ (Touches.writeY _ _ _ _ _ (by omega) (by omega))
  refine Touches.trans ?_ (Touches.writeY _ _ _ _ _ (by omega) (by omega))
  refine Touches.trans ?_ (Touches.writeY _ _ _ _ _ (by omega) (by omega))
  refine Touches.trans ?_ (Touches.writeY _ _ _ _ _ (by omega) (by omega))
  refine Touches.trans ?_ (Touches.writeY _ _ _ _ _ (by omega) (by omega))
  refine Touches.trans ?_ (Touches.writeY _ _ _ _ _ (by omega) (by omega))
  refine Touches.trans ?_ (Touches.writeY _ _ _ _ _ (by omega) (by omega))
  exact Touches.writeY _ _ _ _ _ (by omega) (by omega)

theorem Touches.scatterY (b st : Nat) (y : Oct FWord) (s : State) :
    Touches b (b + 6 * st + 2) s (scatter .ymem b st y s) := by
  unfold Machine.scatter strided
  simp only [State.writeD]
  refine Touches.trans ?_ (Touches.writeY _ _ _ _ _ (by omega) (by omega))
  refine Touches.trans ?_ (Touches.writeY _ _ _ _ _ (by omega) (by omega))
  refine Touches.trans ?_ (Touches.writeY _ _ _ _ _ (by omega) (by omega))
  refine Touches.trans ?_ (Touches.writeY _ _ _ _ _ (by omega) (by omega))
  refine Touches.trans ?_ (Touches.writeY _ _ _ _ _ (by omega) (by omega))
  refine Touches.trans ?_ (Touches.writeY _ _ _ _ _ (by omega) (by omega))
  refine Touches.trans ?_ (Touches.writeY _ _ _ _ _ (by omega) (by omega))
  exact Touches.writeY _ _ _ _ _ (by omega) (by omega)

theorem Touches.scatterB (lo hi b st : Nat) (y : Oct FWord) (s : State) (h : b + 6 * st + 1 < s.cfg.bufWords) :
    Touches lo hi s (scatter .buf b st y s) := by
  unfold Machine.scatter strided
  simp only [State.writeD]
  refine Touches.trans ?_ (Touches.writeB _ _ _ _ _ (by simp only [State.writeB_cfg]; omega))
  refine Touches.trans ?_ (Touches.writeB _ _ _ _ _ (by simp only [State.writeB_cfg]; omega))
  refine Touches.trans ?_ (Touches.writeB _ _ _ _ _ (by simp only [State.writeB_cfg]; omega))
  refine Touches.trans ?_ (Touches.writeB _ _ _ _ _ (by simp only [State.writeB_cfg]; omega))
  refine Touches.trans ?_ (Touches.writeB _ _ _ _ _ (by simp only [State.writeB_cfg]; omega))
  refine Touches.trans ?_ (Touches.writeB _ _ _ _ _ (by simp only [State.writeB_cfg]; omega))
  refine Touches.trans ?_ (Touches.writeB _ _ _ _ _ (by simp only [State.writeB_cfg]; omega))
  exact Touches.writeB _ _ _ _ _ (by omega)

/-- BFLY4 touches its eight YMEM words (R127). -/
theorem bfly4_touches (yb xb st : Nat) (s : State) : Touches yb (yb + 8) s (bfly4 yb xb st s) := by
  unfold bfly4
  exact ((Touches.temps _ _ s _ s.p).trans (Touches.scatterLeaf _ _ _)).trans (Touches.draw _ _ _ _)

/-- COMBINE on YMEM touches words between its first and its last sample (R139). -/
theorem combine_ymem_touches (base st n j : Nat) (s : State) :
    Touches base (base + 6 * st + 2) s (combine .ymem base st n j s) := by
  unfold combine
  exact ((Touches.temps _ _ s _ _).trans (Touches.scatterY _ _ _ _)).trans (Touches.draw _ _ _ _)

/-- COMBINE on BUF touches no YMEM word (R139). -/
theorem combine_buf_touches (lo hi base st n j : Nat) (s : State) (h : base + 6 * st + 1 < s.cfg.bufWords) :
    Touches lo hi s (combine .buf base st n j s) := by
  unfold combine
  exact ((Touches.temps _ _ s _ _).trans (Touches.scatterB _ _ _ _ _ _ (by exact h))).trans (Touches.draw _ _ _ _)

/-- A loop whose every pass touches `[lo, hi)` touches `[lo, hi)`. -/
theorem Touches.loop {lo hi : Nat} (n : Nat) (f : Nat → State → State) (s : State)
    (hf : ∀ i < n, ∀ u, u.cfg = s.cfg → Touches lo hi u (f i u)) : Touches lo hi s (forUpTo n f s) :=
  forUpTo_keeps (P := fun u => Touches lo hi s u) n f s (Touches.refl _ _ _)
    fun i hi u hu => hu.trans (hf i hi u hu.control.cfg)

/-- An element slot of BUF lies inside BUF. -/
theorem bufSlot_lt {ls i e : Nat} (hi : i < 4) (he : e < ls) : bufSlot ls i e + 1 < 8 * ls := by
  unfold bufSlot
  have : i * ls ≤ 3 * ls := Nat.mul_le_mul_right ls (by omega)
  omega

/-- BUFLD touches no YMEM word (R158). -/
theorem bufld_touches (lo hi yb q t : Nat) (s : State) : Touches lo hi s (bufld yb q t s) := by
  unfold bufld
  refine Touches.loop _ _ _ fun i hi u hu => Touches.loop _ _ _ fun e he v hv => ?_
  have := bufSlot_lt hi he
  unfold loadElement
  refine Touches.trans (Touches.writeB _ _ _ _ _ ?_) (Touches.writeB _ _ _ _ _ ?_)
  · simp only [Cfg.bufWords, hv, hu]; omega
  · simp only [Cfg.bufWords, State.writeB_cfg, hv, hu]; omega

/-- The slots of tile `t` lie between the range's base and its end (R156). -/
theorem tileSlot_bounds {ls yb q t i e : Nat} (hi : i < 4) (he : e < ls) :
    yb ≤ tileSlot ls yb q t i e ∧ tileSlot ls yb q t i e + 1 < yb + 2 * (q * 3 + t * ls + ls) := by
  unfold tileSlot
  have : q * i ≤ q * 3 := Nat.mul_le_mul_left q (by omega)
  omega

/-- BUFST touches the words of its tile (R159). -/
theorem bufst_touches (yb q t : Nat) (s : State) :
    Touches yb (yb + 2 * (q * 3 + t * s.cfg.ls + s.cfg.ls)) s (bufst yb q t s) := by
  unfold bufst
  refine Touches.loop _ _ _ fun i hi u hu => Touches.loop _ _ _ fun e he v hv => ?_
  have := tileSlot_bounds (yb := yb) (q := q) (t := t) hi he
  unfold storeElement
  have hc : v.cfg = s.cfg := hv.trans hu
  refine Touches.trans (Touches.writeY _ _ _ _ _ ?_ ?_) (Touches.writeY _ _ _ _ _ ?_ ?_) <;>
    simp only [State.writeY_cfg, hc] <;> omega

/-- The combine phase of a plain frame touches the frame's output range (R142, R166). -/
theorem combinePlain_touches (m yb : Nat) (s : State) :
    Touches yb (yb + 2 * 4 ^ (m + 1)) s (combinePlain m yb s) := by
  unfold combinePlain
  refine Touches.loop _ _ _ fun j hj u _ => (combine_ymem_touches _ _ _ _ u).mono (by omega) ?_
  rw [pow_succ]; omega

/-- FOOTPRINT of REC (R166): it touches YMEM words `yb .. yb + 2N - 1` only. -/
theorem recPlain_touches (n yb xb st : Nat) (s : State) :
    Touches yb (yb + 2 * 4 ^ n) s (recPlain n yb xb st s) := by
  induction n generalizing yb xb st s with
  | zero => exact Touches.refl _ _ _
  | succ n ih =>
    cases n with
    | zero => exact (bfly4_touches yb xb st s)
    | succ m =>
      simp only [recPlain]
      refine Touches.trans ?_ (combinePlain_touches (m + 1) yb _)
      refine Touches.loop _ _ _ fun j hj u _ => (ih _ _ _ u).mono (by omega) ?_
      have : 4 ^ (m + 1) * j ≤ 4 ^ (m + 1) * 3 := Nat.mul_le_mul_left _ (by omega)
      rw [pow_succ 4 (m + 1), mul_assoc 2 _ j]; omega

/-- One tile touches the frame's output range (R157). -/
theorem combineTile_touches (m yb t : Nat) (s : State) (ht : t < 4 ^ m / s.cfg.ls) :
    Touches yb (yb + 2 * 4 ^ (m + 1)) s (combineTile m yb t s) := by
  have hle : t * s.cfg.ls + s.cfg.ls ≤ 4 ^ m := by
    have := Nat.mul_le_of_le_div _ _ _ (Nat.succ_le_of_lt ht)
    rw [← Nat.succ_mul]; exact this
  unfold combineTile
  have h1 := bufld_touches yb (yb + 2 * 4 ^ (m + 1)) yb (4 ^ m) t s
  have h2 : Touches yb (yb + 2 * 4 ^ (m + 1)) (bufld yb (4 ^ m) t s)
      (forUpTo s.cfg.ls (fun e => combine .buf (2 * e) s.cfg.ls (m + 1) (t * s.cfg.ls + e))
        (bufld yb (4 ^ m) t s)) := by
    refine Touches.loop _ _ _ fun e he u hu => combine_buf_touches _ _ _ _ _ _ _ ?_
    simp only [Cfg.bufWords, hu, h1.control.cfg]; omega
  refine (h1.trans h2).trans ((bufst_touches _ _ _ _).mono (le_refl _) ?_)
  rw [(h1.trans h2).control.cfg, pow_succ]; omega

/-- FOOTPRINT of RECT (R166): as REC's, and BUF. -/
theorem recTiled_touches (th n yb xb st : Nat) (s : State) :
    Touches yb (yb + 2 * 4 ^ n) s (recTiled th n yb xb st s) := by
  induction n generalizing yb xb st s with
  | zero => exact Touches.refl _ _ _
  | succ m ih =>
    simp only [recTiled]
    split
    · exact recPlain_touches _ _ _ _ _
    · have h1 : Touches yb (yb + 2 * 4 ^ (m + 1)) s
          (forUpTo 4 (fun j => recTiled th m (yb + 2 * 4 ^ m * j) (xb + 2 * st * j) (4 * st)) s) := by
        refine Touches.loop _ _ _ fun j hj u _ => (ih _ _ _ u).mono (by omega) ?_
        have : 4 ^ m * j ≤ 4 ^ m * 3 := Nat.mul_le_mul_left _ (by omega)
        rw [pow_succ 4 m, mul_assoc 2 _ j]; omega
      refine h1.trans ?_
      unfold combineTiled
      refine Touches.loop _ _ _ fun t ht u hu => combineTile_touches _ _ _ _ ?_
      rw [hu]; exact ht

end Sys2Proof.Machine
end

