-- ==== Sys2Proof/Laws/Numerics.lean ====
section
/-! SUPPORT. What the F-word operations can answer: NaNs (R96), and that equality up to NaN patterns is kept by every
operation (the step behind R170). -/

namespace Sys2Proof.Machine

theorem packSign_toNat (neg : Bool) (m : Nat) (h : m < 2 ^ 63) :
    (packSign neg m).toNat = (if neg then 2 ^ 63 else 0) + m := by
  unfold packSign
  rw [BitVec.toNat_ofNat, Nat.mod_eq_of_lt]
  split <;> omega

theorem expField_packSign (neg : Bool) (m : Nat) (h : m < 2 ^ 63) : expField (packSign neg m) = m / 2 ^ 52 := by
  unfold expField
  rw [packSign_toNat neg m h]
  split <;> omega

theorem fracField_packSign (neg : Bool) (m : Nat) (h : m < 2 ^ 63) : fracField (packSign neg m) = m % 2 ^ 52 := by
  unfold fracField
  rw [packSign_toNat neg m h]
  split <;> omega

theorem signBit_packSign (neg : Bool) (m : Nat) (h : m < 2 ^ 63) : signBit (packSign neg m) = neg := by
  unfold signBit
  rw [packSign_toNat neg m h]
  cases neg
  · simp; omega
  · simp

/-- A drawn NaN is a NaN (R96). -/
theorem isNaN_nanOf (k : Nat) : isNaN (nanOf k) = true := by
  have hf : ∀ r : Nat, 0 < (if r % 2 ^ 52 = 0 then 1 else r % 2 ^ 52) ∧
      (if r % 2 ^ 52 = 0 then 1 else r % 2 ^ 52) < 2 ^ 52 := by
    intro r; split <;> omega
  obtain ⟨h1, h2⟩ := hf (Config.nanDraw k).toNat
  unfold isNaN nanOf infMag
  revert h1 h2
  show ∀ _ : 0 < (if (Config.nanDraw k).toNat % 2 ^ 52 = 0 then 1 else (Config.nanDraw k).toNat % 2 ^ 52), _
  set f := (if (Config.nanDraw k).toNat % 2 ^ 52 = 0 then 1 else (Config.nanDraw k).toNat % 2 ^ 52)
  intro h1 h2
  rw [expField_packSign _ _ (by omega), fracField_packSign _ _ (by omega)]
  simp only [Bool.and_eq_true, decide_eq_true_eq]
  omega

theorem roundMag_le (m k : Nat) : roundMag m k ≤ infMag := Nat.min_le_right _ _

theorem isNaN_packSign (neg : Bool) (m : Nat) (h : m ≤ infMag) : isNaN (packSign neg m) = false := by
  unfold infMag at h
  unfold isNaN
  rw [expField_packSign _ _ (by omega), fracField_packSign _ _ (by omega)]
  rw [Bool.and_eq_false_iff, decide_eq_false_iff_not, decide_eq_false_iff_not]
  omega

theorem sameWord.refl (a : FWord) : sameWord a a := Or.inl rfl

theorem sameWord.symm {a b : FWord} (h : sameWord a b) : sameWord b a := by
  rcases h with h | h
  · exact Or.inl h.symm
  · exact Or.inr ⟨h.2, h.1⟩

theorem sameWord.isNaN {a b : FWord} (h : sameWord a b) : isNaN a = isNaN b := by
  rcases h with h | h
  · rw [h]
  · rw [h.1, h.2]

theorem sameWord.trans {a b c : FWord} (h1 : sameWord a b) (h2 : sameWord b c) : sameWord a c := by
  rcases h1 with h1 | h1
  · rw [h1]; exact h2
  · exact Or.inr ⟨h1.1, h2.isNaN ▸ h1.2⟩

/-- Two equal-up-to-NaN words that are no NaN are equal. -/
theorem sameWord.eq {a b : FWord} (h : sameWord a b) (hn : Machine.isNaN a = false) : a = b := by
  rcases h with h | h
  · exact h
  · rw [h.1] at hn; exact absurd hn (by decide)

theorem fadd_of_isNaN {k : Nat} {a b : FWord} (h : (isNaN a || isNaN b) = true) : fadd k a b = nanOf k := by
  unfold fadd; rw [if_pos h]

theorem fmul_of_isNaN {k : Nat} {a b : FWord} (h : (isNaN a || isNaN b) = true) : fmul k a b = nanOf k := by
  unfold fmul; simp only [if_pos h]

/-- Flipping bit 63 leaves the other 63 bits. -/
theorem fneg_toNat_mod (a : FWord) : (fneg a).toNat % 2 ^ 63 = a.toNat % 2 ^ 63 := by
  unfold fneg
  rw [BitVec.toNat_xor, Nat.xor_mod_two_pow]
  simp

theorem expField_fneg (a : FWord) : expField (fneg a) = expField a := by
  have h := fneg_toNat_mod a
  unfold expField
  omega

theorem fracField_fneg (a : FWord) : fracField (fneg a) = fracField a := by
  have h := fneg_toNat_mod a
  unfold fracField
  omega

theorem isNaN_fneg (a : FWord) : isNaN (fneg a) = isNaN a := by
  unfold isNaN
  rw [expField_fneg, fracField_fneg]

/-- The sum of operands that are equal up to NaN patterns is equal up to NaN patterns, whatever the draws. -/
theorem sameWord_fadd (k k' : Nat) {a a' b b' : FWord} (ha : sameWord a a') (hb : sameWord b b') :
    sameWord (fadd k a b) (fadd k' a' b') := by
  by_cases h : (isNaN a || isNaN b) = true
  · rw [fadd_of_isNaN h, fadd_of_isNaN (by rw [← ha.isNaN, ← hb.isNaN]; exact h)]
    exact Or.inr ⟨isNaN_nanOf _, isNaN_nanOf _⟩
  · have h' : isNaN a = false ∧ isNaN b = false := by simpa using h
    rw [← ha.eq h'.1, ← hb.eq h'.2]
    unfold fadd
    rw [if_neg h, if_neg h]
    split
    · exact Or.inr ⟨isNaN_nanOf _, isNaN_nanOf _⟩
    · exact Or.inl rfl

theorem sameWord_fneg {a a' : FWord} (ha : sameWord a a') : sameWord (fneg a) (fneg a') := by
  rcases ha with h | h
  · exact Or.inl (by rw [h])
  · exact Or.inr ⟨by rw [isNaN_fneg]; exact h.1, by rw [isNaN_fneg]; exact h.2⟩

theorem sameWord_fsub (k k' : Nat) {a a' b b' : FWord} (ha : sameWord a a') (hb : sameWord b b') :
    sameWord (fsub k a b) (fsub k' a' b') :=
  sameWord_fadd k k' ha (sameWord_fneg hb)

theorem sameWord_fmul (k k' : Nat) {a a' b b' : FWord} (ha : sameWord a a') (hb : sameWord b b') :
    sameWord (fmul k a b) (fmul k' a' b') := by
  by_cases h : (isNaN a || isNaN b) = true
  · rw [fmul_of_isNaN h, fmul_of_isNaN (by rw [← ha.isNaN, ← hb.isNaN]; exact h)]
    exact Or.inr ⟨isNaN_nanOf _, isNaN_nanOf _⟩
  · have h' : isNaN a = false ∧ isNaN b = false := by simpa using h
    rw [← ha.eq h'.1, ← hb.eq h'.2]
    unfold fmul
    simp only [if_neg h]
    split
    · exact Or.inr ⟨isNaN_nanOf _, isNaN_nanOf _⟩
    · exact Or.inl rfl

/-- Eight words equal up to NaN patterns. -/
structure SameOct (x y : Oct FWord) : Prop where
  w0 : sameWord x.w0 y.w0
  w1 : sameWord x.w1 y.w1
  w2 : sameWord x.w2 y.w2
  w3 : sameWord x.w3 y.w3
  w4 : sameWord x.w4 y.w4
  w5 : sameWord x.w5 y.w5
  w6 : sameWord x.w6 y.w6
  w7 : sameWord x.w7 y.w7

theorem SameOct.refl (x : Oct FWord) : SameOct x x := by
  constructor <;> exact sameWord.refl _

theorem SameOct.symm {x y : Oct FWord} (h : SameOct x y) : SameOct y x := by
  constructor <;> apply sameWord.symm
  exacts [h.w0, h.w1, h.w2, h.w3, h.w4, h.w5, h.w6, h.w7]

/-- CORE4 keeps equality up to NaN patterns. -/
theorem SameOct.core4 {x y : Oct FWord} (h : SameOct x y) (k k' : Nat) :
    SameOct (Machine.core4 binary64 k x) (Machine.core4 binary64 k' y) := by
  constructor <;> simp only [Machine.core4, coreResults, coreSums, binary64]
  · exact sameWord_fadd _ _ (sameWord_fadd _ _ h.w0 h.w4) (sameWord_fadd _ _ h.w2 h.w6)
  · exact sameWord_fadd _ _ (sameWord_fadd _ _ h.w1 h.w5) (sameWord_fadd _ _ h.w3 h.w7)
  · exact sameWord_fsub _ _ (sameWord_fsub _ _ h.w0 h.w4) (sameWord_fsub _ _ h.w3 h.w7)
  · exact sameWord_fadd _ _ (sameWord_fsub _ _ h.w1 h.w5) (sameWord_fsub _ _ h.w2 h.w6)
  · exact sameWord_fsub _ _ (sameWord_fadd _ _ h.w0 h.w4) (sameWord_fadd _ _ h.w2 h.w6)
  · exact sameWord_fsub _ _ (sameWord_fadd _ _ h.w1 h.w5) (sameWord_fadd _ _ h.w3 h.w7)
  · exact sameWord_fadd _ _ (sameWord_fsub _ _ h.w0 h.w4) (sameWord_fsub _ _ h.w3 h.w7)
  · exact sameWord_fsub _ _ (sameWord_fsub _ _ h.w1 h.w5) (sameWord_fsub _ _ h.w2 h.w6)

theorem sameWord_complexMul (k k' : Nat) {ar ar' ai ai' : FWord} (br bi : FWord) (hr : sameWord ar ar')
    (hi : sameWord ai ai') :
    sameWord (complexMul binary64 k ar ai br bi).1 (complexMul binary64 k' ar' ai' br bi).1 ∧
      sameWord (complexMul binary64 k ar ai br bi).2 (complexMul binary64 k' ar' ai' br bi).2 :=
  ⟨sameWord_fsub _ _ (sameWord_fmul _ _ hr (sameWord.refl _)) (sameWord_fmul _ _ hi (sameWord.refl _)),
   sameWord_fadd _ _ (sameWord_fmul _ _ hr (sameWord.refl _)) (sameWord_fmul _ _ hi (sameWord.refl _))⟩

/-- The arithmetic of COMBINE keeps equality up to NaN patterns, whatever the draws. -/
theorem SameOct.combineValues {x y : Oct FWord} (h : SameOct x y) (k k' : Nat) (b : Oct FWord) :
    SameOct (Machine.combineValues binary64 k x b) (Machine.combineValues binary64 k' y b) := by
  unfold Machine.combineValues
  apply SameOct.core4
  constructor <;> simp only [products]
  · exact (sameWord_complexMul _ _ _ _ h.w0 h.w1).1
  · exact (sameWord_complexMul _ _ _ _ h.w0 h.w1).2
  · exact (sameWord_complexMul _ _ _ _ h.w2 h.w3).1
  · exact (sameWord_complexMul _ _ _ _ h.w2 h.w3).2
  · exact (sameWord_complexMul _ _ _ _ h.w4 h.w5).1
  · exact (sameWord_complexMul _ _ _ _ h.w4 h.w5).2
  · exact (sameWord_complexMul _ _ _ _ h.w6 h.w7).1
  · exact (sameWord_complexMul _ _ _ _ h.w6 h.w7).2

theorem SameOct.word {x y : Oct FWord} (h : SameOct x y) (a : Nat) : sameWord (x.word a) (y.word a) := by
  match a with
  | 0 => exact h.w0
  | 1 => exact h.w1
  | 2 => exact h.w2
  | 3 => exact h.w3
  | 4 => exact h.w4
  | 5 => exact h.w5
  | 6 => exact h.w6
  | _ + 7 => exact h.w7

end Sys2Proof.Machine
end

