-- ==== Sys2Proof/Laws/Operations.lean ====
section
/-! SUPPORT. What each shared operation writes: one specification lemma per operation. -/

namespace Sys2Proof.Machine

/-- BFLY4's writes put result word `c` at `yb + c`, natural order (R130). -/
theorem scatterLeaf_readY (yb : Nat) (y : Oct FWord) (s : State) (c : Nat) (hc : c < 8) :
    (scatterLeaf yb y s).readY (yb + c) = y.word c := by
  unfold scatterLeaf contiguous
  simp only [State.readY_writeY]
  have : c = 0 ∨ c = 1 ∨ c = 2 ∨ c = 3 ∨ c = 4 ∨ c = 5 ∨ c = 6 ∨ c = 7 := by omega
  rcases this with h | h | h | h | h | h | h | h <;> subst h <;>
    simp only [Oct.word] <;> (repeat' (first | rfl | rw [if_neg (by omega)]))

/-- COMBINE's writes put result `q` where sample `q` came from (R139). -/
theorem scatter_readD (m : DataMem) (b st : Nat) (y : Oct FWord) (s : State) (hst : 1 ≤ st) (q c : Nat) (hq : q < 4)
    (hc : c < 2) : (scatter m b st y s).readD m (strided b st q c) = y.word (2 * q + c) := by
  unfold scatter
  simp only [State.readD_writeD, strided]
  have h1 : q = 0 ∨ q = 1 ∨ q = 2 ∨ q = 3 := by omega
  have h2 : c = 0 ∨ c = 1 := by omega
  rcases h1 with h | h | h | h <;> rcases h2 with h' | h' <;> subst h <;> subst h' <;>
    simp only [Oct.word] <;> (repeat' (first | rfl | rw [if_neg (by omega)]))

/-- COMBINE's writes leave every other word of the memory. -/
theorem scatter_readD_other (m : DataMem) (b st : Nat) (y : Oct FWord) (s : State) (a : Nat)
    (ha : ∀ q < 4, ∀ c < 2, a ≠ strided b st q c) : (scatter m b st y s).readD m a = s.readD m a := by
  unfold scatter
  simp only [State.readD_writeD]
  rw [if_neg (ha 3 (by omega) 1 (by omega)), if_neg (ha 3 (by omega) 0 (by omega)),
    if_neg (ha 2 (by omega) 1 (by omega)), if_neg (ha 2 (by omega) 0 (by omega)),
    if_neg (ha 1 (by omega) 1 (by omega)), if_neg (ha 1 (by omega) 0 (by omega)),
    if_neg (ha 0 (by omega) 1 (by omega)), if_neg (ha 0 (by omega) 0 (by omega))]

theorem scatter_buf_ymem (b st : Nat) (y : Oct FWord) (s : State) : (scatter .buf b st y s).ymem = s.ymem := rfl

theorem scatter_ymem_buf (b st : Nat) (y : Oct FWord) (s : State) : (scatter .ymem b st y s).buf = s.buf := rfl

theorem SameControl_temps (s : State) (t p : Oct FWord) : s.SameControl { s with p := p, t := t } := rfl

theorem SameControl_draw (s : State) (n : Nat) : s.SameControl (s.draw n) := rfl

theorem scatter_control (m : DataMem) (b st : Nat) (y : Oct FWord) (s : State) :
    s.SameControl (scatter m b st y s) := by
  cases m <;> rfl

/-- The words BFLY4 leaves (R127). -/
theorem bfly4_readY (yb xb st : Nat) (s : State) (c : Nat) (hc : c < 8) :
    (bfly4 yb xb st s).readY (yb + c) = (core4 binary64 s.draws (gather s.readX xb st)).word c := by
  unfold bfly4
  simp only [State.readY_draw, core4]
  exact scatterLeaf_readY _ _ _ _ hc

@[simp] theorem bfly4_buf (yb xb st : Nat) (s : State) : (bfly4 yb xb st s).buf = s.buf := by
  simp [bfly4, scatterLeaf]
@[simp] theorem bfly4_draws (yb xb st : Nat) (s : State) : (bfly4 yb xb st s).draws = s.draws + 16 := by
  simp [bfly4, scatterLeaf]
@[simp] theorem bfly4_t (yb xb st : Nat) (s : State) :
    (bfly4 yb xb st s).t = coreSums binary64 s.draws (gather s.readX xb st) := by
  simp [bfly4, scatterLeaf]
@[simp] theorem bfly4_p (yb xb st : Nat) (s : State) : (bfly4 yb xb st s).p = s.p := by
  simp [bfly4, scatterLeaf]

/-- The results of COMBINE (R139): what it computes from the samples and coefficients of state `s`. -/
def combineResult (m : DataMem) (base st n j : Nat) (s : State) : Oct FWord :=
  combineValues binary64 s.draws (gather (s.readD m) base st) (gatherTable (s.romWord (n - 2)) j)

/-- COMBINE writes its results over its samples (R139). -/
theorem combine_readD (m : DataMem) (base st n j : Nat) (s : State) (hst : 1 ≤ st) (q c : Nat) (hq : q < 4)
    (hc : c < 2) :
    (combine m base st n j s).readD m (strided base st q c) = (combineResult m base st n j s).word (2 * q + c) := by
  unfold combine
  simp only [State.readD_draw, combineResult, combineValues, core4]
  exact scatter_readD m base st _ _ hst q c hq hc

/-- COMBINE leaves every other word of its memory (R139). -/
theorem combine_readD_other (m : DataMem) (base st n j : Nat) (s : State) (a : Nat)
    (ha : ∀ q < 4, ∀ c < 2, a ≠ strided base st q c) : (combine m base st n j s).readD m a = s.readD m a := by
  unfold combine
  simp only [State.readD_draw]
  rw [scatter_readD_other m base st _ _ a ha]
  cases m <;> rfl

@[simp] theorem combine_buf_ymem (base st n j : Nat) (s : State) :
    (combine .buf base st n j s).ymem = s.ymem := by
  simp [combine, scatter]
@[simp] theorem combine_ymem_buf (base st n j : Nat) (s : State) :
    (combine .ymem base st n j s).buf = s.buf := by
  simp [combine, scatter]
@[simp] theorem combine_draws (m : DataMem) (base st n j : Nat) (s : State) :
    (combine m base st n j s).draws = s.draws + 40 := by
  simp [combine, scatter]
@[simp] theorem combine_p (m : DataMem) (base st n j : Nat) (s : State) : (combine m base st n j s).p =
    products binary64 s.draws (gather (s.readD m) base st) (gatherTable (s.romWord (n - 2)) j) := by
  simp [combine, scatter]
@[simp] theorem combine_t (m : DataMem) (base st n j : Nat) (s : State) : (combine m base st n j s).t =
    coreSums binary64 (s.draws + 24)
      (products binary64 s.draws (gather (s.readD m) base st) (gatherTable (s.romWord (n - 2)) j)) := by
  simp [combine, scatter]

theorem combine_control (m : DataMem) (base st n j : Nat) (s : State) :
    s.SameControl (combine m base st n j s) := by
  simp only [combine]
  exact ((SameControl_temps s _ _).trans (scatter_control _ _ _ _ _)).trans (SameControl_draw _ _)

/-- The slots of BUF with linear index `i*LS + e` below `l` have been copied, the others not. -/
structure LoadedUpTo (yb q t : Nat) (s : State) (l : Nat) (u : State) : Prop where
  cfg : u.cfg = s.cfg
  readY : u.readY = s.readY
  copied : ∀ b < 2 * l, u.readB b =
    s.readY (tileSlot s.cfg.ls yb q t (b / 2 / s.cfg.ls) (b / 2 % s.cfg.ls) + b % 2)
  rest : ∀ b, 2 * l ≤ b → u.readB b = s.readB b

theorem loadElement_loaded (yb q t i e : Nat) (s u : State) (he : e < s.cfg.ls)
    (h : LoadedUpTo yb q t s (i * s.cfg.ls + e) u) :
    LoadedUpTo yb q t s (i * s.cfg.ls + e + 1) (loadElement yb q t i e u) := by
  have hd : (i * s.cfg.ls + e) / s.cfg.ls = i := by
    rw [mul_comm, Nat.mul_add_div (by omega), Nat.div_eq_of_lt he, Nat.add_zero]
  have hm : (i * s.cfg.ls + e) % s.cfg.ls = e := by
    rw [mul_comm, Nat.mul_add_mod, Nat.mod_eq_of_lt he]
  refine ⟨h.cfg, h.readY, fun b hb => ?_, fun b hb => ?_⟩
  · unfold loadElement bufSlot
    simp only [State.readB_writeB, State.writeB_cfg, State.readY_writeB, h.cfg, h.readY]
    by_cases h1 : b = 2 * (i * s.cfg.ls + e) + 1
    · rw [if_pos h1, h1]
      have e1 : (2 * (i * s.cfg.ls + e) + 1) / 2 = i * s.cfg.ls + e := by omega
      have e2 : (2 * (i * s.cfg.ls + e) + 1) % 2 = 1 := by omega
      rw [e1, e2, hd, hm]
    · rw [if_neg h1]
      by_cases h2 : b = 2 * (i * s.cfg.ls + e)
      · rw [if_pos h2, h2]
        have e1 : (2 * (i * s.cfg.ls + e)) / 2 = i * s.cfg.ls + e := by omega
        have e2 : (2 * (i * s.cfg.ls + e)) % 2 = 0 := by omega
        rw [e1, e2, hd, hm, Nat.add_zero]
      · rw [if_neg h2]
        exact h.copied b (by omega)
  · unfold loadElement bufSlot
    simp only [State.readB_writeB, State.writeB_cfg, h.cfg]
    rw [if_neg (by omega), if_neg (by omega)]
    exact h.rest b (by omega)

/-- BUFLD copies the whole tile and nothing else into BUF (R158). -/
theorem bufld_loaded (yb q t : Nat) (s : State) : LoadedUpTo yb q t s (4 * s.cfg.ls) (bufld yb q t s) := by
  unfold bufld
  have outer := forUpTo_invariant (P := fun i u => LoadedUpTo yb q t s (i * s.cfg.ls) u) 4
    (fun i => forUpTo s.cfg.ls (fun e => loadElement yb q t i e)) s
    ⟨rfl, rfl, fun b hb => by omega, fun b _ => rfl⟩
  refine outer fun i hi u hu => ?_
  have inner := forUpTo_invariant (P := fun e v => LoadedUpTo yb q t s (i * s.cfg.ls + e) v) s.cfg.ls
    (fun e => loadElement yb q t i e) u hu
    fun e he v hv => loadElement_loaded yb q t i e s v he hv
  rw [Nat.succ_mul]
  exact inner

/-- Element `(i, e)` of BUF after BUFLD (R158). -/
theorem bufld_readB (yb q t : Nat) (s : State) (i e c : Nat) (hi : i < 4) (he : e < s.cfg.ls) (hc : c < 2) :
    (bufld yb q t s).readB (bufSlot s.cfg.ls i e + c) = s.readY (tileSlot s.cfg.ls yb q t i e + c) := by
  have hlt := bufSlot_lt hi he
  have hb : bufSlot s.cfg.ls i e + c < 2 * (4 * s.cfg.ls) := by omega
  rw [(bufld_loaded yb q t s).copied _ hb]
  unfold bufSlot
  have e1 : (2 * (i * s.cfg.ls + e) + c) / 2 = i * s.cfg.ls + e := by omega
  have e2 : (2 * (i * s.cfg.ls + e) + c) % 2 = c := by omega
  have hd : (i * s.cfg.ls + e) / s.cfg.ls = i := by
    rw [mul_comm, Nat.mul_add_div (by omega), Nat.div_eq_of_lt he, Nat.add_zero]
  have hm : (i * s.cfg.ls + e) % s.cfg.ls = e := by
    rw [mul_comm, Nat.mul_add_mod, Nat.mod_eq_of_lt he]
  rw [e1, e2, hd, hm]

/-- BUFLD changes nothing but BUF. -/
theorem bufld_eq (yb q t : Nat) (s : State) : bufld yb q t s = { s with buf := (bufld yb q t s).buf } := by
  unfold bufld
  refine forUpTo_keeps (P := fun u => u = { s with buf := u.buf }) _ _ _ rfl fun i _ u hu => ?_
  refine forUpTo_keeps (P := fun v => v = { s with buf := v.buf }) _ _ _ hu fun e _ v hv => ?_
  rw [hv]; rfl

/-- Tile slots are distinct when a quarter is at least a chunk (R156). -/
theorem tileSlot_inj {ls yb q t i e c i' e' c' : Nat} (hq : ls ≤ q) (he : e < ls) (he' : e' < ls) (hc : c < 2)
    (hc' : c' < 2) (h : tileSlot ls yb q t i e + c = tileSlot ls yb q t i' e' + c') : i = i' ∧ e = e' ∧ c = c' := by
  unfold tileSlot at h
  have h1 : q * i + e = q * i' + e' := by omega
  have hi : i = i' := by
    have d1 : (q * i + e) / q = i := by rw [Nat.mul_add_div (by omega), Nat.div_eq_of_lt (by omega), Nat.add_zero]
    have d2 : (q * i' + e') / q = i' := by rw [Nat.mul_add_div (by omega), Nat.div_eq_of_lt (by omega), Nat.add_zero]
    rw [← d1, h1, d2]
  subst hi
  omega

/-- The tile elements with linear index below `l` have been copied back, every other YMEM word is as it was. -/
structure StoredUpTo (yb q t : Nat) (s : State) (l : Nat) (u : State) : Prop where
  cfg : u.cfg = s.cfg
  readB : u.readB = s.readB
  copied : ∀ i, ∀ e < s.cfg.ls, ∀ c < 2, i * s.cfg.ls + e < l →
    u.readY (tileSlot s.cfg.ls yb q t i e + c) = s.readB (bufSlot s.cfg.ls i e + c)
  rest : ∀ a, (∀ i, ∀ e < s.cfg.ls, ∀ c < 2, i * s.cfg.ls + e < l → a ≠ tileSlot s.cfg.ls yb q t i e + c) →
    u.readY a = s.readY a

theorem storeElement_stored (yb q t i e : Nat) (s u : State) (hq : s.cfg.ls ≤ q) (he : e < s.cfg.ls)
    (h : StoredUpTo yb q t s (i * s.cfg.ls + e) u) :
    StoredUpTo yb q t s (i * s.cfg.ls + e + 1) (storeElement yb q t i e u) := by
  refine ⟨h.cfg, h.readB, fun i' e' he' c' hc' hl => ?_, fun a ha => ?_⟩
  · unfold storeElement
    simp only [State.readY_writeY, State.writeY_cfg, State.readB_writeY, h.cfg, h.readB]
    by_cases h1 : tileSlot s.cfg.ls yb q t i' e' + c' = tileSlot s.cfg.ls yb q t i e + 1
    · obtain ⟨rfl, rfl, rfl⟩ := tileSlot_inj hq he' he hc' (by omega) h1
      rw [if_pos rfl]
    · rw [if_neg h1]
      by_cases h2 : tileSlot s.cfg.ls yb q t i' e' + c' = tileSlot s.cfg.ls yb q t i e
      · obtain ⟨rfl, rfl, rfl⟩ := tileSlot_inj (c' := 0) hq he' he hc' (by omega) h2
        rw [if_pos (Nat.add_zero _), Nat.add_zero]
      · rw [if_neg h2]
        refine h.copied i' e' he' c' hc' ?_
        by_contra hlt
        have heq : i' * s.cfg.ls + e' = i * s.cfg.ls + e := by omega
        have d1 : (i' * s.cfg.ls + e') / s.cfg.ls = i' := by
          rw [mul_comm, Nat.mul_add_div (by omega), Nat.div_eq_of_lt he', Nat.add_zero]
        have d2 : (i * s.cfg.ls + e) / s.cfg.ls = i := by
          rw [mul_comm, Nat.mul_add_div (by omega), Nat.div_eq_of_lt he, Nat.add_zero]
        have hii : i' = i := by rw [← d1, heq, d2]
        subst hii
        have hee : e' = e := by omega
        subst hee
        have : c' = 0 ∨ c' = 1 := by omega
        rcases this with rfl | rfl
        · exact h2 rfl
        · exact h1 rfl
  · unfold storeElement
    simp only [State.readY_writeY, State.writeY_cfg, h.cfg]
    rw [if_neg (ha i e he 1 (by omega) (by omega)), if_neg (by simpa using ha i e he 0 (by omega) (by omega))]
    exact h.rest a fun i' e' he' c' hc' hl => ha i' e' he' c' hc' (by omega)

/-- BUFST copies all of BUF back to the tile and leaves every other YMEM word (R159). -/
theorem bufst_stored (yb q t : Nat) (s : State) (hq : s.cfg.ls ≤ q) :
    StoredUpTo yb q t s (4 * s.cfg.ls) (bufst yb q t s) := by
  unfold bufst
  have outer := forUpTo_invariant (P := fun i u => StoredUpTo yb q t s (i * s.cfg.ls) u) 4
    (fun i => forUpTo s.cfg.ls (fun e => storeElement yb q t i e)) s
    ⟨rfl, rfl, fun i e he c hc hl => by omega, fun a _ => rfl⟩
  refine outer fun i hi u hu => ?_
  have inner := forUpTo_invariant (P := fun e v => StoredUpTo yb q t s (i * s.cfg.ls + e) v) s.cfg.ls
    (fun e => storeElement yb q t i e) u hu
    fun e he v hv => storeElement_stored yb q t i e s v hq he hv
  rw [Nat.succ_mul]
  exact inner

/-- Element `(i, e)` of the tile after BUFST (R159). -/
theorem bufst_readY (yb q t : Nat) (s : State) (hq : s.cfg.ls ≤ q) (i e c : Nat) (hi : i < 4) (he : e < s.cfg.ls)
    (hc : c < 2) :
    (bufst yb q t s).readY (tileSlot s.cfg.ls yb q t i e + c) = s.readB (bufSlot s.cfg.ls i e + c) := by
  refine (bufst_stored yb q t s hq).copied i e he c hc ?_
  have : i * s.cfg.ls ≤ 3 * s.cfg.ls := Nat.mul_le_mul_right _ (by omega)
  omega

/-- Every YMEM word outside the tile after BUFST (R159), for any operands. -/
theorem bufst_readY_other (yb q t : Nat) (s : State) (a : Nat)
    (ha : ∀ i < 4, ∀ e < s.cfg.ls, ∀ c < 2, a ≠ tileSlot s.cfg.ls yb q t i e + c) :
    (bufst yb q t s).readY a = s.readY a := by
  unfold bufst
  have := forUpTo_keeps (P := fun u => u.cfg = s.cfg ∧ u.readY a = s.readY a) 4
    (fun i => forUpTo s.cfg.ls (fun e => storeElement yb q t i e)) s ⟨rfl, rfl⟩
    fun i hi u hu => forUpTo_keeps (P := fun v => v.cfg = s.cfg ∧ v.readY a = s.readY a) s.cfg.ls
      (fun e => storeElement yb q t i e) u hu fun e he v hv => ?_
  · exact this.2
  · refine ⟨hv.1, ?_⟩
    unfold storeElement
    simp only [State.readY_writeY, State.writeY_cfg, hv.1]
    rw [if_neg (ha i hi e he 1 (by omega)), if_neg (by simpa using ha i hi e he 0 (by omega))]
    exact hv.2

/-- BUFST changes nothing but YMEM. -/
theorem bufst_eq (yb q t : Nat) (s : State) : bufst yb q t s = { s with ymem := (bufst yb q t s).ymem } := by
  unfold bufst
  refine forUpTo_keeps (P := fun u => u = { s with ymem := u.ymem }) _ _ _ rfl fun i _ u hu => ?_
  refine forUpTo_keeps (P := fun v => v = { s with ymem := v.ymem }) _ _ _ hu fun e _ v hv => ?_
  rw [hv]; rfl

end Sys2Proof.Machine
end

