-- ==== Sys2Proof/Laws/Values.lean ====
section
/-! SUPPORT. What the recursion computes: REC and RECT leave, up to NaN patterns, the values of `recValues` (R150, R155,
R157, R170). One lemma for a run of COMBINEs over one memory carries both variants. -/

namespace Sys2Proof.Machine

/-- The words of different groups of one frame are different words (R142). -/
theorem strided_inj {b st e q c e' q' c' : Nat} (he : e < st) (he' : e' < st) (hc : c < 2) (hc' : c' < 2)
    (h : strided (b + 2 * e) st q c = strided (b + 2 * e') st q' c') : e = e' ∧ q = q' ∧ c = c' := by
  unfold strided at h
  have hcc : c = c' := by
    have h1 : 2 * q * st = 2 * (q * st) := mul_assoc _ _ _
    have h2 : 2 * q' * st = 2 * (q' * st) := mul_assoc _ _ _
    omega
  have h1 : st * q + e = st * q' + e' := by
    have h1 : 2 * q * st = 2 * (st * q) := by ring
    have h2 : 2 * q' * st = 2 * (st * q') := by ring
    omega
  have hq : q = q' := by
    have d1 : (st * q + e) / st = q := by rw [Nat.mul_add_div (by omega), Nat.div_eq_of_lt he, Nat.add_zero]
    have d2 : (st * q' + e') / st = q' := by rw [Nat.mul_add_div (by omega), Nat.div_eq_of_lt he', Nat.add_zero]
    rw [← d1, h1, d2]
  subst hq
  exact ⟨by omega, rfl, hcc⟩

/-- What group `j`'s four samples at base `b`, stride `st`, of a memory read through `read`, combine to, with the table
words read through `table` (R139). -/
def groupValues (read table : Nat → FWord) (b st j : Nat) : Oct FWord :=
  combineValues binary64 0 (gather read b st) (gatherTable table j)

/-- The two memories of a COMBINE: the other one is left. -/
def State.otherMem (s : State) : DataMem → Mem
  | .ymem => s.buf
  | .buf => s.ymem

/-- After `l` passes of a run of COMBINEs. -/
structure CombinedUpTo (m : DataMem) (b st n : Nat) (g : Nat → Nat) (s : State) (l : Nat) (u : State) : Prop where
  control : s.SameControl u
  other : u.otherMem m = s.otherMem m
  combined : ∀ e < l, ∀ q < 4, ∀ c < 2, sameWord (u.readD m (strided (b + 2 * e) st q c))
    ((groupValues (s.readD m) (s.romWord (n - 2)) (b + 2 * e) st (g e)).word (2 * q + c))
  rest : ∀ a, (∀ e < l, ∀ q < 4, ∀ c < 2, a ≠ strided (b + 2 * e) st q c) → u.readD m a = s.readD m a

theorem gather_congr {F : Type} {read read' : Nat → F} {b st : Nat}
    (h : ∀ q < 4, ∀ c < 2, read (strided b st q c) = read' (strided b st q c)) : gather read b st = gather read' b st := by
  unfold gather
  rw [h 0 (by omega) 0 (by omega), h 0 (by omega) 1 (by omega), h 1 (by omega) 0 (by omega), h 1 (by omega) 1 (by omega),
    h 2 (by omega) 0 (by omega), h 2 (by omega) 1 (by omega), h 3 (by omega) 0 (by omega), h 3 (by omega) 1 (by omega)]

/-- A run of COMBINEs on the groups `0 .. l-1` of one frame combines each group's own samples (R142). -/
theorem combineRun (m : DataMem) (b st n : Nat) (g : Nat → Nat) (l : Nat) (s : State) (hl : l ≤ st) :
    CombinedUpTo m b st n g s l (forUpTo l (fun e => combine m (b + 2 * e) st n (g e)) s) := by
  refine forUpTo_invariant (P := fun k u => CombinedUpTo m b st n g s k u) l _ s ?_ ?_
  · exact ⟨rfl, rfl, fun e he => by omega, fun a _ => rfl⟩
  · intro k hk u hu
    have hst : 1 ≤ st := by omega
    refine ⟨hu.control.trans (combine_control _ _ _ _ _ _), ?_, fun e he q hq c hc => ?_, fun a ha => ?_⟩
    · rw [← hu.other]
      cases m
      · exact combine_ymem_buf _ _ _ _ _
      · exact combine_buf_ymem _ _ _ _ _
    · by_cases hek : e = k
      · subst hek
        rw [combine_readD m _ st n _ u hst q c hq hc]
        have hg : gather (u.readD m) (b + 2 * e) st = gather (s.readD m) (b + 2 * e) st :=
          gather_congr fun q' hq' c' hc' => hu.rest _ fun e' he' q'' _ c'' hc'' heq => by
            have := strided_inj (by omega) (by omega) hc' hc'' heq
            omega
        unfold combineResult groupValues
        rw [hg, hu.control.romWord]
        exact (SameOct.combineValues (SameOct.refl _) _ _ _).word _
      · rw [combine_readD_other m _ st n _ u _ fun q' hq' c' hc' heq => by
          have := strided_inj (by omega) (by omega) hc hc' heq
          omega]
        exact hu.combined e (by omega) q hq c hc
    · rw [combine_readD_other m _ st n _ u a fun q' hq' c' hc' => ha k (by omega) q' hq' c' hc']
      exact hu.rest a fun e he => ha e (by omega)

/-- The groups `lo .. hi-1` of the frame at `yb` with quarter `Q = 4^m` have been combined, the rest of YMEM is as it
was. -/
structure FrameCombined (m yb lo hi : Nat) (s u : State) : Prop where
  control : s.SameControl u
  combined : ∀ k, lo ≤ k → k < hi → ∀ q < 4, ∀ c < 2, sameWord (u.readY (strided (yb + 2 * k) (4 ^ m) q c))
    ((groupValues s.readY (s.romWord (m - 1)) (yb + 2 * k) (4 ^ m) k).word (2 * q + c))
  rest : ∀ a, (∀ k, lo ≤ k → k < hi → ∀ q < 4, ∀ c < 2, a ≠ strided (yb + 2 * k) (4 ^ m) q c) →
    u.readY a = s.readY a

/-- The plain combine phase combines every group (R150). -/
theorem combinePlain_frame (m yb : Nat) (s : State) : FrameCombined m yb 0 (4 ^ m) s (combinePlain m yb s) := by
  have h := combineRun .ymem yb (4 ^ m) (m + 1) (fun j => j) (4 ^ m) s (le_refl _)
  exact ⟨h.control, fun k _ hk q hq c hc => h.combined k hk q hq c hc,
    fun a ha => h.rest a fun e he => ha e (Nat.zero_le e) he⟩

/-- A slot of BUF as a strided element (R156). -/
theorem strided_bufSlot (ls i e c : Nat) : strided (0 + 2 * e) ls i c = bufSlot ls i e + c := by
  unfold strided bufSlot; ring

/-- A tile slot as a strided element of the frame (R156). -/
theorem strided_tileSlot (ls yb q t i e c : Nat) : strided (yb + 2 * (t * ls + e)) q i c = tileSlot ls yb q t i e + c := by
  unfold strided tileSlot; ring

/-- One tile combines its own groups, through BUF (R157). -/
theorem combineTile_frame (m yb t : Nat) (s : State) (ht : t < 4 ^ m / s.cfg.ls) :
    FrameCombined m yb (t * s.cfg.ls) (t * s.cfg.ls + s.cfg.ls) s (combineTile m yb t s) := by
  have hpos : 0 < s.cfg.ls := by
    rcases Nat.eq_zero_or_pos s.cfg.ls with h | h
    · rw [h, Nat.div_zero] at ht; omega
    · exact h
  have hle : s.cfg.ls ≤ 4 ^ m := by
    have h1 : (t + 1) * s.cfg.ls ≤ 4 ^ m := Nat.mul_le_of_le_div _ _ _ (Nat.succ_le_of_lt ht)
    have h2 : 1 * s.cfg.ls ≤ (t + 1) * s.cfg.ls := Nat.mul_le_mul_right _ (by omega)
    rw [Nat.one_mul] at h2
    exact h2.trans h1
  set s1 := bufld yb (4 ^ m) t s with hs1
  have hb1 := bufld_eq yb (4 ^ m) t s
  have hc1 : s.SameControl s1 := by
    unfold State.SameControl; rw [← hs1] at hb1; rw [hb1]
  have hy1 : s1.readY = s.readY := (bufld_loaded yb (4 ^ m) t s).readY
  have run := combineRun .buf 0 s.cfg.ls (m + 1) (fun e => t * s.cfg.ls + e) s.cfg.ls s1 (le_refl _)
  have hrun : combineTile m yb t s = bufst yb (4 ^ m) t
      (forUpTo s.cfg.ls (fun e => combine .buf (0 + 2 * e) s.cfg.ls (m + 1) (t * s.cfg.ls + e)) s1) := by
    unfold combineTile
    simp only [Nat.zero_add, hs1]
  rw [hrun]
  set s2 := forUpTo s.cfg.ls (fun e => combine .buf (0 + 2 * e) s.cfg.ls (m + 1) (t * s.cfg.ls + e)) s1 with hs2
  have hc2 : s.SameControl s2 := hc1.trans run.control
  have hls2 : s2.cfg.ls = s.cfg.ls := by rw [hc2.cfg]
  have hy2 : s2.readY = s.readY := by
    rw [← hy1]; funext a
    have ho : s2.ymem = s1.ymem := run.other
    simp only [State.readY, ho, run.control.epoch]
  have hc3 : s.SameControl (bufst yb (4 ^ m) t s2) := by
    refine hc2.trans ?_
    have := bufst_eq yb (4 ^ m) t s2
    unfold State.SameControl; rw [this]
  refine ⟨hc3, fun k hk1 hk2 q hq c hc => ?_, fun a ha => ?_⟩
  · obtain ⟨e, rfl⟩ : ∃ e, k = t * s.cfg.ls + e := ⟨k - t * s.cfg.ls, by omega⟩
    have he : e < s.cfg.ls := by omega
    rw [strided_tileSlot s.cfg.ls]
    have hst := bufst_readY yb (4 ^ m) t s2 (by rw [hls2]; exact hle) q e c hq (by rw [hls2]; exact he) hc
    rw [hls2] at hst
    rw [hst, ← strided_bufSlot]
    have hcomb := run.combined e he q hq c hc
    have hgather : gather (s1.readD .buf) (0 + 2 * e) s.cfg.ls =
        gather s.readY (yb + 2 * (t * s.cfg.ls + e)) (4 ^ m) := by
      have hslot : ∀ i < 4, ∀ c < 2, s1.readD .buf (strided (0 + 2 * e) s.cfg.ls i c) =
          s.readY (strided (yb + 2 * (t * s.cfg.ls + e)) (4 ^ m) i c) := by
        intro i hi c hc
        rw [strided_bufSlot, strided_tileSlot]
        exact bufld_readB yb (4 ^ m) t s i e c hi he hc
      unfold gather
      rw [hslot 0 (by omega) 0 (by omega), hslot 0 (by omega) 1 (by omega), hslot 1 (by omega) 0 (by omega),
        hslot 1 (by omega) 1 (by omega), hslot 2 (by omega) 0 (by omega), hslot 2 (by omega) 1 (by omega),
        hslot 3 (by omega) 0 (by omega), hslot 3 (by omega) 1 (by omega)]
    unfold groupValues at hcomb ⊢
    rw [hgather, hc1.romWord] at hcomb
    exact hcomb
  · rw [bufst_readY_other yb (4 ^ m) t s2 a ?_, hy2]
    intro i hi e he c hc
    rw [hls2] at he ⊢
    rw [← strided_tileSlot]
    exact ha _ (by omega) (by omega) i hi c hc

/-- The buffered combine phase combines every group, when the chunk length divides the quarter (R155, R167). -/
theorem combineTiled_frame (m yb : Nat) (s : State) (hdvd : s.cfg.ls ∣ 4 ^ m) :
    FrameCombined m yb 0 (4 ^ m) s (combineTiled m yb s) := by
  have key : FrameCombined m yb 0 (4 ^ m / s.cfg.ls * s.cfg.ls) s (combineTiled m yb s) := by
    unfold combineTiled
    refine forUpTo_invariant (P := fun t u => FrameCombined m yb 0 (t * s.cfg.ls) s u) _ _ s
      ⟨rfl, fun k _ hk => by omega, fun a _ => rfl⟩ ?_
    intro t ht u hu
    have hls : u.cfg.ls = s.cfg.ls := by rw [hu.control.cfg]
    have htile := combineTile_frame m yb t u (by rw [hls]; exact ht)
    rw [hls] at htile
    have hend : t * s.cfg.ls + s.cfg.ls ≤ 4 ^ m := by
      have := Nat.mul_le_of_le_div _ _ _ (Nat.succ_le_of_lt ht)
      rw [← Nat.succ_mul]; exact this
    have hinj : ∀ {k k' q q' c c'}, k < 4 ^ m → k' < 4 ^ m → c < 2 → c' < 2 →
        strided (yb + 2 * k) (4 ^ m) q c = strided (yb + 2 * k') (4 ^ m) q' c' → k = k' :=
      fun h1 h2 h3 h4 h => (strided_inj h1 h2 h3 h4 h).1
    rw [Nat.succ_mul]
    refine ⟨hu.control.trans htile.control, fun k _ hk q hq c hc => ?_, fun a ha => ?_⟩
    · by_cases hkt : k < t * s.cfg.ls
      · rw [htile.rest _ fun k' hk1 hk2 q' hq' c' hc' heq => by
          have := hinj (by omega) (by omega) hc hc' heq
          omega]
        exact hu.combined k (by omega) hkt q hq c hc
      · have h := htile.combined k (by omega) hk q hq c hc
        have hg : gather u.readY (yb + 2 * k) (4 ^ m) = gather s.readY (yb + 2 * k) (4 ^ m) :=
          gather_congr fun q' hq' c' hc' => hu.rest _ fun k' _ hk2 q'' _ c'' hc'' heq => by
            have := hinj (by omega) (by omega) hc' hc'' heq
            omega
        unfold groupValues at h ⊢
        rw [hg, hu.control.romWord] at h
        exact h
    · rw [htile.rest a fun k hk1 hk2 => ha k (by omega) (by omega)]
      exact hu.rest a fun k _ hk2 => ha k (by omega) (by omega)
  rwa [Nat.div_mul_cancel hdvd] at key

/-- After the divide phase quarter `j` of the output range holds the values of branch `j`, for every `j < l`. -/
structure Divided (m yb xb st : Nat) (s : State) (l : Nat) (u : State) : Prop where
  control : s.SameControl u
  values : ∀ j < l, ∀ a < 2 * 4 ^ m, sameWord (u.readY (yb + 2 * 4 ^ m * j + a))
    (recValues binary64 s.romWord s.readX m (xb + 2 * st * j) (4 * st) a)

/-- The divide phase (R150, R155), for any recursion `f` that computes the values and keeps to its range. -/
theorem divide_phase (m yb xb st : Nat) (s : State) (f : Nat → State → State)
    (hf : ∀ j < 4, ∀ u, s.SameControl u → (Touches (yb + 2 * 4 ^ m * j) (yb + 2 * 4 ^ m * j + 2 * 4 ^ m) u (f j u) ∧
      ∀ a < 2 * 4 ^ m, sameWord ((f j u).readY (yb + 2 * 4 ^ m * j + a))
        (recValues binary64 u.romWord u.readX m (xb + 2 * st * j) (4 * st) a))) :
    Divided m yb xb st s 4 (forUpTo 4 f s) := by
  refine forUpTo_invariant (P := fun l u => Divided m yb xb st s l u) 4 f s ⟨rfl, fun j hj => by omega⟩ ?_
  intro l hl u hu
  obtain ⟨ht, hv⟩ := hf l hl u hu.control
  refine ⟨hu.control.trans ht.control, fun j hj a ha => ?_⟩
  by_cases hjl : j = l
  · subst hjl
    have := hv a ha
    rwa [hu.control.romWord, hu.control.readX] at this
  · have hjl' : j + 1 ≤ l := by omega
    have hmul : 4 ^ m * (j + 1) ≤ 4 ^ m * l := Nat.mul_le_mul_left _ hjl'
    rw [ht.readY _ (Or.inl (by rw [mul_assoc 2 _ j, mul_assoc 2 _ l]; rw [Nat.mul_add, Nat.mul_one] at hmul; omega))]
    exact hu.values j (by omega) a ha

/-- A divided frame whose groups are then combined holds the values of the recursion one level up (R143, R150). -/
theorem frame_values (m yb xb st : Nat) (s u v : State) (hd : Divided (m + 1) yb xb st s 4 u)
    (hc : FrameCombined (m + 1) yb 0 (4 ^ (m + 1)) u v) (a : Nat) (ha : a < 2 * 4 ^ (m + 2)) :
    sameWord (v.readY (yb + a)) (recValues binary64 s.romWord s.readX (m + 2) xb st a) := by
  have hq : 0 < 4 ^ (m + 1) := Nat.pos_of_ne_zero (by positivity)
  have hk : a / 2 % 4 ^ (m + 1) < 4 ^ (m + 1) := Nat.mod_lt _ hq
  have hdiv : a / 2 / 4 ^ (m + 1) < 4 := by
    apply Nat.div_lt_of_lt_mul
    rw [pow_succ 4 (m + 1)] at ha
    omega
  have haddr : yb + a = strided (yb + 2 * (a / 2 % 4 ^ (m + 1))) (4 ^ (m + 1)) (a / 2 / 4 ^ (m + 1)) (a % 2) := by
    unfold strided
    have h1 := Nat.mod_add_div (a / 2) (4 ^ (m + 1))
    have h2 : 2 * (a / 2 / 4 ^ (m + 1)) * 4 ^ (m + 1) = 2 * (4 ^ (m + 1) * (a / 2 / 4 ^ (m + 1))) := by ring
    omega
  have h := hc.combined _ (Nat.zero_le _) hk _ hdiv (a % 2) (Nat.mod_lt _ (by omega))
  rw [← haddr] at h
  refine h.trans ?_
  simp only [recValues]
  unfold groupValues
  rw [hd.control.romWord]
  refine SameOct.word (SameOct.combineValues ?_ _ _ _) _
  have hsub : ∀ i < 4, ∀ c < 2, sameWord
      (u.readY (strided (yb + 2 * (a / 2 % 4 ^ (m + 1))) (4 ^ (m + 1)) i c))
      (recValues binary64 s.romWord s.readX (m + 1) (xb + 2 * st * i) (4 * st) (2 * (a / 2 % 4 ^ (m + 1)) + c)) := by
    intro i hi c hc
    have := hd.values i hi (2 * (a / 2 % 4 ^ (m + 1)) + c) (by omega)
    have he : strided (yb + 2 * (a / 2 % 4 ^ (m + 1))) (4 ^ (m + 1)) i c =
        yb + 2 * 4 ^ (m + 1) * i + (2 * (a / 2 % 4 ^ (m + 1)) + c) := by
      unfold strided; ring
    rw [he]; exact this
  exact ⟨hsub 0 (by omega) 0 (by omega), hsub 0 (by omega) 1 (by omega), hsub 1 (by omega) 0 (by omega),
    hsub 1 (by omega) 1 (by omega), hsub 2 (by omega) 0 (by omega), hsub 2 (by omega) 1 (by omega),
    hsub 3 (by omega) 0 (by omega), hsub 3 (by omega) 1 (by omega)⟩

/-- REC computes `recValues` (R150). -/
theorem recPlain_values (n yb xb st : Nat) (s : State) (a : Nat) (ha : a < 2 * 4 ^ (n + 1)) :
    sameWord ((recPlain (n + 1) yb xb st s).readY (yb + a))
      (recValues binary64 s.romWord s.readX (n + 1) xb st a) := by
  induction n generalizing yb xb st s a with
  | zero =>
    simp only [recPlain, recValues]
    rw [bfly4_readY yb xb st s a (by omega)]
    exact (SameOct.core4 (SameOct.refl _) _ _).word _
  | succ m ih =>
    simp only [recPlain]
    refine frame_values m yb xb st s _ _ (divide_phase (m + 1) yb xb st s _ fun j hj u hu => ⟨?_, ?_⟩)
      (combinePlain_frame (m + 1) yb _) a ha
    · exact recPlain_touches (m + 1) _ _ _ u
    · exact fun a ha => ih _ _ _ u a ha

/-- RECT computes `recValues` too (R155, R170), when every buffered frame's quarter is a whole number of chunks (R167). -/
theorem recTiled_values (th : Nat) (hth : 4 ≤ th) (n yb xb st : Nat) (s : State)
    (hdvd : ∀ m, th < 4 ^ (m + 1) → s.cfg.ls ∣ 4 ^ m) (a : Nat) (ha : a < 2 * 4 ^ (n + 1)) :
    sameWord ((recTiled th (n + 1) yb xb st s).readY (yb + a))
      (recValues binary64 s.romWord s.readX (n + 1) xb st a) := by
  induction n generalizing yb xb st s a with
  | zero =>
    simp only [recTiled]
    rw [if_pos (by simpa using hth)]
    exact recPlain_values 0 yb xb st s a ha
  | succ m ih =>
    rw [recTiled]
    split
    · exact recPlain_values (m + 1) yb xb st s a ha
    · rename_i hlt
      have hd := divide_phase (m + 1) yb xb st s
        (fun j => recTiled th (m + 1) (yb + 2 * 4 ^ (m + 1) * j) (xb + 2 * st * j) (4 * st))
        fun j hj u hu => ⟨recTiled_touches th (m + 1) _ _ _ u,
          fun a ha => ih _ _ _ u (by rw [hu.cfg]; exact hdvd) a ha⟩
      refine frame_values m yb xb st s _ _ hd (combineTiled_frame (m + 1) yb _ ?_) a ha
      rw [hd.control.cfg]
      exact hdvd (m + 1) (by omega)

end Sys2Proof.Machine
end

