-- ==== Sys2Proof/Laws/Trace.lean ====
section
/-! SUPPORT. The recursion as the composition of its trace (R160), and that every micro-operation of a trace passes its
checks (R167). -/

namespace Sys2Proof.Machine

/-- The effect of a micro-operation whose checks hold; a command or a TWRD or CMUL is not in a trace. -/
def applyMicro (i : Instr) (s : State) : State :=
  match i with
  | .bfly4 yb xb st => bfly4 yb xb st s
  | .combine m base st n j => combine m base st n j s
  | .bufld yb q t => bufld yb q t s
  | .bufst yb q t => bufst yb q t s
  | .initTw => s
  | .xform => s
  | .xformT => s
  | .cmul _ _ _ _ => s
  | .twrd _ _ => s

/-- The four kinds of operation a trace holds (R160). -/
def isTraceOp : Instr → Bool
  | .bfly4 _ _ _ => true
  | .combine _ _ _ _ _ => true
  | .bufld _ _ _ => true
  | .bufst _ _ _ => true
  | .initTw => false
  | .xform => false
  | .xformT => false
  | .cmul _ _ _ _ => false
  | .twrd _ _ => false

/-- The operations of a trace applied in order. -/
def applyTrace (tr : List Instr) (s : State) : State := tr.foldl (fun u i => applyMicro i u) s

theorem applyTrace_append (l1 l2 : List Instr) (s : State) :
    applyTrace (l1 ++ l2) s = applyTrace l2 (applyTrace l1 s) := List.foldl_append

theorem applyTrace_single (i : Instr) (s : State) : applyTrace [i] s = applyMicro i s := rfl

theorem applyMicro_control (i : Instr) (s : State) : s.SameControl (applyMicro i s) := by
  cases i
  case bfly4 yb xb st => exact (bfly4_touches yb xb st s).control
  case combine m base st n j => exact combine_control m base st n j s
  case bufld yb q t => exact (bufld_touches 0 0 yb q t s).control
  case bufst yb q t => exact (bufst_touches yb q t s).control
  all_goals rfl

theorem applyTrace_control (tr : List Instr) (s : State) : s.SameControl (applyTrace tr s) := by
  induction tr generalizing s with
  | nil => rfl
  | cons i tr ih => exact (applyMicro_control i s).trans (ih _)

/-- A loop is the composition of the traces of its passes, when each pass is, in states with the same control. -/
theorem applyTrace_listUpTo (n : Nat) (f : Nat → List Instr) (g : Nat → State → State) (s : State)
    (h : ∀ i < n, ∀ u, s.SameControl u → applyTrace (f i) u = g i u) :
    applyTrace (listUpTo n f) s = forUpTo n g s ∧ s.SameControl (forUpTo n g s) := by
  induction n with
  | zero => exact ⟨rfl, rfl⟩
  | succ n ih =>
    obtain ⟨h1, h2⟩ := ih fun i hi => h i (Nat.lt_succ_of_lt hi)
    simp only [listUpTo, forUpTo, applyTrace_append, h1]
    have h3 := h n (Nat.lt_succ_self n) _ h2
    refine ⟨h3, h2.trans ?_⟩
    rw [← h3]
    exact applyTrace_control _ _

/-- REC is the composition of its trace (R160). -/
theorem recPlain_trace (n yb xb st : Nat) (s : State) :
    applyTrace (tracePlain n yb xb st) s = recPlain n yb xb st s := by
  induction n generalizing yb xb st s with
  | zero => rfl
  | succ n ih =>
    cases n with
    | zero => rfl
    | succ m =>
      simp only [tracePlain, recPlain, applyTrace_append]
      rw [(applyTrace_listUpTo 4 _ _ s fun j hj u _ => ih _ _ _ u).1]
      unfold combinePlain
      exact (applyTrace_listUpTo _ _ _ _ fun j hj u _ => rfl).1

/-- RECT is the composition of its trace (R160). -/
theorem recTiled_trace (th n yb xb st : Nat) (s : State) :
    applyTrace (traceTiled s.cfg.ls th n yb xb st) s = recTiled th n yb xb st s := by
  induction n generalizing yb xb st s with
  | zero => rfl
  | succ m ih =>
    simp only [traceTiled, recTiled]
    split
    · exact recPlain_trace _ _ _ _ _
    · rw [applyTrace_append]
      obtain ⟨h1, h2⟩ := applyTrace_listUpTo 4
        (fun j => traceTiled s.cfg.ls th m (yb + 2 * 4 ^ m * j) (xb + 2 * st * j) (4 * st))
        (fun j => recTiled th m (yb + 2 * 4 ^ m * j) (xb + 2 * st * j) (4 * st)) s
        fun j hj u hu => by have := ih (yb + 2 * 4 ^ m * j) (xb + 2 * st * j) (4 * st) u; rwa [hu.cfg] at this
      rw [h1]
      unfold combineTiled
      rw [h2.cfg]
      refine (applyTrace_listUpTo _ _ _ _ fun t ht u hu => ?_).1
      have hls : u.cfg.ls = s.cfg.ls := by rw [hu.cfg, h2.cfg]
      rw [applyTrace_append, applyTrace_append, applyTrace_single, applyTrace_single]
      unfold combineTile
      simp only [applyMicro, hls]
      rw [(applyTrace_listUpTo s.cfg.ls _
        (fun e => combine .buf (2 * e) s.cfg.ls (m + 1) (t * s.cfg.ls + e)) _ fun e he v hv => rfl).1]

/-- A trace micro-operation that passes its checks has its effect. -/
theorem exec_of_microOk (i : Instr) (s : State) (ht : isTraceOp i = true) (h : microOk s i = true) :
    exec i s = .next (applyMicro i s) := by
  cases i <;> simp only [isTraceOp, Bool.false_eq_true] at ht <;> simp only [microOk, Bool.and_eq_true] at h <;>
    simp [exec, execBfly4, execCombine, execBufld, execBufst, applyMicro, h]

theorem microOk_control (i : Instr) (s u : State) (h : s.SameControl u) : microOk u i = microOk s i := by
  have hc := h.cfg
  have ht := h.twn
  cases i <;> simp only [microOk, State.leafSourceOk, State.leafTargetOk, State.combineOk, State.tileOk,
    State.tableIndexOk, hc, ht]

/-- A trace whose operations all pass their checks runs to the composition of their effects (R160, R167). -/
theorem runTrace_of_microOk (tr : List Instr) (s : State) (ht : ∀ i ∈ tr, isTraceOp i = true)
    (h : ∀ i ∈ tr, microOk s i = true) : runTrace tr s = .next (applyTrace tr s) := by
  induction tr generalizing s with
  | nil => rfl
  | cons i tr ih =>
    simp only [runTrace]
    rw [exec_of_microOk i s (ht i (by simp)) (h i (by simp))]
    exact ih _ (fun i hi => ht i (by simp [hi])) fun i' hi' => by
      rw [microOk_control i' s _ (applyMicro_control i s)]; exact h i' (by simp [hi'])

theorem mem_listUpTo (n : Nat) (f : Nat → List Instr) (i : Instr) :
    i ∈ listUpTo n f ↔ ∃ k < n, i ∈ f k := by
  induction n with
  | zero => simp [listUpTo]
  | succ n ih =>
    simp only [listUpTo, List.mem_append, ih]
    constructor
    · rintro (⟨k, hk, h⟩ | h)
      · exact ⟨k, by omega, h⟩
      · exact ⟨n, by omega, h⟩
    · rintro ⟨k, hk, h⟩
      by_cases hkn : k = n
      · subst hkn; exact Or.inr h
      · exact Or.inl ⟨k, by omega, h⟩

/-- The operands of a frame are in range (R166, R167): its output range is inside YMEM, its strided input inside XMEM,
its levels enabled. -/
structure FrameFits (s : State) (n yb xb st : Nat) : Prop where
  out : yb + 2 * 4 ^ n ≤ s.cfg.sampleWords
  inp : xb + 2 * st * (4 ^ n - 1) + 1 < s.cfg.sampleWords
  table : s.twn.toNat ≠ 0
  level : n ≤ log4 s.twn.toNat

/-- A child's operands are in range when its parent's are (R166). -/
theorem FrameFits.child {s : State} {m yb xb st : Nat} (h : FrameFits s (m + 1) yb xb st) (j : Nat) (hj : j < 4) :
    FrameFits s m (yb + 2 * 4 ^ m * j) (xb + 2 * st * j) (4 * st) := by
  have hp : 0 < 4 ^ m := Nat.pos_of_ne_zero (by positivity)
  refine ⟨?_, ?_, h.table, by have := h.level; omega⟩
  · have h1 := h.out
    have : 4 ^ m * j ≤ 4 ^ m * 3 := Nat.mul_le_mul_left _ (by omega)
    rw [pow_succ] at h1
    rw [mul_assoc 2]; omega
  · have h1 := h.inp
    have e1 : 2 * st * j + 2 * (4 * st) * (4 ^ m - 1) = 2 * st * (j + 4 * (4 ^ m - 1)) := by ring
    have e2 : 2 * st * (j + 4 * (4 ^ m - 1)) ≤ 2 * st * (4 ^ (m + 1) - 1) := by
      apply Nat.mul_le_mul_left
      rw [pow_succ]; omega
    omega

/-- No index of a plain frame's trace is out of range (R167). -/
theorem tracePlain_ok (n yb xb st : Nat) (s : State) (h : FrameFits s n yb xb st) (i : Instr)
    (hi : i ∈ tracePlain n yb xb st) : isTraceOp i = true ∧ microOk s i = true := by
  induction n generalizing yb xb st with
  | zero => simp [tracePlain] at hi
  | succ n ih =>
    cases n with
    | zero =>
      simp only [tracePlain, List.mem_singleton] at hi
      subst hi
      have h1 := h.out
      have h2 := h.inp
      simp only [isTraceOp, microOk, State.leafSourceOk, State.leafTargetOk, Bool.and_eq_true, decide_eq_true_eq,
        true_and]
      norm_num at h1 h2
      omega
    | succ m =>
      simp only [tracePlain, List.mem_append, mem_listUpTo, List.mem_singleton] at hi
      rcases hi with ⟨j, hj, hi⟩ | ⟨j, hj, rfl⟩
      · exact ih _ _ _ (h.child j hj) hi
      · have h1 := h.out
        have h3 := h.level
        have h4 := h.table
        rw [pow_succ 4 (m + 1)] at h1
        simp only [isTraceOp, microOk, State.combineOk, dataWords, Bool.and_eq_true, decide_eq_true_eq, true_and]
        refine ⟨⟨⟨by omega, h4, by omega⟩, ?_⟩, ?_⟩
        · simpa using hj
        · exact decide_eq_true (by omega)

/-- No index of a tiled frame's trace is out of range (R167). -/
theorem traceTiled_ok (th : Nat) (hth : 4 ≤ th) (n yb xb st : Nat) (s : State) (h : FrameFits s n yb xb st) (i : Instr)
    (hi : i ∈ traceTiled s.cfg.ls th n yb xb st) : isTraceOp i = true ∧ microOk s i = true := by
  induction n generalizing yb xb st with
  | zero => simp [traceTiled] at hi
  | succ m ih =>
    simp only [traceTiled] at hi
    split at hi
    · exact tracePlain_ok _ _ _ _ s h i hi
    · rename_i hlt
      have hm : 1 ≤ m := by
        by_contra hm
        have : m = 0 := by omega
        subst this
        norm_num at hlt
        omega
      simp only [List.mem_append, mem_listUpTo, List.mem_singleton] at hi
      rcases hi with ⟨j, hj, hi⟩ | ⟨t, ht, hi⟩
      · exact ih _ _ _ (h.child j hj) hi
      · have h1 := h.out
        have h3 := h.level
        have h4 := h.table
        have hle : (t + 1) * s.cfg.ls ≤ 4 ^ m := Nat.mul_le_of_le_div _ _ _ (Nat.succ_le_of_lt ht)
        rw [Nat.succ_mul] at hle
        rw [pow_succ 4 m] at h1
        rcases hi with (rfl | ⟨e, he, rfl⟩) | rfl
        · simp only [isTraceOp, microOk, State.tileOk, decide_eq_true_eq, true_and]; omega
        · simp only [isTraceOp, microOk, State.combineOk, dataWords, Cfg.bufWords, Bool.and_eq_true,
            decide_eq_true_eq, true_and]
          refine ⟨⟨⟨by omega, h4, by omega⟩, ?_⟩, decide_eq_true (by omega)⟩
          have : m + 1 - 1 = m := by omega
          rw [this]; omega
        · simp only [isTraceOp, microOk, State.tileOk, decide_eq_true_eq, true_and]; omega

/-- `log4` of a power of 4 (R9). -/
theorem log4_pow (m : Nat) : log4 (4 ^ m) = m := by
  unfold log4
  have : (4 : Nat) ^ m = 2 ^ (2 * m) := by rw [pow_mul]; norm_num
  rw [this, Nat.log2_two_pow]
  omega

/-- `P4` holds exactly of the powers of 4 from 4 up (R101). -/
theorem P4_iff (v : Int) : P4 v = true ↔ ∃ m, 1 ≤ m ∧ v = 4 ^ m := by
  unfold P4
  simp only [Bool.and_eq_true, decide_eq_true_eq]
  constructor
  · rintro ⟨h1, h2⟩
    refine ⟨log4 v.toNat, ?_, ?_⟩
    · by_contra h
      have h0 : log4 v.toNat = 0 := by omega
      rw [h0] at h2
      norm_num at h2
      omega
    · have : ((v.toNat : Nat) : Int) = v := Int.toNat_of_nonneg (by omega)
      rw [← this]
      conv_lhs => rw [h2]
      push_cast
      rfl
  · rintro ⟨m, hm, rfl⟩
    have ht : ((4 : Int) ^ m).toNat = 4 ^ m := by
      have : (4 : Int) ^ m = ((4 ^ m : Nat) : Int) := by push_cast; rfl
      rw [this, Int.toNat_natCast]
    refine ⟨?_, ?_⟩
    · calc (4 : Int) = 4 ^ 1 := by norm_num
        _ ≤ 4 ^ m := pow_le_pow_right₀ (by norm_num) hm
    · rw [ht, log4_pow]

end Sys2Proof.Machine
end

