-- ==== Sys2Proof/Laws/Step.lean ====
section
/-! SUPPORT. What an operation, an event and a step can do, said once: the inversion lemmas that later proofs cite in place
of unfolding `exec`, `accept` and `step`. -/

namespace Sys2Proof.Machine

/-- Everything an operation can do when it gives a next state: raise an error, or its effect under its checks. -/
inductive Ran (s : State) : Instr → State → Prop where
  | raised (i : Instr) (c : ErrCode) : Ran s i (s.raise c)
  | initTw (h : s.sizeOk = true) : Ran s .initTw (State.finish { s with twn := s.argN } .ok)
  | xform (h1 : s.sizeOk = true) (h2 : s.tableOk = true) :
      Ran s .xform ((recPlain (log4 s.sizeArg.toNat) 0 0 1 s).finish .ok)
  | xformT (h1 : s.sizeOk = true) (h2 : s.thresholdOk = true) (h3 : s.tableOk = true) :
      Ran s .xformT ((recTiled s.thresholdArg.toNat (log4 s.sizeArg.toNat) 0 0 1 s).finish .ok)
  | bfly4 (yb xb st : Nat) (h1 : s.leafSourceOk xb st = true) (h2 : s.leafTargetOk yb = true) :
      Ran s (.bfly4 yb xb st) (Machine.bfly4 yb xb st s)
  | cmul (ar ai br bi : FWord) :
      Ran s (.cmul ar ai br bi) (State.draw { s with
        cr := (complexMul binary64 s.draws ar ai br bi).1
        ci := (complexMul binary64 s.draws ar ai br bi).2 } 6)
  | combine (m : DataMem) (base st n j : Nat) (h : s.combineOk m base st n j = true) :
      Ran s (.combine m base st n j) (Machine.combine m base st n j s)
  | bufld (yb q t : Nat) (h : s.tileOk yb q t = true) : Ran s (.bufld yb q t) (Machine.bufld yb q t s)
  | bufst (yb q t : Nat) (h : s.tileOk yb q t = true) : Ran s (.bufst yb q t) (Machine.bufst yb q t s)
  | twrd (d o : Nat) (h : s.tableIndexOk d o = true) : Ran s (.twrd d o) { s with tw := s.romWord d o }

/-- An operation that gives a next state did one of these. -/
theorem ran_of_exec {i : Instr} {s t : State} (h : exec i s = .next t) : Ran s i t := by
  cases i with
  | initTw =>
    simp only [exec, execInitTw] at h
    split at h <;> cases h
    · exact .initTw ‹_›
    · exact .raised _ _
  | xform =>
    simp only [exec, execXform] at h
    split at h
    · cases h; exact .raised _ _
    · split at h <;> cases h
      · exact .raised _ _
      · exact .xform (by simpa using ‹¬ (!s.sizeOk) = true›) (by simpa using ‹¬ (!s.tableOk) = true›)
  | xformT =>
    simp only [exec, execXformT] at h
    split at h
    · cases h; exact .raised _ _
    · split at h
      · cases h; exact .raised _ _
      · split at h <;> cases h
        · exact .raised _ _
        · exact .xformT (by simpa using ‹¬ (!s.sizeOk) = true›) (by simpa using ‹¬ (!s.thresholdOk) = true›)
            (by simpa using ‹¬ (!s.tableOk) = true›)
  | bfly4 yb xb st =>
    simp only [exec, execBfly4] at h
    split at h
    · split at h <;> cases h
      exact .bfly4 _ _ _ ‹_› ‹_›
    · cases h
  | cmul ar ai br bi =>
    simp only [exec, execCmul] at h
    cases h
    exact .cmul _ _ _ _
  | combine m base st n j =>
    simp only [exec, execCombine] at h
    split at h <;> cases h
    · exact .combine _ _ _ _ _ ‹_›
    · exact .raised _ _
  | bufld yb q t =>
    simp only [exec, execBufld] at h
    split at h <;> cases h
    exact .bufld _ _ _ ‹_›
  | bufst yb q t =>
    simp only [exec, execBufst] at h
    split at h <;> cases h
    exact .bufst _ _ _ ‹_›
  | twrd d o =>
    simp only [exec, execTwrd] at h
    split at h <;> cases h
    · exact .twrd _ _ ‹_›
    · exact .raised _ _

/-- Everything an event that starts no operation can do. -/
inductive Settled (s : State) : Event → State → Prop where
  | ignored (ev : Event) : Settled s ev s
  | illegal (w : Word32) (h : s.status.busy = false) :
      Settled s (.writeReg 0x00 w) (s.raise .illegalCommand)
  | stored (off : Nat) (w : Word32) (h : s.status.busy = false) :
      Settled s (.writeReg off w) (writeRegister off w s)
  | answered (off : Nat) (h : s.status.busy = false) :
      Settled s (.readReg off) (s.reply (.word (readRegister off s)))
  | answeredBusy (off : Nat) (h : s.status.busy = true) : Settled s (.readReg off) (busyReadRegister off s)
  | wrote (win : Window) (a : Nat) (v : FWord) (h : s.status.busy = false) (ha : a < windowWords s.cfg win) :
      Settled s (.writeMem win a v) (writeWindow win a v s)
  | read (win : Window) (a : Nat) (h : s.status.busy = false) (ha : a < windowWords s.cfg win) :
      Settled s (.readMem win a) (s.reply (.fword (readWindow win a s)))
  | readBusy (win : Window) (a : Nat) (h : s.status.busy = true) (ha : a < windowWords s.cfg win) :
      Settled s (.readMem win a) (busyReadWindow s)
  | reset : Settled s .reset s.resetNow

/-- An event that settled did one of these. -/
theorem settled_of_accept {ev : Event} {s t : State} (h : accept ev s = .settled t) : Settled s ev t := by
  cases ev with
  | writeReg off w =>
    simp only [accept] at h
    split at h
    · cases h; exact .ignored _
    · have hb : s.status.busy = false := by simpa using ‹¬ s.status.busy = true›
      split at h
      · subst off
        simp only [writeCommand] at h
        split at h <;> cases h
        exact .illegal _ hb
      · cases h; exact .stored _ _ hb
  | readReg off =>
    simp only [accept] at h
    split at h
    · cases h; exact .ignored _
    · split at h <;> cases h
      · exact .answeredBusy _ ‹_›
      · exact .answered _ (by simpa using ‹¬ s.status.busy = true›)
  | writeMem win a v =>
    simp only [accept] at h
    split at h
    · cases h; exact .ignored _
    · split at h <;> cases h
      · exact .wrote _ _ _ (by simpa using ‹¬ s.status.busy = true›) ‹_›
      · exact .ignored _
  | readMem win a =>
    simp only [accept] at h
    split at h
    · cases h; exact .ignored _
    · have ha : a < windowWords s.cfg win := by omega
      split at h <;> cases h
      · exact .readBusy _ _ ‹_› ha
      · exact .read _ _ (by simpa using ‹¬ s.status.busy = true›) ha
  | issue record =>
    simp only [accept] at h
    split at h <;> cases h
  | reset =>
    simp only [accept] at h
    cases h
    exact .reset

/-- The operation an event starts, and that it runs in the state the event found (R70; log 9). -/
theorem run_of_accept {ev : Event} {s u : State} {i : Instr} (h : accept ev s = .run i u) :
    u = s ∧ ((∃ w, ev = .writeReg 0x00 w ∧ s.status.busy = false ∧ decodeCommand w = .ok i) ∨
      ∃ bs tail, ev = .issue bs ∧ decodeRecord bs = .ok (i, tail)) := by
  cases ev with
  | writeReg off w =>
    simp only [accept] at h
    split at h
    · cases h
    · split at h
      · subst off
        simp only [writeCommand] at h
        split at h <;> cases h
        exact ⟨rfl, .inl ⟨w, rfl, by simpa using ‹¬ s.status.busy = true›, ‹_›⟩⟩
      · cases h
  | readReg off => simp only [accept] at h; split at h <;> [skip; split at h] <;> cases h
  | writeMem win a v => simp only [accept] at h; split at h <;> [skip; split at h] <;> cases h
  | readMem win a => simp only [accept] at h; split at h <;> [skip; split at h] <;> cases h
  | issue record =>
    simp only [accept] at h
    split at h <;> cases h
    exact ⟨rfl, .inr ⟨record, _, rfl, ‹_›⟩⟩
  | reset => simp only [accept] at h; cases h

/-- A record never decodes to a host command (R70, R77). -/
theorem decodeRecord_isCommand {bs tail : List Byte} {i : Instr} (h : decodeRecord bs = .ok (i, tail)) :
    isCommand i = false := by
  cases bs with
  | nil => simp [decodeRecord] at h
  | cons b bs =>
    simp only [decodeRecord] at h
    split at h
    · unfold decodeOperands at h
      split at h <;> (try simp only [bind, Except.bind] at h) <;> (repeat' split at h) <;>
        first | (cases h; rfl) | exact absurd h (by simp)
    · cases h

/-- Everything a step can do. -/
theorem step_cases {s t : State} (h : step s = .next t) :
    (s.events = [] ∧ t = tick s) ∨
    (∃ ev rest, s.events = ev :: rest ∧ Settled { s with events := rest } ev t) ∨
    (∃ ev rest i, s.events = ev :: rest ∧ Ran { s with events := rest } i t ∧
      ((∃ w, ev = .writeReg 0x00 w ∧ s.status.busy = false ∧ decodeCommand w = .ok i) ∨
        ∃ bs tail, ev = .issue bs ∧ decodeRecord bs = .ok (i, tail))) := by
  unfold step at h
  split at h
  · cases h; exact .inl ⟨‹_›, rfl⟩
  · rename_i ev rest he
    split at h
    · rename_i i u ha
      obtain ⟨rfl, hi⟩ := run_of_accept ha
      exact .inr (.inr ⟨ev, rest, i, he, ran_of_exec h, hi⟩)
    · rename_i u ha
      cases h
      exact .inr (.inl ⟨ev, rest, he, settled_of_accept ha⟩)
    · cases h

/-- A host write keeps every memory's canonical form and size (R61, R63). -/
theorem writeWindow_wf (win : Window) (a : Nat) (v : FWord) (s : State) (ha : a < windowWords s.cfg win) :
    (s.xmem.wf = true → (writeWindow win a v s).xmem.wf = true) ∧
    (s.ymem.wf = true → (writeWindow win a v s).ymem.wf = true) ∧
    (s.xmem.below s.cfg.sampleWords = true → (writeWindow win a v s).xmem.below s.cfg.sampleWords = true) ∧
    (s.ymem.below s.cfg.sampleWords = true → (writeWindow win a v s).ymem.below s.cfg.sampleWords = true) ∧
    (writeWindow win a v s).buf = s.buf ∧ (writeWindow win a v s).twrom = s.twrom := by
  cases win with
  | xmem => exact ⟨Mem.wf_set _ _ _, id, Mem.below_set _ _ _ _ ha, id, rfl, rfl⟩
  | ymem => exact ⟨id, Mem.wf_set _ _ _, id, Mem.below_set _ _ _ _ ha, rfl, rfl⟩
  | twrom => exact ⟨id, id, id, id, rfl, rfl⟩

/-- The memories after reset are canonical. -/
theorem resetOf_wf (cfg : Cfg) (rom : Mem) : (State.resetOf cfg rom).xmem.wf = true ∧
    (State.resetOf cfg rom).ymem.wf = true ∧ (State.resetOf cfg rom).buf.wf = true := ⟨rfl, rfl, rfl⟩

end Sys2Proof.Machine
end

