-- ==== Sys2Proof/Laws/Commands.lean ====
section
/-! SUPPORT. The entry checks of a command at a size `4^n` and a threshold `4^k` (R181, R183, R185), the divisibility they
give (R167), and that a plain recursion leaves BUF (R166). -/

namespace Sys2Proof.Machine

/-- A power of 4 as a signed and as a natural number. -/
theorem toNat_pow_four (n : Nat) : ((4 : Int) ^ n).toNat = 4 ^ n := by
  have : (4 : Int) ^ n = ((4 ^ n : Nat) : Int) := by push_cast; rfl
  rw [this, Int.toNat_natCast]

/-- The size check passes at `N = 4^n` up to `N_MAX`, and `log4 N` is `n` (R181, R9). -/
theorem sizeOk_of_pow {s : State} {n : Nat} (h1 : 1 ≤ n) (h2 : n ≤ s.cfg.log4NMax) (h : s.argN.toInt = 4 ^ n) :
    s.sizeOk = true ∧ log4 s.sizeArg.toNat = n := by
  have e : s.sizeArg = 4 ^ n := h
  refine ⟨?_, by rw [e, toNat_pow_four, log4_pow]⟩
  simp only [State.sizeOk, Bool.and_eq_true, decide_eq_true_eq, P4_iff]
  refine ⟨⟨n, h1, e⟩, ?_⟩
  rw [e]
  simp only [Cfg.nMax]
  push_cast
  exact pow_le_pow_right₀ (by norm_num) h2

/-- Conversely, a size that passes is a power of 4 up to `N_MAX` (R181). -/
theorem pow_of_sizeOk {s : State} (h : s.sizeOk = true) :
    ∃ n, 1 ≤ n ∧ n ≤ s.cfg.log4NMax ∧ s.argN.toInt = 4 ^ n := by
  simp only [State.sizeOk, Bool.and_eq_true, decide_eq_true_eq, P4_iff] at h
  obtain ⟨⟨n, h1, e⟩, h2⟩ := h
  refine ⟨n, h1, ?_, e⟩
  rw [e] at h2
  simp only [Cfg.nMax] at h2
  have h3 : 4 ^ n ≤ 4 ^ s.cfg.log4NMax := by exact_mod_cast h2
  exact (Nat.pow_le_pow_iff_right (by norm_num)).mp h3

/-- The table check passes when `TWN = N` (R183). -/
theorem tableOk_of_pow {s : State} {n : Nat} (h : s.argN.toInt = 4 ^ n) (h2 : s.twn.toNat = 4 ^ n) :
    s.tableOk = true := by
  simp only [State.tableOk, State.sizeArg, h, h2, decide_eq_true_eq]
  push_cast
  rfl

/-- Conversely, a table that passes has `TWN = N` (R183). -/
theorem twn_of_tableOk {s : State} {n : Nat} (h : s.argN.toInt = 4 ^ n) (h2 : s.tableOk = true) :
    s.twn.toNat = 4 ^ n := by
  simp only [State.tableOk, State.sizeArg, h, decide_eq_true_eq] at h2
  exact_mod_cast h2

/-- The threshold check passes at `th = 4^k` with `LS <= th` (R181 c, d). -/
theorem thresholdOk_of_pow {s : State} {k : Nat} (hk : 1 ≤ k) (h : s.argTh.toInt = 4 ^ k) (hl : s.cfg.ls ≤ 4 ^ k) :
    s.thresholdOk = true ∧ s.thresholdArg.toNat = 4 ^ k := by
  have e : s.thresholdArg = 4 ^ k := h
  refine ⟨?_, by rw [e, toNat_pow_four]⟩
  simp only [State.thresholdOk, e, Bool.and_eq_true, decide_eq_true_eq, P4_iff]
  exact ⟨⟨k, hk, rfl⟩, by exact_mod_cast hl⟩

/-- Conversely, a threshold that passes is a power of 4 from 4 on, and at least `LS` (R181 c, d). -/
theorem pow_of_thresholdOk {s : State} (h : s.thresholdOk = true) :
    ∃ k, 1 ≤ k ∧ s.argTh.toInt = 4 ^ k ∧ s.cfg.ls ≤ 4 ^ k := by
  simp only [State.thresholdOk, Bool.and_eq_true, decide_eq_true_eq, P4_iff] at h
  obtain ⟨⟨k, hk, e⟩, hl⟩ := h
  refine ⟨k, hk, e, ?_⟩
  rw [e] at hl
  exact_mod_cast hl

/-- A chunk length in range is a power of two (R7 P2). -/
theorem pow_of_valid {c : Cfg} (h : c.valid = true) : ∃ i, c.ls = 2 ^ i := by
  have hv : c.ls = 1 ∨ c.ls = 2 ∨ c.ls = 4 ∨ c.ls = 8 ∨ c.ls = 16 ∨ c.ls = 32 ∨ c.ls = 64 ∨ c.ls = 128 := by
    simp [Cfg.valid] at h; tauto
  rcases hv with h | h | h | h | h | h | h | h
  · exact ⟨0, h⟩
  · exact ⟨1, h⟩
  · exact ⟨2, h⟩
  · exact ⟨3, h⟩
  · exact ⟨4, h⟩
  · exact ⟨5, h⟩
  · exact ⟨6, h⟩
  · exact ⟨7, h⟩

/-- In every buffered frame `LS` divides the quarter length (R155, R167). -/
theorem ls_dvd_quarter {c : Cfg} (h : c.valid = true) {k : Nat} (hl : c.ls ≤ 4 ^ k) (m : Nat)
    (hm : 4 ^ k < 4 ^ (m + 1)) : c.ls ∣ 4 ^ m := by
  obtain ⟨i, hi⟩ := pow_of_valid h
  have hkm : k < m + 1 := (Nat.pow_lt_pow_iff_right (by norm_num)).mp hm
  have e : ∀ j : Nat, (4 : Nat) ^ j = 2 ^ (2 * j) := fun j => by rw [pow_mul]; norm_num
  rw [hi, e] at hl
  have := (Nat.pow_le_pow_iff_right (by norm_num)).mp hl
  rw [hi, e]
  exact pow_dvd_pow 2 (by omega)

/-- The root frame of an accepted command is in range (R166, R167). -/
theorem rootFits {s : State} {n : Nat} (h1 : 1 ≤ n) (h2 : n ≤ s.cfg.log4NMax) (h3 : s.twn.toNat = 4 ^ n) :
    FrameFits s n 0 0 1 := by
  have hle : 4 ^ n ≤ 4 ^ s.cfg.log4NMax := Nat.pow_le_pow_right (by norm_num) h2
  have hp : 4 ≤ 4 ^ n := by
    calc 4 = 4 ^ 1 := rfl
      _ ≤ 4 ^ n := Nat.pow_le_pow_right (by norm_num) h1
  refine ⟨?_, ?_, by rw [h3]; omega, by rw [h3, log4_pow]⟩ <;> simp only [Cfg.sampleWords, Cfg.nMax] <;> omega

/-- A plain recursion leaves BUF (R166). -/
@[simp] theorem recPlain_buf (n yb xb st : Nat) (s : State) : (recPlain n yb xb st s).buf = s.buf := by
  induction n generalizing yb xb st s with
  | zero => rfl
  | succ n ih =>
    cases n with
    | zero => exact bfly4_buf _ _ _ _
    | succ m =>
      simp only [recPlain, combinePlain]
      have h1 := forUpTo_keeps (P := fun u => u.buf = s.buf) 4
        (fun j => recPlain (m + 1) (yb + 2 * 4 ^ (m + 1) * j) (xb + 2 * st * j) (4 * st)) s rfl
        fun i hi u hu => (ih _ _ _ u).trans hu
      exact forUpTo_keeps (P := fun u => u.buf = s.buf) _ _ _ h1 fun i hi u hu => by simp [hu]

/-- A tiled recursion at or below its threshold is the plain one (R155). -/
theorem recTiled_of_le {th n : Nat} (h : 4 ^ n ≤ th) (hn : 1 ≤ n) (yb xb st : Nat) (s : State) :
    recTiled th n yb xb st s = recPlain n yb xb st s := by
  obtain ⟨m, rfl⟩ : ∃ m, n = m + 1 := ⟨n - 1, by omega⟩
  simp only [recTiled, if_pos h]

/-- The laws of a ROM at some levels are its laws at fewer (R113). -/
theorem RomLaws.mono {l l' : Nat} {rom : Nat → Nat → FWord} (h : RomLaws l rom) (hl : l' ≤ l) : RomLaws l' rom :=
  ⟨fun d hd => h.1 d (by omega), fun d hd => h.2.1 d (by omega), fun d hd => h.2.2 d (by omega)⟩

/-- The ROM of a state with the invariant obeys the laws of R113 at every level it holds. -/
theorem State.Inv.romLaws {s : State} (h : s.Inv) : RomLaws (romLevels s.cfg) s.romWord := h.configured.romLaws

/-- With a legal TWN, every level that TWRD's check lets through is one the ROM holds (R28, R117). -/
theorem romLevel_of_tableIndexOk {s : State} (ht : s.twnLegal = true) {d o : Nat} (h : s.tableIndexOk d o = true) :
    d < romLevels s.cfg ∧ o < levelWords d := by
  simp only [State.tableIndexOk, Bool.and_eq_true, decide_eq_true_eq] at h
  obtain ⟨⟨h0, h1⟩, h2⟩ := h
  simp only [State.twnLegal, Bool.or_eq_true, Bool.and_eq_true, decide_eq_true_eq, P4_iff] at ht
  obtain ⟨⟨m, -, e⟩, hle⟩ := ht.resolve_left h0
  have e' : s.twn.toNat = 4 ^ m := by exact_mod_cast e
  rw [e', log4_pow] at h1
  have hle' : 4 ^ m ≤ 4 ^ s.cfg.log4NMax := by rw [← e']; exact_mod_cast hle
  have := (Nat.pow_le_pow_iff_right (by norm_num)).mp hle'
  exact ⟨by unfold romLevels; omega, h2⟩

end Sys2Proof.Machine
end

