-- ==== Sys2Proof/Laws/PerInstr.lean ====
section
/-! SUPPORT. Statements made per operation. `TableMatch`: the encoding carries the fixed bits of the operation's row of
spec/opcode_table.json (R73, R77) and fits the longest record. -/

namespace Sys2Proof

/-- The row's mask: all 32 bits of a command word, the 4 bits of a kind code (R73, R77). -/
def rowBits : Instr → Nat
  | .initTw => 32
  | .xform => 32
  | .xformT => 32
  | .bfly4 _ _ _ => 4
  | .cmul _ _ _ _ => 4
  | .combine _ _ _ _ _ => 4
  | .bufld _ _ _ => 4
  | .bufst _ _ _ => 4
  | .twrd _ _ => 4

/-- The row's match (R73, R77). -/
def rowMatch : Instr → Nat
  | .initTw => 1
  | .xform => 2
  | .xformT => 3
  | .bfly4 _ _ _ => 1
  | .cmul _ _ _ _ => 2
  | .combine _ _ _ _ _ => 3
  | .bufld _ _ _ => 4
  | .bufst _ _ _ => 5
  | .twrd _ _ => 6

/-- The fixed bits at the head of an encoding: the command word, or the record's kind byte. -/
def Wire.fixedBits : Wire → Nat × Nat
  | .command w => (32, w.toNat)
  | .record [] => (0, 0)
  | .record (b :: _) => (4, b.toNat)

/-- The bytes of an encoding as a record; a command has none. -/
def Wire.recordLength : Wire → Nat
  | .command _ => 0
  | .record bs => bs.length

theorem putLE_length (n v : Nat) : (putLE n v).length = n := by
  induction n generalizing v with
  | zero => rfl
  | succ n ih => simp [putLE, ih]

namespace Laws.TableMatch

/-- The encoding's fixed bits are the table row's, and the record is no longer than the longest. -/
def Statement (i : Instr) : Prop :=
  (encode i).fixedBits = (rowBits i, rowMatch i) ∧ (encode i).recordLength ≤ longestRecord

theorem initTw : Statement .initTw := ⟨rfl, Nat.zero_le _⟩

theorem xform : Statement .xform := ⟨rfl, Nat.zero_le _⟩

theorem xformT : Statement .xformT := ⟨rfl, Nat.zero_le _⟩

theorem bfly4 (yb xb st : Nat) : Statement (.bfly4 yb xb st) :=
  ⟨rfl, by simp [encode, Wire.recordLength, putLE_length, longestRecord]⟩

theorem cmul (ar ai br bi : FWord) : Statement (.cmul ar ai br bi) :=
  ⟨rfl, by simp [encode, Wire.recordLength, putLE_length, longestRecord]⟩

theorem combine (mem : DataMem) (base st n j : Nat) : Statement (.combine mem base st n j) :=
  ⟨rfl, by cases mem <;> simp [encode, putMem, Wire.recordLength, putLE_length, longestRecord]⟩

theorem bufld (yb q t : Nat) : Statement (.bufld yb q t) :=
  ⟨rfl, by simp [encode, Wire.recordLength, putLE_length, longestRecord]⟩

theorem bufst (yb q t : Nat) : Statement (.bufst yb q t) :=
  ⟨rfl, by simp [encode, Wire.recordLength, putLE_length, longestRecord]⟩

theorem twrd (d o : Nat) : Statement (.twrd d o) :=
  ⟨rfl, by simp [encode, Wire.recordLength, putLE_length, longestRecord]⟩

end Laws.TableMatch

end Sys2Proof
end

