-- ==== Sys2Proof/Tests/Slice0.lean ====
section
/-! SUPPORT. Small tests. Expected results come from spec/95_test_vectors.md (ids V, S) and from the rules' own
examples; the last part shows, for each statement with hypotheses, states and operands that meet them. -/

namespace Sys2Proof.Tests

open Sys2Proof Sys2Proof.Machine

/-! ### Helpers -/

/-- The state an outcome leaves, if it is a next state. -/
def after : Host.Outcome State Fault Refusal → Option State
  | .next s => some s
  | .fault _ => none
  | .refused _ => none

/-- `P` holds of the next state. -/
def leaves (o : Host.Outcome State Fault Refusal) (P : State → Bool) : Bool := (after o).any P

/-- Reset, with `TWN` and `ARG_N` set. -/
def sized (twn argN : Word32) : State := { State.reset with twn := twn, argN := argN }

/-- The words listed from offset `a` on. -/
def listed : Nat → List FWord → Mem
  | _, [] => []
  | a, v :: vs => (a, v) :: listed (a + 1) vs

/-- `1.0`, `2.0`, .., `8.0`. -/
def oneToEight : List FWord :=
  [0x3FF0000000000000#64, 0x4000000000000000#64, 0x4008000000000000#64, 0x4010000000000000#64,
   0x4014000000000000#64, 0x4018000000000000#64, 0x401C000000000000#64, 0x4020000000000000#64]

/-! ### The checks of WellFormed: each operand at `2^32` is refused (R77) -/

theorem test_wf_bfly4_yb : (Instr.bfly4 (2 ^ 32) 0 1).wellFormed = false := by decide
theorem test_wf_bfly4_xb : (Instr.bfly4 0 (2 ^ 32) 1).wellFormed = false := by decide
theorem test_wf_bfly4_s : (Instr.bfly4 0 0 (2 ^ 32)).wellFormed = false := by decide
theorem test_wf_combine_base : (Instr.combine .ymem (2 ^ 32) 4 2 0).wellFormed = false := by decide
theorem test_wf_combine_s : (Instr.combine .ymem 0 (2 ^ 32) 2 0).wellFormed = false := by decide
theorem test_wf_combine_n : (Instr.combine .buf 0 4 (2 ^ 32) 0).wellFormed = false := by decide
theorem test_wf_combine_j : (Instr.combine .buf 0 4 2 (2 ^ 32)).wellFormed = false := by decide
theorem test_wf_bufld_yb : (Instr.bufld (2 ^ 32) 4 0).wellFormed = false := by decide
theorem test_wf_bufld_q : (Instr.bufld 0 (2 ^ 32) 0).wellFormed = false := by decide
theorem test_wf_bufld_t : (Instr.bufld 0 4 (2 ^ 32)).wellFormed = false := by decide
theorem test_wf_bufst_yb : (Instr.bufst (2 ^ 32) 4 0).wellFormed = false := by decide
theorem test_wf_bufst_q : (Instr.bufst 0 (2 ^ 32) 0).wellFormed = false := by decide
theorem test_wf_bufst_t : (Instr.bufst 0 4 (2 ^ 32)).wellFormed = false := by decide
theorem test_wf_twrd_d : (Instr.twrd (2 ^ 32) 0).wellFormed = false := by decide
theorem test_wf_twrd_o : (Instr.twrd 0 (2 ^ 32)).wellFormed = false := by decide

/-! ### Decoding, from words written out from R73 and R77 (V1 to V6) -/

theorem test_decode_init_tw : decode (.command 0x00000001#32) = .ok (.initTw, []) := by decide
theorem test_decode_xform : decode (.command 0x00000002#32) = .ok (.xform, []) := by decide
theorem test_decode_xform_t : decode (.command 0x00000003#32) = .ok (.xformT, []) := by decide
theorem test_decode_illegal : [0x00000000#32, 0x00000004#32, 0x0000007F#32, 0x00000101#32, 0x00000102#32,
    0x00010003#32, 0x80000002#32, 0xFFFFFFFF#32].all (fun w => (decodeCommand w).toOption.isNone) = true := by
  decide
theorem test_decode_bfly4 : decode (.record [0x01#8, 0x18#8, 0#8, 0#8, 0#8, 0x06#8, 0#8, 0#8, 0#8, 0x00#8, 0x01#8,
    0#8, 0x80#8]) = .ok (.bfly4 24 6 0x80000100, []) := by decide
theorem test_decode_cmul : decode (.record [0x02#8,
    0#8, 0#8, 0#8, 0#8, 0#8, 0#8, 0xF0#8, 0x3F#8, 0#8, 0#8, 0#8, 0#8, 0#8, 0#8, 0#8, 0x40#8,
    0#8, 0#8, 0#8, 0#8, 0#8, 0#8, 0x08#8, 0x40#8, 0#8, 0#8, 0#8, 0#8, 0#8, 0#8, 0x10#8, 0x40#8]) =
    .ok (.cmul 0x3FF0000000000000#64 0x4000000000000000#64 0x4008000000000000#64 0x4010000000000000#64, []) := by
  decide
theorem test_decode_combine_ymem : decode (.record [0x03#8, 0x00#8, 0x06#8, 0#8, 0#8, 0#8, 0x04#8, 0#8, 0#8, 0#8,
    0x02#8, 0#8, 0#8, 0#8, 0x03#8, 0#8, 0#8, 0#8]) = .ok (.combine .ymem 6 4 2 3, []) := by decide
theorem test_decode_combine_buf : decode (.record [0x03#8, 0x01#8, 0x02#8, 0#8, 0#8, 0#8, 0x02#8, 0#8, 0#8, 0#8,
    0x02#8, 0#8, 0#8, 0#8, 0x03#8, 0#8, 0#8, 0#8]) = .ok (.combine .buf 2 2 2 3, []) := by decide
theorem test_decode_bad_selector : decode (.record [0x03#8, 0x02#8, 0#8]) = .error .badSelector := by decide
theorem test_decode_bufld : decode (.record [0x04#8, 0x20#8, 0#8, 0#8, 0#8, 0x04#8, 0#8, 0#8, 0#8, 0x01#8, 0#8, 0#8,
    0#8, 0xAA#8]) = .ok (.bufld 32 4 1, [0xAA#8]) := by decide
theorem test_decode_bufst : decode (.record [0x05#8, 0x20#8, 0#8, 0#8, 0#8, 0x04#8, 0#8, 0#8, 0#8, 0x01#8, 0#8, 0#8,
    0#8]) = .ok (.bufst 32 4 1, []) := by decide
theorem test_decode_twrd : decode (.record [0x06#8, 0x01#8, 0#8, 0#8, 0#8, 0x7F#8, 0#8, 0#8, 0#8]) =
    .ok (.twrd 1 127, []) := by decide
theorem test_decode_truncated : decode (.record [0x06#8, 0x01#8, 0#8]) = .error .truncated := by decide
theorem test_decode_wide_kind : decode (.record [0x16#8]) = .error .kindTooWide := by decide

/-! ### Numerics (V8) -/

theorem test_fadd_zeros : fadd 0 plusZero minusZero = plusZero ∧ fadd 0 minusZero minusZero = minusZero := by
  decide +kernel
theorem test_fsub_zeros : fsub 0 minusZero plusZero = minusZero ∧ fsub 0 minusZero minusZero = plusZero := by
  decide +kernel
theorem test_fadd_overflow : fadd 0 0x7FEFFFFFFFFFFFFF#64 0x7FEFFFFFFFFFFFFF#64 = 0x7FF0000000000000#64 := by
  decide +kernel
theorem test_fadd_subnormal : fadd 0 0x0000000000000001#64 0x0000000000000001#64 = 0x0000000000000002#64 := by
  decide +kernel
theorem test_fmul_tie : fmul 0 0x0000000000000001#64 0x3FE0000000000000#64 = plusZero := by decide +kernel
theorem test_fmul_sign : fmul 0 plusZero 0xBFF0000000000000#64 = minusZero := by decide +kernel

/-! ### The twiddle table (V15, V16, V18, V19) -/

theorem test_rom_level1 : romDefault 0 10 = 0x3FED906BCF328D46#64 ∧ romDefault 0 22 = 0xBFE6A09E667F3BCD#64 := by
  decide +kernel
theorem test_rom_level2 : romDefault 1 11 = 0x3FB917A6BC29B42C#64 ∧ romDefault 1 127 = 0xBFEE9F4156C62DDA#64 := by
  decide +kernel
theorem test_twrd_word : leaves (exec (.twrd 0 31) (sized 16 16))
    (fun s => decide (s.tw = 0xBFD87DE2A6AEA963#64)) = true := by decide +kernel
theorem test_twrd_past_level : leaves (exec (.twrd 0 32) (sized 16 16))
    (fun s => decide (s.status.word = 0x00000022#32)) = true := by decide
theorem test_init_tw_bad : leaves (exec .initTw (sized 64 10))
    (fun s => decide (s.status.word = 0x00000012#32) && decide (s.twn = 64)) = true := by decide
theorem test_init_tw_good : leaves (exec .initTw (sized 0 64))
    (fun s => decide (s.status.word = 0x00000002#32) && decide (s.twn = 64)) = true := by decide

/-! ### Butterfly (V9, V10, V14) -/

theorem test_core4_sign : core4 binary64 0 ⟨0, 0, oneWord, 0, 0, 0, 0, 0⟩ =
    ⟨oneWord, 0, 0, oneWord, 0xBFF0000000000000#64, 0, 0, 0xBFF0000000000000#64⟩ := by decide +kernel
theorem test_core4_minus_zero :
    core4 binary64 0 ⟨minusZero, minusZero, minusZero, minusZero, minusZero, minusZero, minusZero, minusZero⟩ =
      ⟨minusZero, minusZero, 0, 0, 0, 0, 0, 0⟩ := by decide +kernel
/-- V9a restricted to the words it reads: `BFLY4(8, 2, 4)` on the ramp. -/
theorem test_bfly4_strided : leaves (exec (.bfly4 8 2 4) { State.reset with
      xmem := [(2, 0x4000000000000000#64), (3, 0x4008000000000000#64), (10, 0x4024000000000000#64),
        (11, 0x4026000000000000#64), (18, 0x4032000000000000#64), (19, 0x4033000000000000#64),
        (26, 0x403A000000000000#64), (27, 0x403B000000000000#64)] })
    (fun s => decide (s.ymem = listed 8 [0x404C000000000000#64, 0x404E000000000000#64, 0#64, 0xC040000000000000#64,
      0xC030000000000000#64, 0xC030000000000000#64, 0xC040000000000000#64, 0#64])) = true := by decide +kernel
theorem test_bfly4_absent : exec (.bfly4 0 104 4) State.reset = .fault .noXmemWord := by rfl

/-! ### Combine (V20, V22e, V23, V45) -/

theorem test_cmul_exact : leaves (exec (.cmul 0x3FF0000000000000#64 0x4000000000000000#64 0x4008000000000000#64
      0x4010000000000000#64) State.reset)
    (fun s => decide (s.cr = 0xC014000000000000#64) && decide (s.ci = 0x4024000000000000#64)) = true := by
  decide +kernel
theorem test_cmul_rounded : leaves (exec (.cmul 0x3FB999999999999A#64 0x3FC999999999999A#64 0x3FD3333333333333#64
      0x3FD999999999999A#64) State.reset)
    (fun s => decide (s.cr = 0xBFA999999999999C#64) && decide (s.ci = 0x3FB999999999999A#64)) = true := by
  decide +kernel
theorem test_combine : leaves (exec (.combine .ymem 4 4 2 2) { sized 16 16 with
      ymem := [(4, 0x3FF0000000000000#64), (5, 0x4000000000000000#64), (12, 0x4008000000000000#64),
        (13, 0x4010000000000000#64), (20, 0x4014000000000000#64), (21, 0x4018000000000000#64),
        (28, 0x401C000000000000#64), (29, 0x4020000000000000#64)] })
    (fun s => decide (s.ymem = [(4, 0xC030504F333F9DE6#64), (5, 0x40267C3B666FB66D#64), (12, 0x3FF57D86660310C8#64),
      (13, 0x401B9915335EA8A6#64), (20, 0x4019413CCCFE779A#64), (21, 0x40060F126641264C#64),
      (28, 0x4029504F333F9DE7#64), (29, 0xC029CC8A99AF5453#64)])) = true := by decide +kernel
theorem test_combine_bounds : [(DataMem.ymem, 0, 4, 1, 0), (.ymem, 0, 4, 3, 0), (.ymem, 0, 4, 2, 4),
    (.ymem, 104, 4, 2, 0), (.buf, 4, 2, 2, 0)].all (fun c => !(sized 16 16).combineOk c.1 c.2.1 c.2.2.1 c.2.2.2.1
      c.2.2.2.2) = true ∧
    (sized 16 16).combineOk .ymem 102 4 2 0 = true ∧ (sized 16 16).combineOk .buf 2 2 2 3 = true := by decide

/-! ### Buffer moves (V40) -/

theorem test_bufld : leaves (exec (.bufld 0 4 1) { State.reset with
      ymem := [(4, 4), (5, 5), (6, 6), (7, 7), (12, 12), (13, 13), (14, 14), (15, 15), (20, 20), (21, 21), (22, 22),
        (23, 23), (28, 28), (29, 29), (30, 30), (31, 31)] })
    (fun s => decide (s.buf = listed 0 [4, 5, 6, 7, 12, 13, 14, 15, 20, 21, 22, 23, 28, 29, 30, 31])) = true := by
  decide +kernel
theorem test_bufst : leaves (exec (.bufst 0 4 1) { State.reset with
      buf := listed 0 [4, 5, 6, 7, 12, 13, 14, 15, 20, 21, 22, 23, 28, 29, 30, 31] })
    (fun s => decide (s.ymem = [(4, 4), (5, 5), (6, 6), (7, 7), (12, 12), (13, 13), (14, 14), (15, 15), (20, 20),
      (21, 21), (22, 22), (23, 23), (28, 28), (29, 29), (30, 30), (31, 31)])) = true := by decide +kernel

/-! ### Transforms (S1, V41, V50, G4) -/

/-- S1: an impulse is flat. -/
theorem test_xform_impulse : leaves (exec .xform { sized 4 4 with xmem := listed 0 [oneWord, 0, 0, 0, 0, 0, 0, 0] })
    (fun s => decide (s.ymem = listed 0 [oneWord, 0, oneWord, 0, oneWord, 0, oneWord, 0])
      && decide (s.status.word = 0x00000002#32)) = true := by decide +kernel
/-- V50a and V50b: the size is checked before the table. -/
theorem test_xform_errors :
    leaves (exec .xform (sized 0 16)) (fun s => decide (s.status.word = 0x00000032#32)) = true ∧
    leaves (exec .xform (sized 0 10)) (fun s => decide (s.status.word = 0x00000012#32)) = true := by decide
/-- V12 through XFORM_T with `th = 4`. -/
theorem test_xform_t_size_four : leaves (exec .xformT { sized 4 4 with argTh := 4, xmem := listed 0 oneToEight })
    (fun s => decide (s.ymem = listed 0 [0x4030000000000000#64, 0x4034000000000000#64, 0#64, 0xC020000000000000#64,
      0xC010000000000000#64, 0xC010000000000000#64, 0xC020000000000000#64, 0#64])) = true := by decide +kernel
/-- V50c, V50d and V50h: the threshold is checked before the table. -/
theorem test_xform_t_errors :
    leaves (exec .xformT { sized 0 16 with argTh := 8 }) (fun s => decide (s.status.word = 0x00000012#32)) = true ∧
    leaves (exec .xformT { sized 0 16 with argTh := 4 }) (fun s => decide (s.status.word = 0x00000032#32)) = true ∧
    leaves (exec .xformT { sized 16 16 with argTh := 0xFFFFFFFC#32 })
      (fun s => decide (s.status.word = 0x00000012#32)) = true := by decide
/-- V40: the trace of `transformTiled 16, 4` with `LS = 2`. -/
theorem test_tiled_trace : traceTiled 2 4 2 0 0 1 = [.bfly4 0 0 4, .bfly4 8 2 4, .bfly4 16 4 4, .bfly4 24 6 4,
    .bufld 0 4 0, .combine .buf 0 2 2 0, .combine .buf 2 2 2 1, .bufst 0 4 0,
    .bufld 0 4 1, .combine .buf 0 2 2 2, .combine .buf 2 2 2 3, .bufst 0 4 1] := by decide
/-- V29: two leaves and two combines of the plain trace of size 64. -/
theorem test_plain_trace : (tracePlain 3 0 0 1).length = 48 ∧ (tracePlain 3 0 0 1)[9]? = some (.bfly4 40 10 16) ∧
    (tracePlain 3 0 0 1)[31]? = some (.combine .ymem 102 4 2 3) ∧
    (tracePlain 3 0 0 1)[47]? = some (.combine .ymem 30 16 3 15) := by decide

/-! ### The host's side (V55 to V58) -/

theorem test_read_cfg : leaves (step { State.reset with events := [.readReg 0x14] })
    (fun s => decide (s.replies = [.word 0x00000302#32])) = true := by decide
theorem test_write_argN : leaves (step { State.reset with events := [.writeReg 0x04 0xFFFFFFFC#32] })
    (fun s => decide (s.argN = 0xFFFFFFFC#32)) = true := by decide
theorem test_write_twn_ignored : leaves (step { State.reset with events := [.writeReg 0x10 16#32] })
    (fun s => decide (s = State.reset)) = true := by decide
theorem test_read_rom : leaves (step { State.reset with events := [.readMem .twrom 159] })
    (fun s => decide (s.replies = [.fword 0xBFEE9F4156C62DDA#64])) = true := by decide +kernel
theorem test_reset : leaves (step { sized 64 10 with status := ⟨false, true, .invalidSize⟩, events := [.reset] })
    (fun s => decide (s.twn = 0) && decide (s.argN = 0) && decide (s.status.word = 0)) = true := by decide
theorem test_illegal_command : leaves (step { sized 16 10 with events := [.writeReg 0x00 0x00000102#32] })
    (fun s => decide (s.status.word = 0x00000042#32) && decide (s.twn = 16)) = true := by decide

/-! ### The hypotheses of the statements can be met

One theorem per statement with hypotheses, `test_meets_<statement>`: concrete states and operands that satisfy them together,
clause by clause, at the values where clauses meet. -/

/-- Reset with one pending event. -/
def pending (ev : Event) : State := { State.reset with events := [ev] }

/-- Reset while a command executes, with one pending event. -/
def busyPending (ev : Event) : State := { pending ev with status := ⟨true, false, .ok⟩ }

/-- Reset, ready for a transform of size 64 with threshold 4. -/
def ready : State := { sized 64 64 with argTh := 4 }

theorem test_meets_DecodeOfEncode : (Instr.combine .buf (2 ^ 32 - 1) 0 2 (2 ^ 32 - 1)).wellFormed = true ∧
    encode (.twrd 0 1) = .record [0x06#8, 0#8, 0#8, 0#8, 0#8, 0x01#8, 0#8, 0#8, 0#8] ∧
    (Instr.twrd 0 1).wellFormed = true := by decide

theorem test_meets_CommandDecoder : (0x00000000#32 ≠ 0x00000001#32 ∧ 0x00000000#32 ≠ 0x00000002#32 ∧
      0x00000000#32 ≠ 0x00000003#32) ∧
    (0x00000004#32 ≠ 0x00000001#32 ∧ 0x00000004#32 ≠ 0x00000002#32 ∧ 0x00000004#32 ≠ 0x00000003#32) := by decide

theorem test_meets_UnusedKindsRejected : ((0x00#8).toNat = 0 ∨ 7 ≤ (0x00#8).toNat ∧ (0x00#8).toNat ≤ 15) ∧
    ((0x07#8).toNat = 0 ∨ 7 ≤ (0x07#8).toNat ∧ (0x07#8).toNat ≤ 15) ∧
    ((0x0F#8).toNat = 0 ∨ 7 ≤ (0x0F#8).toNat ∧ (0x0F#8).toNat ≤ 15) := by decide

theorem test_meets_StepRunsDecoded :
    ((pending (.writeReg 0x00 1#32)).events = [.writeReg 0x00 1#32] ∧
      (pending (.writeReg 0x00 1#32)).status.busy = false ∧ decodeCommand 1#32 = .ok .initTw) ∧
    ((pending (.issue [0x06#8, 0#8, 0#8, 0#8, 0#8, 0#8, 0#8, 0#8, 0#8])).events =
        [.issue [0x06#8, 0#8, 0#8, 0#8, 0#8, 0#8, 0#8, 0#8, 0#8]] ∧
      decodeRecord [0x06#8, 0#8, 0#8, 0#8, 0#8, 0#8, 0#8, 0#8, 0#8] = .ok (.twrd 0 0, [])) := by decide

theorem test_meets_EncodedOperationRuns : (Instr.bfly4 (2 ^ 32 - 1) 0 (2 ^ 32 - 1)).wellFormed = true ∧
    Instr.xformT.wellFormed = true := by decide

theorem test_meets_IllegalCommandRaises : (pending (.writeReg 0x00 0x00000102#32)).events = [.writeReg 0x00 0x00000102#32] ∧
    (pending (.writeReg 0x00 0x00000102#32)).status.busy = false ∧
    0x00000102#32 ≠ 0x00000001#32 ∧ 0x00000102#32 ≠ 0x00000002#32 ∧ 0x00000102#32 ≠ 0x00000003#32 := by decide

theorem test_meets_IdleStepChangesNothing : State.reset.events = [] ∧ State.reset.frames = [] := by decide

theorem test_meets_ResetRegisters : State.reset = State.reset ∧ State.resetOf ⟨15, 128⟩ [] = State.resetOf ⟨15, 128⟩ [] :=
  ⟨rfl, rfl⟩

theorem test_meets_ResetEventResets : (pending .reset).events = [.reset] ∧ (busyPending .reset).events = [.reset] := by
  decide

/-- The smallest machine, and one whose ROM differs from the default in the last place of two words. -/
theorem test_meets_ResetMeetsInvariant : Configured ⟨1, 1⟩ [] ∧
    Configured ⟨2, 128⟩ [(10, 0x3FED906BCF328D45#64), (31, 0xBFD87DE2A6AEA964#64)] := by
  refine ⟨⟨by decide, by decide, by decide, ?_⟩, ⟨by decide, by decide, by decide, ?_⟩⟩ <;> refine ⟨?_, ?_, ?_⟩ <;>
    decide +kernel

/-- L2 and L3 bind every instance: a ROM with a wrong exact entry, with a word above `1.0` or with a NaN is none. -/
theorem test_unlawful_rom : ¬ Configured ⟨2, 2⟩ [(8, plusZero)] ∧ ¬ Configured ⟨2, 2⟩ [(20, minusZero)] ∧
    ¬ Configured ⟨2, 2⟩ [(10, 0x3FF0000000000001#64)] ∧ ¬ Configured ⟨2, 2⟩ [(10, 0x7FF8000000000000#64)] := by
  refine ⟨fun h => ?_, fun h => ?_, fun h => ?_, fun h => ?_⟩
  · exact absurd (h.romLaws.1 0 (by decide) 1 (by decide) 0 (by decide) (.inl rfl)).1 (by decide +kernel)
  · exact absurd (h.romLaws.2.1 0 (by decide)).1 (by decide +kernel)
  · exact absurd (h.romLaws.2.2 0 (by decide) 10 (by decide)).2 (by decide +kernel)
  · exact absurd (h.romLaws.2.2 0 (by decide) 10 (by decide)).1 (by decide +kernel)

theorem test_reset_configured : Configured State.reset.cfg State.reset.twrom := by
  refine ⟨by decide, by decide, by decide, ?_, ?_, ?_⟩ <;> decide +kernel

theorem test_reset_inv : State.reset.Inv := by
  refine ⟨test_reset_configured, ?_, ?_, ?_, ?_, ?_, ?_, ?_, ?_, ?_⟩ <;> decide

theorem test_meets_StepKeepsInvariant : State.reset.Inv ∧ step State.reset = .next State.reset := ⟨test_reset_inv, by rfl⟩

theorem test_meets_ExecSparesInputs : exec .initTw State.reset = .next (State.reset.raise .invalidSize) ∧
    (∀ ar ai br bi, Instr.initTw ≠ .cmul ar ai br bi) ∧ ∀ d o, Instr.initTw ≠ .twrd d o :=
  ⟨by rfl, fun _ _ _ _ => by simp, fun _ _ => by simp⟩

theorem test_meets_TwnChangedOnlyByInitTwOrReset :
    leaves (step { sized 0 16 with events := [.writeReg 0x00 1#32] }) (fun t => decide (t.twn ≠ 0)) = true ∧
    leaves (step { sized 16 16 with events := [.reset] }) (fun t => decide (t.twn ≠ 16)) = true := by decide

theorem test_meets_CommandsNeverEndInCodeTwo :
    isCommand .initTw = true ∧ isCommand .xform = true ∧ isCommand .xformT = true := by decide

theorem test_meets_RoundIsNearestEven :
    (2 ^ 1024 - 2 ^ 970) * 2 ^ 1074 * 2 ^ 0 ≤ (2 ^ 1024 - 2 ^ 970) * 2 ^ 1074 ∧
    (2 ^ 1024 - 2 ^ 970) * 2 ^ 1074 - 1 < (2 ^ 1024 - 2 ^ 970) * 2 ^ 1074 * 2 ^ 0 ∧ isFinite oneWord = true := by
  decide +kernel

/-- A tie: `3/2` lies as far from 1 as from 2 units. -/
theorem test_meets_RoundIsNearestEven_tie : isFinite 1#64 = true ∧ signBit 1#64 = false ∧
    1#64 ≠ packSign false (roundMag 3 1) ∧
    |(magnitude (packSign false (roundMag 3 1)) * 2 ^ 1 : Int) - 3| = |(magnitude 1#64 * 2 ^ 1 : Int) - 3| := by
  decide +kernel

theorem test_meets_FaddCases : isNaN 0x7FF0000000000001#64 = true ∧
    (isInf 0x7FF0000000000000#64 = true ∧ isInf 0xFFF0000000000000#64 = true ∧
      signBit 0x7FF0000000000000#64 ≠ signBit 0xFFF0000000000000#64) ∧
    isFinite 0x7FEFFFFFFFFFFFFF#64 = true ∧ (isZero plusZero = true ∧ isZero minusZero = true) ∧
    (isFinite oneWord = true ∧ value oneWord + value 1#64 ≠ 0) ∧
    (isFinite (fneg oneWord) = true ∧ ¬ (isZero oneWord = true ∧ isZero (fneg oneWord) = true) ∧
      value oneWord + value (fneg oneWord) = 0) ∧
    isNaN (fadd 0 oneWord oneWord) = false := by decide +kernel

theorem test_meets_FsubCases : isInf 0xFFF0000000000000#64 = true ∧
    signBit 0xFFF0000000000000#64 = signBit 0xFFF0000000000000#64 ∧ isFinite minusZero = true := by decide +kernel

theorem test_meets_FmulCases : isNaN 0xFFFFFFFFFFFFFFFF#64 = true ∧
    (isZero minusZero = true ∧ isInf 0x7FF0000000000000#64 = true ∧ isFinite minusZero = true) ∧
    (isNaN oneWord = false ∧ isNaN 0x7FF0000000000000#64 = false ∧ isZero 0x7FF0000000000000#64 = false ∧
      isZero oneWord = false ∧ isFinite oneWord = true) ∧
    isNaN (fmul 0 oneWord oneWord) = false := by decide +kernel

theorem test_meets_RepresentableIsExact : isFinite oneWord = true ∧ isFinite 0x4000000000000000#64 = true ∧
    value 0x4000000000000000#64 ≠ 0 ∧ value oneWord + value oneWord = value 0x4000000000000000#64 ∧
    value 0x4000000000000000#64 - value oneWord = value oneWord ∧
    value 0x4000000000000000#64 * value oneWord = value 0x4000000000000000#64 * 2 ^ 1074 := by decide +kernel

theorem test_meets_CfgWordBits : State.reset.cfg.valid = true ∧ State.reset.status.busy = false ∧
    (pending (.readReg 0x14)).events = [.readReg 0x14] ∧ (pending (.writeReg 0x14 0#32)).events = [.writeReg 0x14 0#32] ∧
    exec .initTw State.reset = .next (State.reset.raise .invalidSize) :=
  ⟨by decide, by decide, by decide, by decide, by rfl⟩

theorem test_meets_RegisterReads : (pending (.readReg 0x18)).events = [.readReg 0x18] ∧
    (pending (.readReg 0x18)).status.busy = false ∧ (0x18 % 4 = 0 ∧ 0x18 ≤ 0x18) := by decide

theorem test_meets_RegisterWrites : (pending (.writeReg 0x0C 1#32)).events = [.writeReg 0x0C 1#32] ∧
    (pending (.writeReg 0x0C 1#32)).status.busy = false ∧ 0x0C ≠ 0x00 ∧ 0x0C ≠ 0x04 ∧ 0x0C ≠ 0x08 := by decide

/-- The last word of a window, and the first beyond it. -/
theorem test_meets_WindowWriteThenRead : State.reset.status.busy = false ∧ 127 < 2 * State.reset.cfg.nMax ∧
    2 * State.reset.cfg.nMax ≤ 128 ∧
    ({ State.reset with events := [.writeMem .xmem 127 oneWord, .readMem .xmem 127] } : State).events =
      [.writeMem .xmem 127 oneWord, .readMem .xmem 127] ∧
    ({ State.reset with events := [.writeMem .ymem 127 oneWord, .readMem .ymem 127] } : State).events =
      [.writeMem .ymem 127 oneWord, .readMem .ymem 127] ∧
    (pending (.writeMem .xmem 128 oneWord)).events = [.writeMem .xmem 128 oneWord] ∧
    (pending (.writeMem .ymem 128 oneWord)).events = [.writeMem .ymem 128 oneWord] := by decide

/-- The last word of the ROM. -/
theorem test_meets_RomWindow : State.reset.status.busy = false ∧ State.reset.cfg.log4NMax ≤ 15 ∧
    1 + 2 ≤ State.reset.cfg.log4NMax ∧ 127 < 2 * 4 ^ (1 + 2) ∧
    (pending (.readMem .twrom (levelBase 1 + 127))).events = [.readMem .twrom (levelBase 1 + 127)] ∧
    (pending (.writeMem .twrom (levelBase 1 + 127) oneWord)).events =
      [.writeMem .twrom (levelBase 1 + 127) oneWord] := by decide

theorem test_meets_BusyAccess : (busyPending (.readReg 0x0C)).status.busy = true ∧
    (busyPending (.readReg 0x0C)).events = [.readReg 0x0C] ∧
    (busyPending (.writeReg 0x04 1#32)).events = [.writeReg 0x04 1#32] ∧
    (busyPending (.writeMem .xmem 0 oneWord)).events = [.writeMem .xmem 0 oneWord] ∧
    (after (step (busyPending (.readReg 0x04)))).isSome = true ∧
    (after (step (busyPending (.readMem .ymem 0)))).isSome = true := by decide

theorem test_meets_Core4IsPositiveDft : 3 < 4 := by decide

/-- The last words of XMEM and of YMEM. -/
theorem test_meets_Bfly4Result : 102 + 6 * 4 + 1 < 2 * State.reset.cfg.nMax ∧ 120 + 7 < 2 * State.reset.cfg.nMax := by
  decide

/-- One word further. -/
theorem test_meets_AbsentWordsFault : 2 * State.reset.cfg.nMax ≤ 103 + 6 * 4 + 1 ∧
    (102 + 6 * 4 + 1 < 2 * State.reset.cfg.nMax ∧ 2 * State.reset.cfg.nMax ≤ 121 + 7) ∧
    2 * State.reset.cfg.nMax < 1 + 2 * (16 * 3 + 7 * State.reset.cfg.ls + State.reset.cfg.ls) := by decide

/-- V45f and V45g: the last words of YMEM and of BUF. -/
theorem test_meets_CombineResult : 1 ≤ 4 ∧ 2 ≤ 2 ∧ (sized 16 16).twn.toNat ≠ 0 ∧ 2 ≤ log4 (sized 16 16).twn.toNat ∧
    3 < 4 ^ (2 - 1) ∧ 102 + 6 * 4 + 1 < 2 * (sized 16 16).cfg.nMax ∧ 2 + 6 * 2 + 1 < 8 * (sized 16 16).cfg.ls := by
  decide

/-- V45a to V45h, each failing clause. -/
theorem test_meets_CombineBounds : 1 < 2 ∧ (sized 0 16).twn.toNat = 0 ∧ log4 (sized 16 16).twn.toNat < 3 ∧
    4 ^ (2 - 1) ≤ 4 ∧ 2 * (sized 16 16).cfg.nMax ≤ 103 + 6 * 4 + 1 ∧ 8 * (sized 16 16).cfg.ls ≤ 3 + 6 * 2 + 1 := by
  decide

theorem test_meets_CombineStrideZero : 2 ≤ 2 ∧ (sized 16 16).twn.toNat ≠ 0 ∧ 2 ≤ log4 (sized 16 16).twn.toNat ∧
    3 < 4 ^ (2 - 1) ∧ 126 + 1 < 2 * (sized 16 16).cfg.nMax ∧ 14 + 1 < 8 * (sized 16 16).cfg.ls := by decide

theorem test_meets_GroupsCommute : 2 ≤ 2 ∧ 0 < 4 ^ (2 - 1) ∧ 3 < 4 ^ (2 - 1) ∧ 0 ≠ 3 := by decide

/-- V18: the last word of level 1, the first beyond it, the next level, a table of zero levels, no table. -/
theorem test_meets_TwrdResult : (sized 16 16).twn.toNat ≠ 0 ∧ ((0 : Nat) : Int) ≤ (log4 (sized 16 16).twn.toNat : Int) - 2 ∧
    31 < 2 * 4 ^ (0 + 2) ∧ 2 * 4 ^ (0 + 2) ≤ 32 ∧ (log4 (sized 16 16).twn.toNat : Int) - 2 < ((1 : Nat) : Int) ∧
    (log4 (sized 4 4).twn.toNat : Int) - 2 < ((0 : Nat) : Int) ∧ (sized 0 4).twn.toNat = 0 := by decide

/-- V7c, V7d, V7g. -/
theorem test_meets_InitTwResult : (P4 (sized 0 64).argN.toInt = true ∧
      (sized 0 64).argN.toInt ≤ 4 ^ (sized 0 64).cfg.log4NMax) ∧
    (4 : Int) ^ (sized 0 256).cfg.log4NMax < (sized 0 256).argN.toInt ∧
    P4 (sized 0 0xFFFFFFFC#32).argN.toInt = false := by decide

theorem test_meets_RomBlocks : 1 ≤ 1 ∧ 13 ≤ 13 ∧ 2 * 4 ^ (13 + 2) - 1 < 2 * 4 ^ (13 + 2) := by decide

/-- The last enabled word of the reference machine with `TWN = 64`, and the quarter turn of level index 1. -/
theorem test_meets_RomObeysLaws : (sized 64 64).Inv ∧ (sized 64 64).tableIndexOk 1 127 = true ∧
    step State.reset = .next State.reset ∧ (8 < 4 ^ (1 + 1) ∧ 2 < 4 ∧ 4 ^ (1 + 1) ∣ 2 * 8) ∧
    (0 < 1 ∧ 3 < 4 ^ (0 + 1) ∧ 3 < 4 ∧ 31 < levelWords 0) := by
  refine ⟨⟨test_reset_configured, ?_, ?_, ?_, ?_, ?_, ?_, ?_, ?_, ?_⟩, ?_, by rfl, ?_, ?_⟩ <;> decide

theorem test_meets_DefaultRomNesting : 3 < 4 ^ (0 + 1) ∧ 3 < 4 ∧ 1 < 2 := by decide

theorem test_meets_DefaultRomCorrectlyRounded : 3 < 4 ^ (0 + 1) ∧ 3 < 4 ∧
    (let b := enclose romPrecision (2 * (0 + 1)) (3 * 3 % 4 ^ (0 + 1))
     decided romPrecision b.cLo b.cHi = true ∧ decided romPrecision b.sLo b.sHi = true) := by decide +kernel

/-- The last tile of a range that ends where YMEM ends. -/
theorem test_meets_BufldResult : 0 + 2 * (16 * 3 + 7 * State.reset.cfg.ls + State.reset.cfg.ls) ≤ 2 * State.reset.cfg.nMax ∧
    8 * State.reset.cfg.ls ≤ 16 := by decide

theorem test_meets_BufstResult : 0 + 2 * (16 * 3 + 7 * State.reset.cfg.ls + State.reset.cfg.ls) ≤ 2 * State.reset.cfg.nMax ∧
    State.reset.cfg.ls ≤ 2 ∧ 96 + 2 * (2 * 3 + 0 * State.reset.cfg.ls + State.reset.cfg.ls) ≤ 2 * State.reset.cfg.nMax := by
  decide

theorem test_meets_XformErrors : P4 (sized 16 1).argN.toInt = false ∧
    (4 : Int) ^ (sized 16 256).cfg.log4NMax < (sized 16 256).argN.toInt ∧
    (P4 (sized 16 64).argN.toInt = true ∧ (sized 16 64).argN.toInt ≤ 4 ^ (sized 16 64).cfg.log4NMax ∧
      ((sized 16 64).twn.toNat : Int) ≠ (sized 16 64).argN.toInt) := by decide

theorem test_meets_XformTErrors : P4 (sized 16 1).argN.toInt = false ∧
    (P4 (sized 16 64).argN.toInt = true ∧ (sized 16 64).argN.toInt ≤ 4 ^ (sized 16 64).cfg.log4NMax ∧
      P4 (sized 16 64).argTh.toInt = false) ∧
    (let s : State := { sized 16 64 with argTh := 4, cfg := ⟨3, 8⟩ }
     P4 s.argN.toInt = true ∧ s.argN.toInt ≤ 4 ^ s.cfg.log4NMax ∧ s.argTh.toInt < s.cfg.ls) ∧
    (let s : State := { sized 16 64 with argTh := 4 }
     P4 s.argN.toInt = true ∧ s.argN.toInt ≤ 4 ^ s.cfg.log4NMax ∧ P4 s.argTh.toInt = true ∧
       (s.cfg.ls : Int) ≤ s.argTh.toInt ∧ (s.twn.toNat : Int) ≠ s.argN.toInt) := by decide

/-- The smallest and the largest size of the reference configuration. -/
theorem test_meets_XformComputes : (1 ≤ 1 ∧ 1 ≤ (sized 4 4).cfg.log4NMax ∧ (sized 4 4).argN.toInt = 4 ^ 1 ∧
      (sized 4 4).twn.toNat = 4 ^ 1) ∧
    (1 ≤ 3 ∧ 3 ≤ (sized 64 64).cfg.log4NMax ∧ (sized 64 64).argN.toInt = 4 ^ 3 ∧ (sized 64 64).twn.toNat = 4 ^ 3) := by
  decide

theorem test_meets_XformTComputes : ready.cfg.valid = true ∧ 1 ≤ 3 ∧ 3 ≤ ready.cfg.log4NMax ∧ ready.argN.toInt = 4 ^ 3 ∧
    ready.twn.toNat = 4 ^ 3 ∧ 1 ≤ 1 ∧ ready.argTh.toInt = 4 ^ 1 ∧ ready.cfg.ls ≤ 4 ^ 1 := by decide

/-- With the threshold at the size, the whole command is plain. -/
theorem test_meets_XformTComputes_plain : (let s : State := { sized 16 16 with argTh := 16 }
    s.cfg.valid = true ∧ s.argN.toInt = 4 ^ 2 ∧ s.twn.toNat = 4 ^ 2 ∧ s.argTh.toInt = 4 ^ 2 ∧ s.cfg.ls ≤ 4 ^ 2 ∧
      2 ≤ s.cfg.log4NMax ∧ 2 ≤ 2) := by decide

/-- A legal threshold and a chunk length that divides every buffered quarter. -/
theorem test_meets_TransformsOverwriteTheirRange : 1 ≤ 2 ∧ 4 ≤ 4 ∧
    ∀ m, 4 < 4 ^ (m + 1) → State.reset.cfg.ls ∣ 4 ^ m := by
  refine ⟨by decide, by decide, fun m h => ?_⟩
  cases m with
  | zero => norm_num at h
  | succ m => exact ⟨2 * 4 ^ m, by rw [pow_succ]; simp only [State.reset, State.resetOf, referenceCfg]; ring⟩

theorem test_meets_TiledEqualsPlain : (let s : State := ready
    let s' : State := { ready with cfg := ⟨4, 8⟩, argTh := 0 }
    s.cfg.valid = true ∧ 1 ≤ 3 ∧ 3 ≤ s.cfg.log4NMax ∧ 3 ≤ s'.cfg.log4NMax ∧ s.argN.toInt = 4 ^ 3 ∧
      s.twn.toNat = 4 ^ 3 ∧ 1 ≤ 1 ∧ s.argTh.toInt = 4 ^ 1 ∧ s.cfg.ls ≤ 4 ^ 1 ∧ s'.argN = s.argN ∧ s'.twn = s.twn ∧
      s'.xmem = s.xmem ∧ s'.epoch = s.epoch ∧ s'.twrom = s.twrom) := by decide

theorem test_meets_CommandsComposeTheirTrace : ready.sizeOk = true ∧ ready.tableOk = true ∧ ready.thresholdOk = true := by
  decide

theorem test_meets_NoIndexOutOfRange : isCommand .xformT = true ∧
    Instr.combine .buf 2 2 3 31 ∉ commandTrace .xformT ready ∧
    Instr.combine .buf 2 2 3 15 ∈ commandTrace .xformT ready ∧
    exec .initTw ready = .next (State.finish { ready with twn := 64 } .ok) := ⟨by decide, by decide, by decide, by rfl⟩

theorem test_meets_TraceCounts : 1 ≤ 3 ∧ 4 ≤ 16 ∧ ∀ m, 16 < 4 ^ (m + 1) → 4 ∣ 4 ^ m := by
  refine ⟨by decide, by decide, fun m h => ?_⟩
  cases m with
  | zero => norm_num at h
  | succ m => exact ⟨4 ^ m, by ring⟩

theorem test_meets_SizeFourIsOneButterfly : (let s : State := { sized 4 4 with argTh := 4 }
    s.argN.toInt = 4 ∧ s.twn.toNat = 4 ∧ 1 ≤ s.cfg.log4NMax ∧ s.thresholdOk = true) := by decide

theorem test_meets_BranchesCommute : 1 ≤ 2 ∧ 0 < 4 ∧ 3 < 4 ∧ 0 ≠ 3 ∧ 0 + 2 * 4 ^ 2 * (3 + 1) ≤ 128 := by decide

/-- Two states with the same input words and different output words. -/
theorem test_meets_RecursionReadsOnlyItsInput : (1 ≤ 2 ∧ 4 ≤ 4) ∧
    (∀ m < 4 ^ 2, ∀ c < 2, State.reset.readX (0 + 2 * 1 * m + c) =
      (State.reset.writeY 5 oneWord).readX (0 + 2 * 1 * m + c)) ∧
    (∀ d o, State.reset.romWord d o = (State.reset.writeY 5 oneWord).romWord d o) ∧
    ∀ m, 4 < 4 ^ (m + 1) → State.reset.cfg.ls ∣ 4 ^ m :=
  ⟨by decide, fun _ _ _ _ => by rfl, fun _ _ => by rfl, test_meets_TransformsOverwriteTheirRange.2.2⟩

theorem test_meets_SmallStepsEndInTheCommand : 1 ≤ 3 ∧ ready.frames = [] ∧ 4 ≤ 4 ∧ 1 ≤ ready.cfg.ls := by decide

theorem test_meets_FrameStackDepth : 1 ≤ 3 ∧ 4 ≤ 4 := by decide

theorem test_meets_RecursionIsDft : 1 ≤ 2 ∧ 15 < 4 ^ 2 := by decide

end Sys2Proof.Tests
end

section
/-! SUPPORT. The family 10_state.md: that every step keeps the invariant, what no operation writes, and what the
registers read and store. -/

namespace Sys2Proof.Machine

/-! ### The invariant after each shared operation -/

theorem State.Inv.withEvents {s : State} (h : s.Inv) (rest : List Event) : State.Inv { s with events := rest } :=
  { h with }

theorem State.Inv.finish {s : State} (h : s.Inv) (c : ErrCode) : (s.finish c).Inv := { h with idle := rfl }

theorem State.Inv.raise {s : State} (h : s.Inv) (c : ErrCode) : (s.raise c).Inv := h.finish c

theorem State.Inv.reply {s : State} (h : s.Inv) (r : Reply) : (s.reply r).Inv := { h with }

theorem State.Inv.draw {s : State} (h : s.Inv) (n : Nat) : (s.draw n).Inv := { h with }

theorem State.Inv.writeRegister {s : State} (h : s.Inv) (off : Nat) (w : Word32) : (writeRegister off w s).Inv := by
  unfold Machine.writeRegister
  split
  · exact { h with }
  · split
    · exact { h with }
    · exact h

theorem State.Inv.writeWindow {s : State} (h : s.Inv) (win : Window) (a : Nat) (v : FWord)
    (ha : a < windowWords s.cfg win) : (writeWindow win a v s).Inv := by
  cases win with
  | xmem => exact { h with
      xmemWf := Mem.wf_set _ _ _ h.xmemWf
      xmemBelow := Mem.below_set _ _ _ _ ha h.xmemBelow }
  | ymem => exact { h with
      ymemWf := Mem.wf_set _ _ _ h.ymemWf
      ymemBelow := Mem.below_set _ _ _ _ ha h.ymemBelow }
  | twrom => exact h

/-- Reset gives the invariant to every machine R7 admits (R42). -/
theorem Configured.resetOf_inv {c : Cfg} {rom : Mem} (h : Configured c rom) : (State.resetOf c rom).Inv where
  configured := h
  xmemWf := rfl
  ymemWf := rfl
  bufWf := rfl
  xmemBelow := rfl
  ymemBelow := rfl
  bufBelow := rfl
  twnLegal := rfl
  idle := rfl
  noFrames := rfl

theorem State.Inv.resetNow {s : State} (h : s.Inv) : s.resetNow.Inv := { h.configured.resetOf_inv with }

/-- An operation that touches only YMEM words that exist keeps the invariant. -/
theorem State.Inv.touches {s t : State} {lo hi : Nat} (h : s.Inv) (ht : Touches lo hi s t)
    (hhi : hi ≤ s.cfg.sampleWords) : t.Inv where
  configured := by rw [ht.control.cfg, ht.control.twrom]; exact h.configured
  xmemWf := by rw [ht.control.xmem]; exact h.xmemWf
  ymemWf := ht.wfY h.ymemWf
  bufWf := ht.wfB h.bufWf
  xmemBelow := by rw [ht.control.xmem, ht.control.cfg]; exact h.xmemBelow
  ymemBelow := by rw [ht.control.cfg]; exact ht.belowY _ hhi h.ymemBelow
  bufBelow := by rw [ht.control.cfg]; exact ht.belowB h.bufBelow
  twnLegal := by unfold State.twnLegal; rw [ht.control.twn, ht.control.cfg]; exact h.twnLegal
  idle := by rw [ht.control.status]; exact h.idle
  noFrames := by rw [ht.control.frames]; exact h.noFrames

/-- A size that passes is positive, so its unsigned and its signed reading agree (R30, R118). -/
theorem argN_toNat_of_sizeOk {s : State} (h : s.sizeOk = true) : (s.argN.toNat : Int) = s.argN.toInt := by
  obtain ⟨n, -, -, e⟩ := pow_of_sizeOk h
  have hpos : (0 : Int) < 4 ^ n := by positivity
  have hcond := BitVec.toInt_eq_toNat_cond s.argN
  split at hcond <;> omega

/-- The TWN that INIT_TW stores is legal (R28, R118). -/
theorem twnLegal_initTw {s : State} (h : s.sizeOk = true) : State.twnLegal { s with twn := s.argN } = true := by
  have hN : (s.argN.toNat : Int) = s.sizeArg := argN_toNat_of_sizeOk h
  simp only [State.sizeOk, ← hN, Bool.and_eq_true, decide_eq_true_eq, Nat.cast_le] at h
  simp [State.twnLegal, h]

/-- The output range of the root frame of an accepted size exists (R40, R181). -/
theorem rootRange_le {s : State} (h : s.sizeOk = true) :
    0 + 2 * 4 ^ log4 s.sizeArg.toNat ≤ s.cfg.sampleWords := by
  obtain ⟨n, hn1, hn, e⟩ := pow_of_sizeOk h
  have hpow : 4 ^ n ≤ 4 ^ s.cfg.log4NMax := Nat.pow_le_pow_right (by norm_num) hn
  rw [(sizeOk_of_pow hn1 hn e).2]
  simp only [Cfg.sampleWords, Cfg.nMax]
  omega

/-- A COMBINE in range keeps the invariant, on either memory (R140). -/
theorem State.Inv.combine {s : State} (h : s.Inv) {m : DataMem} {base st n j : Nat}
    (hok : s.combineOk m base st n j = true) : (combine m base st n j s).Inv := by
  simp only [State.combineOk, Bool.and_eq_true, decide_eq_true_eq] at hok
  obtain ⟨-, hbase⟩ := hok
  cases m with
  | ymem => exact h.touches (combine_ymem_touches base st n j s) hbase
  | buf => exact h.touches (combine_buf_touches 0 0 base st n j s hbase) (Nat.zero_le _)

/-! ### The invariant after a step -/

theorem Ran.inv {s t : State} {i : Instr} (hr : Ran s i t) (h : s.Inv) : t.Inv := by
  cases hr with
  | raised i c => exact h.raise c
  | initTw hs => exact State.Inv.finish (s := { s with twn := s.argN }) { h with twnLegal := twnLegal_initTw hs } .ok
  | xform hs _ => exact (h.touches (recPlain_touches _ 0 0 1 s) (rootRange_le hs)).finish .ok
  | xformT hs _ _ => exact (h.touches (recTiled_touches _ _ 0 0 1 s) (rootRange_le hs)).finish .ok
  | bfly4 yb xb st _ hy =>
    simp only [State.leafTargetOk, decide_eq_true_eq] at hy
    exact h.touches (bfly4_touches yb xb st s) hy
  | cmul ar ai br bi => exact { h with }
  | combine m base st n j hok => exact h.combine hok
  | bufld yb q t _ => exact h.touches (bufld_touches 0 0 yb q t s) (Nat.zero_le _)
  | bufst yb q t hok =>
    simp only [State.tileOk, decide_eq_true_eq] at hok
    exact h.touches (bufst_touches yb q t s) hok
  | twrd d o _ => exact { h with }

theorem Settled.inv {s t : State} {ev : Event} (hs : Settled s ev t) (h : s.Inv) : t.Inv := by
  cases hs with
  | ignored => exact h
  | illegal => exact h.raise _
  | stored off w => exact h.writeRegister off w
  | answered => exact h.reply _
  | answeredBusy => exact (h.reply _).draw 1
  | wrote win a v _ ha => exact h.writeWindow win a v ha
  | read => exact h.reply _
  | readBusy => exact (h.reply _).draw 1
  | reset => exact h.resetNow

/-- With an empty frame stack the sequencer has no move (R38, R194). -/
theorem tick_of_noFrames {s : State} (h : s.frames = []) : tick s = s := by
  unfold tick
  rw [h]

/-- Settles O12: `State.Inv` is inductive. A step is no move of the idle sequencer, a settled event, or an operation, and each
keeps the invariant: an operation because its checks put its footprint inside the memories. -/
theorem stepKeepsInvariant : Obligations.StepKeepsInvariant := by
  intro s t h hstep
  obtain ⟨-, rfl⟩ | ⟨ev, rest, -, hs⟩ | ⟨ev, rest, i, -, hr, -⟩ := step_cases hstep
  · rw [tick_of_noFrames h.noFrames]
    exact h
  · exact hs.inv (h.withEvents rest)
  · exact hr.inv (h.withEvents rest)

end Sys2Proof.Machine
end

section
/-! SUPPORT. What no operation writes (R21, R27, R30, R31, R62), and what can change TWN (R28, R120). -/

namespace Sys2Proof.Machine

/-- What an operation can write, coarsely: beside what `SameControl` leaves free and STATUS, INIT_TW alone writes TWN and a
stand-alone CMUL or TWRD its return ports. -/
theorem Ran.writes {s t : State} {i : Instr} (hr : Ran s i t) :
    (∃ u, s.SameControl u ∧ (t = u ∨ ∃ c, t = u.finish c)) ∨
    (i = .initTw ∧ s.sizeOk = true ∧ t = State.finish { s with twn := s.argN } .ok) ∨
    (∃ ar ai br bi, i = .cmul ar ai br bi ∧ ∃ cr ci, t = State.draw { s with cr := cr, ci := ci } 6) ∨
    (∃ d o, i = .twrd d o ∧ ∃ w, t = { s with tw := w }) := by
  cases hr with
  | raised i c => exact .inl ⟨s, .refl s, .inr ⟨c, rfl⟩⟩
  | initTw hs => exact .inr (.inl ⟨rfl, hs, rfl⟩)
  | xform => exact .inl ⟨_, (recPlain_touches _ 0 0 1 s).control, .inr ⟨.ok, rfl⟩⟩
  | xformT => exact .inl ⟨_, (recTiled_touches _ _ 0 0 1 s).control, .inr ⟨.ok, rfl⟩⟩
  | bfly4 yb xb st => exact .inl ⟨_, (bfly4_touches yb xb st s).control, .inl rfl⟩
  | cmul ar ai br bi => exact .inr (.inr (.inl ⟨ar, ai, br, bi, rfl, _, _, rfl⟩))
  | combine m base st n j => exact .inl ⟨_, combine_control m base st n j s, .inl rfl⟩
  | bufld yb q t => exact .inl ⟨_, (bufld_touches 0 0 yb q t s).control, .inl rfl⟩
  | bufst yb q t => exact .inl ⟨_, (bufst_touches yb q t s).control, .inl rfl⟩
  | twrd d o => exact .inr (.inr (.inr ⟨d, o, rfl, _, rfl⟩))

/-- What is the same before and after every operation. -/
structure SparesInputs (s t : State) : Prop where
  xmem : t.xmem = s.xmem
  twrom : t.twrom = s.twrom
  argN : t.argN = s.argN
  argTh : t.argTh = s.argTh
  cfg : t.cfg = s.cfg
  frames : t.frames = s.frames
  epoch : t.epoch = s.epoch
  events : t.events = s.events
  replies : t.replies = s.replies

theorem State.SameControl.sparesInputs {s t : State} (h : s.SameControl t) : SparesInputs s t :=
  ⟨h.xmem, h.twrom, h.argN, h.argTh, h.cfg, h.frames, h.epoch, h.events, h.replies⟩

theorem SparesInputs.finish {s t : State} (h : SparesInputs s t) (c : ErrCode) : SparesInputs s (t.finish c) :=
  { h with }

theorem Ran.sparesInputs {s t : State} {i : Instr} (hr : Ran s i t) : SparesInputs s t := by
  obtain ⟨u, hu, rfl | ⟨c, rfl⟩⟩ | ⟨-, -, rfl⟩ | ⟨_, _, _, _, -, _, _, rfl⟩ | ⟨_, _, -, _, rfl⟩ := hr.writes
  · exact hu.sparesInputs
  · exact hu.sparesInputs.finish c
  all_goals exact ⟨rfl, rfl, rfl, rfl, rfl, rfl, rfl, rfl, rfl⟩

theorem Ran.cmulPorts {s t : State} {i : Instr} (hr : Ran s i t) (hi : ∀ ar ai br bi, i ≠ .cmul ar ai br bi) :
    t.cr = s.cr ∧ t.ci = s.ci := by
  obtain ⟨u, hu, rfl | ⟨c, rfl⟩⟩ | ⟨-, -, rfl⟩ | ⟨ar, ai, br, bi, h, -⟩ | ⟨_, _, -, _, rfl⟩ := hr.writes
  · exact ⟨hu.cr, hu.ci⟩
  · exact ⟨hu.cr, hu.ci⟩
  · exact ⟨rfl, rfl⟩
  · exact absurd h (hi ar ai br bi)
  · exact ⟨rfl, rfl⟩

theorem Ran.twrdPort {s t : State} {i : Instr} (hr : Ran s i t) (hi : ∀ d o, i ≠ .twrd d o) : t.tw = s.tw := by
  obtain ⟨u, hu, rfl | ⟨c, rfl⟩⟩ | ⟨-, -, rfl⟩ | ⟨_, _, _, _, -, _, _, rfl⟩ | ⟨d, o, h, -⟩ := hr.writes
  · exact hu.tw
  · exact hu.tw
  · rfl
  · rfl
  · exact absurd h (hi d o)

/-- Settles O13: every effect an operation can have is one of `Ran.writes`, and none of them reaches the inputs. -/
theorem execSparesInputs : Obligations.ExecSparesInputs := by
  intro i s t h
  have hr := ran_of_exec h
  obtain ⟨hx, hrom, hN, hTh, hcfg, hf, he, hev, hrep⟩ := hr.sparesInputs
  exact ⟨hx, hrom, hN, hTh, hcfg, hf, he, hev, hrep, hr.cmulPorts, hr.twrdPort⟩

/-! ### TWN -/

/-- INIT_TW alone changes TWN (R28, R118). -/
theorem Ran.twn {s t : State} {i : Instr} (hr : Ran s i t) (hne : t.twn ≠ s.twn) :
    i = .initTw ∧ s.sizeOk = true ∧ t.twn = s.argN := by
  obtain ⟨u, hu, rfl | ⟨c, rfl⟩⟩ | ⟨hi, hs, rfl⟩ | ⟨_, _, _, _, -, _, _, rfl⟩ | ⟨_, _, -, _, rfl⟩ := hr.writes
  · exact absurd hu.twn hne
  · exact absurd hu.twn hne
  · exact ⟨hi, hs, rfl⟩
  · exact absurd rfl hne
  · exact absurd rfl hne

/-- Of the events that start no operation, reset alone changes TWN (R28, R42). -/
theorem Settled.twn {s t : State} {ev : Event} (hs : Settled s ev t) (hne : t.twn ≠ s.twn) : ev = .reset := by
  cases hs with
  | reset => rfl
  | stored off w =>
    refine absurd ?_ hne
    unfold writeRegister
    split
    · rfl
    · split <;> rfl
  | wrote win => cases win <;> exact absurd rfl hne
  | _ => exact absurd rfl hne

theorem popFrame_twn (rest : List Frame) (s : State) : (popFrame rest s).twn = s.twn := by
  cases rest <;> rfl

theorem tickDivide_twn (f : Frame) (rest : List Frame) (s : State) : (tickDivide f rest s).twn = s.twn := by
  unfold tickDivide
  split <;> rfl

theorem tickPlain_twn (f : Frame) (rest : List Frame) (s : State) : (tickPlain f rest s).twn = s.twn := by
  unfold tickPlain
  split
  · rw [popFrame_twn]
    exact (bfly4_touches _ _ _ s).control.twn
  · split
    · exact tickDivide_twn f rest s
    · split
      · exact (combine_control _ _ _ _ _ s).twn
      · exact popFrame_twn rest s

theorem tickTiled_twn (f : Frame) (rest : List Frame) (s : State) : (tickTiled f rest s).twn = s.twn := by
  unfold tickTiled
  split
  · rfl
  · split
    · exact tickDivide_twn f rest s
    · split
      · split
        · exact (bufld_touches 0 0 _ _ _ s).control.twn
        · split
          · exact (combine_control _ _ _ _ _ s).twn
          · exact (bufst_touches _ _ _ s).control.twn
      · exact popFrame_twn rest s

/-- No move of the sequencer changes TWN (R28). -/
theorem tick_twn (s : State) : (tick s).twn = s.twn := by
  unfold tick
  split
  · rfl
  · split
    · exact tickPlain_twn _ _ s
    · exact tickTiled_twn _ _ s

/-- The only command word of INIT_TW (R73). -/
theorem decodeCommand_initTw {w : Word32} (h : decodeCommand w = .ok .initTw) : w = 0x00000001#32 := by
  unfold decodeCommand at h
  split at h
  · assumption
  · split at h
    · cases h
    · split at h <;> cases h

/-- Settles O14: no move of the sequencer and, but for reset, no settled event changes TWN; of the operations INIT_TW alone
does, and no record is INIT_TW. -/
theorem twnChangedOnlyByInitTwOrReset : Obligations.TwnChangedOnlyByInitTwOrReset := by
  intro s t hstep hne
  obtain ⟨-, rfl⟩ | ⟨ev, rest, he, hs⟩ | ⟨ev, rest, i, he, hr, hev⟩ := step_cases hstep
  · exact absurd (tick_twn s) hne
  · cases hs.twn hne
    exact .inl ⟨rest, he⟩
  · obtain ⟨rfl, hsize, htwn⟩ := hr.twn hne
    obtain ⟨w, rfl, -, hw⟩ | ⟨bs, tail, -, hbs⟩ := hev
    · rw [decodeCommand_initTw hw] at he
      exact .inr ⟨rest, he, hsize, htwn⟩
    · cases decodeRecord_isCommand hbs

end Sys2Proof.Machine
end

section
/-! SUPPORT. The registers (R29 to R33): the bits of the words that STATUS and CFG read, and what an idle host's register
access does in one step. -/

namespace Sys2Proof.Machine

/-! ### The bits of STATUS and CFG -/

theorem StatusReg.word_idle : StatusReg.idle.word = 0 := by decide

theorem StatusReg.word_busy (r : StatusReg) : r.word.getLsbD 0 = r.busy := by
  simp [StatusReg.word]

theorem StatusReg.word_done (r : StatusReg) : r.word.getLsbD 1 = r.done := by
  simp [StatusReg.word]

theorem StatusReg.word_err (r : StatusReg) : r.word.extractLsb' 4 4 = r.err.code := by
  ext i hi
  have h4 : 4 + i < 32 := by omega
  simp [StatusReg.word, h4, BitVec.getLsbD_eq_getElem hi]

theorem StatusReg.word_bits_2_3 (r : StatusReg) : r.word.extractLsb' 2 2 = 0#2 := by
  ext i hi
  have h2 : 2 + i < 4 := by omega
  simp [StatusReg.word, h2]

theorem StatusReg.word_bits_8_31 (r : StatusReg) : r.word.extractLsb' 8 24 = 0#24 := by
  ext i hi
  have herr : r.err.code.getLsbD (8 + i - 4) = false := BitVec.getLsbD_of_ge _ _ (by omega)
  simp [StatusReg.word, herr]

theorem cfgWord_bits_0_7 (c : Cfg) : (cfgWord c).extractLsb' 0 8 = BitVec.ofNat 8 c.ls := by
  ext i hi
  have h0 : i < 32 := by omega
  simp [cfgWord, h0, hi]

theorem cfgWord_bits_8_15 (c : Cfg) : (cfgWord c).extractLsb' 8 8 = BitVec.ofNat 8 c.log4NMax := by
  ext i hi
  have h8 : 8 + i < 32 := by omega
  simp [cfgWord, h8, BitVec.getLsbD_eq_getElem hi]

theorem cfgWord_bits_16_31 (c : Cfg) : (cfgWord c).extractLsb' 16 16 = 0#16 := by
  ext i hi
  have hls : (BitVec.ofNat 8 c.ls).getLsbD (16 + i) = false := BitVec.getLsbD_of_ge _ _ (by omega)
  have hn : (BitVec.ofNat 8 c.log4NMax).getLsbD (16 + i - 8) = false := BitVec.getLsbD_of_ge _ _ (by omega)
  simp [cfgWord, hls, hn]

/-- Parameters in the ranges of R7 fit the fields of CFG (R33). -/
theorem Cfg.fits_of_valid {c : Cfg} (h : c.valid = true) : c.ls < 2 ^ 8 ∧ c.log4NMax < 2 ^ 8 := by
  simp only [Cfg.valid, Bool.and_eq_true, decide_eq_true_eq, List.contains_iff_mem, List.mem_cons, List.not_mem_nil,
    or_false] at h
  omega

/-! ### Register accesses of an idle host -/

section
variable {s : State} {off : Nat} {w : Word32} {rest : List Event}

/-- A read at a whole register's offset answers that register's word (R29, R63). -/
theorem step_readReg (he : s.events = .readReg off :: rest) (hidle : s.status.busy = false) (hoff : off % 4 = 0) :
    step s = .next { s with events := rest, replies := .word (readRegister off s) :: s.replies } := by
  simp only [step, he, accept, hoff, hidle]
  rfl

/-- A write outside CMD is the register block's (R29, R63). -/
theorem step_writeReg (he : s.events = .writeReg off w :: rest) (hidle : s.status.busy = false) (hoff : off ≠ 0x00) :
    step s = .next (writeRegister off w { s with events := rest }) := by
  simp only [step, he, accept, hidle, if_neg hoff]
  rfl

/-- The reserved offsets from 0x18 on read 0 (R29). -/
theorem readRegister_reserved (h : 0x18 ≤ off) : readRegister off s = 0 := by
  unfold readRegister
  rw [if_neg (by omega), if_neg (by omega), if_neg (by omega), if_neg (by omega), if_neg (by omega)]

/-- STATUS, TWN, CFG and the reserved offsets ignore a write (R28, R29, R32, R33). -/
theorem writeRegister_ignored (h4 : off ≠ 0x04) (h8 : off ≠ 0x08) : writeRegister off w s = s := by
  unfold writeRegister
  rw [if_neg h4, if_neg h8]

end

/-- Settles O9: both reset states are `State.resetOf` of a configuration and a ROM. -/
theorem resetRegisters : Obligations.ResetRegisters := by
  rintro s (rfl | ⟨c, rom, rfl⟩)
  all_goals exact ⟨rfl, rfl, rfl, StatusReg.word_idle, rfl, rfl, rfl, rfl⟩

/-- Settles O22, field by field (R32, R180). -/
theorem statusWordBits : Obligations.StatusWordBits := by
  intro r
  refine ⟨r.word_busy, r.word_done, r.word_bits_2_3, ?_, r.word_bits_8_31⟩
  rw [r.word_err]
  cases r.err <;> rfl

/-- Settles O23: the constants fit their fields, CFG is no stored register, and operations spare the constants. -/
theorem cfgWordBits : Obligations.CfgWordBits := by
  intro s rest hvalid hidle
  obtain ⟨hls, hn⟩ := Cfg.fits_of_valid hvalid
  refine ⟨fun he => ⟨cfgWord s.cfg, step_readReg he hidle rfl, ?_, ?_, cfgWord_bits_16_31 s.cfg⟩, fun v he => ?_,
    fun i t h => (ran_of_exec h).sparesInputs.cfg⟩
  · rw [cfgWord_bits_0_7, BitVec.toNat_ofNat, Nat.mod_eq_of_lt hls]
  · rw [cfgWord_bits_8_15, BitVec.toNat_ofNat, Nat.mod_eq_of_lt hn]
  · rw [step_writeReg he hidle (by decide), writeRegister_ignored (by decide) (by decide)]

/-- Settles O24: one step answers with `readRegister` at that offset. -/
theorem registerReads : Obligations.RegisterReads := by
  intro s off rest he hidle
  refine ⟨?_, ?_, ?_, ?_, ?_, ?_⟩
  · rintro (rfl | ⟨hoff, hge⟩)
    · exact step_readReg he hidle rfl
    · rw [step_readReg he hidle hoff, readRegister_reserved hge]
  all_goals
    rintro rfl
    exact step_readReg he hidle rfl

/-- Settles O25: one step is `writeRegister` at that offset. -/
theorem registerWrites : Obligations.RegisterWrites := by
  intro s off w rest he hidle
  refine ⟨?_, ?_, fun h0 h4 h8 => ?_⟩
  · rintro rfl
    exact step_writeReg he hidle (by decide)
  · rintro rfl
    exact step_writeReg he hidle (by decide)
  · rw [step_writeReg he hidle h0, writeRegister_ignored h4 h8]

end Sys2Proof.Machine
end

section
/-! SUPPORT. The laws L2 and L3 of R113 for the default ROM at every level (R112): its exact entries come from the exact
enclosures of the angle 0, and no lower end of an enclosure exceeds `1.0`. -/

namespace Sys2Proof.Machine

/-! ### Rounding of the default ROM's fixed-point values -/

/-- The exponent and fraction bits of `1.0` (`packSign_oneMag`). -/
def oneMag : Nat := 1023 * 2 ^ 52

theorem packSign_oneMag : packSign false oneMag = oneWord := by decide

theorem packSign_zero : packSign false 0 = plusZero := by decide

theorem nearestEven_le {m k b : Nat} (h : m < b * 2 ^ k) : nearestEven m k ≤ b := by
  have hq : m / 2 ^ k < b := Nat.div_lt_of_lt_mul (by rwa [mul_comm])
  unfold nearestEven
  dsimp only
  split
  · omega
  · split <;> omega

theorem roundMag_eq (m k : Nat) : roundMag m k =
    min ((max (m.log2 - 52) k - k) * 2 ^ 52 + nearestEven m (max (m.log2 - 52) k)) infMag := rfl

/-- `round` of the power of two `2^e` units is exact (R91). -/
theorem roundMag_two_pow (k : Nat) {e : Nat} (he : 52 ≤ e) :
    roundMag (2 ^ k * 2 ^ e) k = min ((e - 51) * 2 ^ 52) infMag := by
  have hm : 2 ^ k * 2 ^ e = 2 ^ 52 * 2 ^ (k + e - 52) := by rw [← pow_add, ← pow_add]; congr 1; omega
  have hdrop : max (k + e - 52) k = k + e - 52 := by omega
  have hsig : nearestEven (2 ^ 52 * 2 ^ (k + e - 52)) (k + e - 52) = 2 ^ 52 := by simp [nearestEven]
  have hlog : (2 ^ k * 2 ^ e).log2 = k + e := by rw [← pow_add, Nat.log2_two_pow]
  have hexp : (k + e - 52 - k) * 2 ^ 52 + 2 ^ 52 = (e - 51) * 2 ^ 52 := by omega
  rw [roundMag_eq, hlog, hdrop, hm, hsig, hexp]

/-- What is at most `2^e` units rounds to at most that: below it the exponent is one less before the carry (R91). -/
theorem roundMag_le_two_pow {k e x : Nat} (he : 53 ≤ e) (hx : x ≤ 2 ^ k) :
    roundMag (x * 2 ^ e) k ≤ (e - 51) * 2 ^ 52 := by
  obtain rfl | hlt := hx.eq_or_lt
  · rw [roundMag_two_pow k (by omega)]
    exact Nat.min_le_left _ _
  have hm : x * 2 ^ e < 2 ^ (k + e) := by
    rw [pow_add]
    exact Nat.mul_lt_mul_of_pos_right hlt (by positivity)
  have hlog : (x * 2 ^ e).log2 < k + e := by
    obtain h0 | hne := Nat.eq_zero_or_pos (x * 2 ^ e)
    · rw [h0, Nat.log2_zero]
      omega
    · exact (Nat.log2_lt (by omega)).mpr hm
  have hsig : nearestEven (x * 2 ^ e) (max ((x * 2 ^ e).log2 - 52) k) ≤ 2 ^ 53 := by
    apply nearestEven_le
    calc x * 2 ^ e < 2 ^ ((x * 2 ^ e).log2 + 1) := Nat.lt_log2_self
      _ ≤ 2 ^ (53 + max ((x * 2 ^ e).log2 - 52) k) := Nat.pow_le_pow_right (by norm_num) (by omega)
      _ = 2 ^ 53 * 2 ^ max ((x * 2 ^ e).log2 - 52) k := pow_add 2 53 _
  rw [roundMag_eq]
  refine (Nat.min_le_left _ _).trans ?_
  omega

theorem roundFixed_zero (prec : Nat) : roundFixed prec 0 = 0 := by
  rw [roundFixed, Nat.zero_mul]
  simp [roundMag, nearestEven]

/-- `2^P` units of `2^-P` are `1.0` exactly. -/
theorem roundFixed_one (prec : Nat) : roundFixed prec (2 ^ prec) = oneMag :=
  roundMag_two_pow prec (by decide)

/-- A fixed-point value up to 1 rounds to at most `1.0`. -/
theorem roundFixed_le {prec x : Nat} (hx : x ≤ 2 ^ prec) : roundFixed prec x ≤ oneMag :=
  roundMag_le_two_pow (by decide) hx

/-! ### The lower ends of the enclosures -/

theorem isqrtFrom_mul_self_le (bits n acc : Nat) (h : acc * acc ≤ n) :
    isqrtFrom bits n acc * isqrtFrom bits n acc ≤ n := by
  induction bits generalizing acc with
  | zero => exact h
  | succ bits ih =>
    unfold isqrtFrom
    split
    · exact ih _ ‹_›
    · exact ih _ h

theorem isqrtFrom_le {bits n m : Nat} (h : n ≤ m * m) : isqrtFrom bits n 0 ≤ m :=
  Nat.mul_self_le_mul_self_iff.mp ((isqrtFrom_mul_self_le bits n 0 (Nat.zero_le n)).trans h)

/-- Neither lower end exceeds 1. -/
structure Enclosure.LoLeOne (prec : Nat) (b : Enclosure) : Prop where
  cLo : b.cLo ≤ 2 ^ prec
  sLo : b.sLo ≤ 2 ^ prec

theorem halfAngle_loLeOne {prec : Nat} {b : Enclosure} (h : b.LoLeOne prec) : (halfAngle prec b).LoLeOne prec := by
  have hhalf : ∀ x ≤ 2 * 2 ^ prec, x * 2 ^ prec / 2 ≤ 2 ^ prec * 2 ^ prec := fun x hx =>
    Nat.div_le_of_le_mul (by rw [← mul_assoc]; exact Nat.mul_le_mul_right _ hx)
  have hc := h.cLo
  exact ⟨isqrtFrom_le (hhalf _ (by omega)), isqrtFrom_le (hhalf _ (by omega))⟩

theorem addAngle_loLeOne {prec : Nat} {a b : Enclosure} (ha : a.LoLeOne prec) (hb : b.LoLeOne prec) :
    (addAngle prec a b).LoLeOne prec where
  cLo := (Nat.sub_le _ _).trans (Nat.div_le_of_le_mul (Nat.mul_le_mul ha.cLo hb.cLo))
  sLo := Nat.min_le_left _ _

theorem encloseFrom_loLeOne {prec : Nat} (bits r : Nat) {base acc : Enclosure} (hb : base.LoLeOne prec)
    (ha : acc.LoLeOne prec) : (encloseFrom prec bits r base acc).LoLeOne prec := by
  induction bits generalizing base acc with
  | zero => exact ha
  | succ bits ih =>
    unfold encloseFrom
    dsimp only
    split
    · exact ih (halfAngle_loLeOne hb) (addAngle_loLeOne ha (halfAngle_loLeOne hb))
    · exact ih (halfAngle_loLeOne hb) ha

theorem enclose_loLeOne (prec bits r : Nat) : (enclose prec bits r).LoLeOne prec :=
  encloseFrom_loLeOne bits r ⟨Nat.zero_le _, le_rfl⟩ ⟨le_rfl, Nat.zero_le _⟩

/-- No bit of the angle 0 is set, so the walk stays at the exact start (R112). -/
theorem encloseFrom_zero (prec bits : Nat) (base acc : Enclosure) : encloseFrom prec bits 0 base acc = acc := by
  induction bits generalizing base with
  | zero => rfl
  | succ bits ih => simp [encloseFrom, ih]

theorem enclose_zero (prec bits : Nat) : enclose prec bits 0 = ⟨2 ^ prec, 2 ^ prec, 0, 0⟩ :=
  encloseFrom_zero prec bits _ _

/-! ### The words of the default ROM -/

theorem romMagnitude_le {bits r : Nat} {pick : Enclosure → Nat × Nat}
    (hpick : ∀ prec, (pick (enclose prec bits r)).1 ≤ 2 ^ prec) (tries prec : Nat) :
    romMagnitude bits r pick tries prec ≤ oneMag := by
  induction tries generalizing prec with
  | zero => exact roundFixed_le (hpick prec)
  | succ tries ih =>
    unfold romMagnitude
    dsimp only
    split
    · exact roundFixed_le (hpick prec)
    · exact ih (2 * prec)

theorem romMagnitude_cos_zero (bits tries prec : Nat) :
    romMagnitude bits 0 (fun b => (b.cLo, b.cHi)) tries prec = oneMag := by
  cases tries <;> simp [romMagnitude, enclose_zero, decided, roundFixed_one]

theorem romMagnitude_sin_zero (bits tries prec : Nat) :
    romMagnitude bits 0 (fun b => (b.sLo, b.sHi)) tries prec = 0 := by
  cases tries <;> simp [romMagnitude, enclose_zero, decided, roundFixed_zero]

/-- At the angle 0 the cosine is `1.0` and the sine `+0` (R113 L2). -/
theorem romTrig_zero (d : Nat) : romTrig d 0 false = oneWord ∧ romTrig d 0 true = plusZero := by
  constructor <;> simp [romTrig, romMagnitude_cos_zero, romMagnitude_sin_zero, packSign_oneMag, packSign_zero]

/-- At a quarter turn the cosine is `+0` and the sine `1.0` (R113 L2). -/
theorem romTrig_quarter (d : Nat) :
    romTrig d (4 ^ (d + 1)) false = plusZero ∧ romTrig d (4 ^ (d + 1)) true = oneWord := by
  have hturn : 4 ^ (d + 1) / 4 ^ (d + 1) = 1 := Nat.div_self (by positivity)
  constructor <;>
    simp [romTrig, hturn, romMagnitude_cos_zero, romMagnitude_sin_zero, packSign_oneMag, packSign_zero]

/-- The magnitude rises with the exponent and fraction bits (R90). -/
theorem magnitude_packSign_mono {neg neg' : Bool} {a b : Nat} (hab : a ≤ b) (hb : b < 2 ^ 63) :
    magnitude (packSign neg a) ≤ magnitude (packSign neg' b) := by
  have hfa : a % 2 ^ 52 < 2 ^ 52 := Nat.mod_lt _ (by norm_num)
  have hexp : a / 2 ^ 52 ≤ b / 2 ^ 52 := Nat.div_le_div_right hab
  unfold magnitude
  rw [expField_packSign neg a (by omega), fracField_packSign neg a (by omega), expField_packSign neg' b hb,
    fracField_packSign neg' b hb]
  obtain heq | hlt := hexp.eq_or_lt
  · have hfrac : a % 2 ^ 52 ≤ b % 2 ^ 52 := by omega
    rw [heq]
    split
    · exact hfrac
    · exact Nat.mul_le_mul_right _ (Nat.add_le_add_left hfrac _)
  · rw [if_neg (by omega : b / 2 ^ 52 ≠ 0)]
    split
    · calc a % 2 ^ 52 ≤ 2 ^ 52 + b % 2 ^ 52 := by omega
        _ ≤ (2 ^ 52 + b % 2 ^ 52) * 2 ^ (b / 2 ^ 52 - 1) := Nat.le_mul_of_pos_right _ (by positivity)
    · calc (2 ^ 52 + a % 2 ^ 52) * 2 ^ (a / 2 ^ 52 - 1) ≤ 2 ^ 52 * 2 * 2 ^ (a / 2 ^ 52 - 1) :=
            Nat.mul_le_mul_right _ (by omega)
        _ = 2 ^ 52 * 2 ^ (a / 2 ^ 52 - 1 + 1) := by rw [pow_succ' 2 (a / 2 ^ 52 - 1), mul_assoc]
        _ ≤ (2 ^ 52 + b % 2 ^ 52) * 2 ^ (b / 2 ^ 52 - 1) :=
            Nat.mul_le_mul (Nat.le_add_right _ _) (Nat.pow_le_pow_right (by norm_num) (by omega))

/-- A magnitude up to that of `1.0` makes a finite word in `[-1.0, 1.0]` (R90). -/
theorem packSign_le_one (neg : Bool) {mag : Nat} (h : mag ≤ oneMag) :
    isFinite (packSign neg mag) = true ∧ magnitude (packSign neg mag) ≤ magnitude oneWord := by
  refine ⟨?_, packSign_oneMag ▸ magnitude_packSign_mono h (by decide)⟩
  unfold oneMag at h
  rw [isFinite, expField_packSign neg mag (by omega), decide_eq_true_eq]
  omega

theorem romTrig_le_one (d a : Nat) (isSine : Bool) :
    isFinite (romTrig d a isSine) = true ∧ magnitude (romTrig d a isSine) ≤ magnitude oneWord := by
  unfold romTrig
  apply packSign_le_one
  split
  · exact romMagnitude_le (fun prec => (enclose_loLeOne prec _ _).sLo) 2 romPrecision
  · exact romMagnitude_le (fun prec => (enclose_loLeOne prec _ _).cLo) 2 romPrecision

theorem romDefault_even (d k : Nat) {i : Nat} (hi : i < 4) : romDefault d (8 * k + 2 * i) = romTrig d (i * k) false := by
  unfold romDefault romCos
  rw [if_pos (by omega)]
  congr <;> omega

theorem romDefault_odd (d k : Nat) {i : Nat} (hi : i < 4) :
    romDefault d (8 * k + 2 * i + 1) = romTrig d (i * k) true := by
  unfold romDefault romSin
  rw [if_neg (by omega)]
  congr <;> omega

/-- The default ROM obeys the laws of R113 at every level. -/
theorem romLaws_romDefault (levels : Nat) : RomLaws levels romDefault := by
  refine ⟨fun d _ k _ i hi h0 => ?_, fun d _ => ?_, fun d _ o _ => ?_⟩
  · have hik : i * k = 0 := Nat.mul_eq_zero.mpr h0
    rw [romDefault_even d k hi, romDefault_odd d k hi, hik]
    exact romTrig_zero d
  · have hquarter : 2 * (2 * 4 ^ d) = 4 ^ (d + 1) := by rw [pow_succ]; omega
    have hcos := romDefault_even d (2 * 4 ^ d) (i := 2) (by decide)
    have hsin := romDefault_odd d (2 * 4 ^ d) (i := 2) (by decide)
    rw [hcos, hsin, hquarter]
    exact romTrig_quarter d
  · unfold romDefault
    split
    · exact romTrig_le_one d _ false
    · exact romTrig_le_one d _ true

/-- The reference configuration with the default ROM is a machine R7 admits. -/
theorem configured_reference : Configured referenceCfg [] where
  valid := rfl
  romWf := rfl
  romBelow := rfl
  romLaws := romLaws_romDefault _

/-- Settles O11: the reset state of any admitted machine has the invariant, and `State.reset` is one such state, since the
default ROM obeys the laws. -/
theorem resetMeetsInvariant : Obligations.ResetMeetsInvariant :=
  ⟨configured_reference.resetOf_inv, fun _ _ h => h.resetOf_inv⟩

end Sys2Proof.Machine
end

section
/-! SUPPORT. An idle host's accesses to the memory windows (R61, R63), and the linear addressing of the ROM (R115). -/

namespace Sys2Proof.Machine

/-! ### Host accesses to the windows -/

section
variable {s : State} {win : Window} {a : Nat} {v : FWord} {rest : List Event}

/-- A write inside a window is the window's (R63). -/
theorem step_writeMem (he : s.events = .writeMem win a v :: rest) (hidle : s.status.busy = false)
    (ha : a < windowWords s.cfg win) : step s = .next (writeWindow win a v { s with events := rest }) := by
  simp only [step, he, accept, hidle, if_pos ha]
  rfl

/-- A write outside the window is refused and leaves no trace (R61; log 17). -/
theorem step_writeMem_outside (he : s.events = .writeMem win a v :: rest) (hidle : s.status.busy = false)
    (ha : windowWords s.cfg win ≤ a) : step s = .next { s with events := rest } := by
  simp only [step, he, accept, hidle, if_neg (Nat.not_lt.mpr ha)]
  rfl

/-- A read inside a window answers that window's word (R63). -/
theorem step_readMem (he : s.events = .readMem win a :: rest) (hidle : s.status.busy = false)
    (ha : a < windowWords s.cfg win) :
    step s = .next { s with events := rest, replies := .fword (readWindow win a s) :: s.replies } := by
  simp only [step, he, accept, hidle, if_neg (Nat.not_le.mpr ha)]
  rfl

@[simp] theorem writeWindow_status : (writeWindow win a v s).status = s.status := by cases win <;> rfl
@[simp] theorem writeWindow_cfg : (writeWindow win a v s).cfg = s.cfg := by cases win <;> rfl
@[simp] theorem writeWindow_events : (writeWindow win a v s).events = s.events := by cases win <;> rfl

/-- A data window's word is what was last written to it; the ROM window's is not (R62, R63). -/
theorem readWindow_writeWindow (hwin : win ≠ .twrom) : readWindow win a (writeWindow win a v s) = v := by
  cases win with
  | xmem => exact (s.readX_writeX a a v).trans (if_pos rfl)
  | ymem => exact (s.readY_writeY a a v).trans (if_pos rfl)
  | twrom => exact absurd rfl hwin

/-- A write to a data window and a read of the word written: the second step answers it, and the write's effect on the
window is all that stays (R53, R63). -/
theorem step_write_then_read (he : s.events = .writeMem win a v :: .readMem win a :: rest)
    (hidle : s.status.busy = false) (ha : a < windowWords s.cfg win) (hwin : win ≠ .twrom) :
    ∃ t, step s = .next t ∧
      step t = .next { writeWindow win a v s with events := rest, replies := .fword v :: s.replies } := by
  refine ⟨_, step_writeMem he hidle ha, ?_⟩
  rw [step_readMem (writeWindow_events ..) (by rwa [writeWindow_status]) (by rwa [writeWindow_cfg]),
    readWindow_writeWindow hwin]
  cases win <;> rfl

end

/-! ### Linear ROM addresses -/

theorem three_mul_levelBase (d : Nat) : 3 * levelBase d = 32 * (4 ^ d - 1) := by
  have hdvd : 3 ∣ 4 ^ d - 1 := by simpa using Nat.sub_dvd_pow_sub_pow 4 1 d
  exact Nat.mul_div_cancel' (hdvd.mul_left 32)

/-- The next level index starts where the block of this one ends (R114, R115). -/
theorem levelBase_succ (d : Nat) : levelBase (d + 1) = levelBase d + levelWords d := by
  have h := three_mul_levelBase d
  have hsucc := three_mul_levelBase (d + 1)
  have hpos : 0 < 4 ^ d := by positivity
  simp only [levelWords, levelSize, pow_succ] at hsucc ⊢
  omega

theorem levelBase_mono : Monotone levelBase :=
  monotone_nat_of_le_succ fun d => by rw [levelBase_succ]; exact Nat.le_add_right _ _

/-- The search for an address's level index finds the one whose block holds it, when it starts no later and goes far
enough. -/
theorem levelFrom_eq {fuel d l a : Nat} (hd : d ≤ l) (hl : l ≤ d + fuel) (hlo : levelBase l ≤ a)
    (hhi : a < levelBase (l + 1)) : levelFrom fuel d a = l := by
  induction fuel generalizing d with
  | zero => exact hd.antisymm hl
  | succ fuel ih =>
    unfold levelFrom
    obtain rfl | hlt := hd.eq_or_lt
    · exact if_pos hhi
    · have hpast : levelBase (d + 1) ≤ a := (levelBase_mono hlt).trans hlo
      rw [if_neg (Nat.not_lt.mpr hpast)]
      exact ih hlt (by omega)

/-- `TW(d, o)` stands at linear address `LB(d) + o` (R115). -/
theorem State.romLinear_levelBase_add (s : State) {d o : Nat} (hd : d ≤ 15) (ho : o < levelWords d) :
    s.romLinear (levelBase d + o) = s.romWord d o := by
  have hlevel : levelFrom 15 0 (levelBase d + o) = d :=
    levelFrom_eq (Nat.zero_le d) (by omega) (Nat.le_add_right _ _) (by rw [levelBase_succ]; omega)
  simp only [State.romLinear, hlevel, Nat.add_sub_cancel_left]

/-- A level the ROM holds lies inside its window (R27, R115). -/
theorem levelBase_add_lt_romWords {c : Cfg} {d o : Nat} (hd : d + 2 ≤ c.log4NMax) (ho : o < levelWords d) :
    levelBase d + o < romWords c := by
  calc levelBase d + o < levelBase (d + 1) := by rw [levelBase_succ]; omega
    _ ≤ romWords c := levelBase_mono (by omega)

/-- Settles O26: the two data windows are one argument, `step_write_then_read`. -/
theorem windowWriteThenRead : Obligations.WindowWriteThenRead := by
  intro s a v rest hidle
  refine ⟨fun ha he => ?_, fun ha he => ?_, fun ha he => ?_⟩
  · obtain ⟨t, hwrite, hread⟩ := step_write_then_read he hidle ha (by decide)
    exact ⟨t, _, hwrite, hread, rfl, rfl, fun b hb => (s.readX_writeX a b v).trans (if_neg hb)⟩
  · obtain ⟨t, hwrite, hread⟩ := step_write_then_read he hidle ha (by decide)
    exact ⟨t, _, hwrite, hread, rfl, rfl, fun b hb => (s.readY_writeY a b v).trans (if_neg hb)⟩
  · obtain he | he := he <;> exact step_writeMem_outside he hidle ha

/-- Settles O27: `LB(d) + o` lies inside the ROM window and names `TW(d, o)`; the window keeps no write. -/
theorem romWindow : Obligations.RomWindow := by
  intro s d o v rest hidle hlevels hd ho
  have ha : levelBase d + o < windowWords s.cfg .twrom := levelBase_add_lt_romWords hd ho
  refine ⟨fun he => ?_, fun he => step_writeMem he hidle ha⟩
  rw [← s.romLinear_levelBase_add (by omega) ho]
  exact step_readMem he hidle ha

end Sys2Proof.Machine
end

section
/-! SUPPORT. The family 30_encoding.md: every field of a record is read back from its bytes, so the decoder inverts the
encoder (R73, R77), and a step runs the operation decoded (R70). -/

namespace Sys2Proof

/-! ### The fields of a record -/

section
variable (rest : List Byte)

/-- `n` bytes carry a number modulo `256^n` (log 7). -/
theorem takeLE_putLE_append (n v : Nat) : takeLE n (putLE n v ++ rest) = .ok (v % 256 ^ n, rest) := by
  induction n generalizing v with
  | zero => simp [takeLE, putLE, Nat.mod_one]
  | succ n ih =>
    have hsplit : v % 256 + 256 * (v / 256 % 256 ^ n) = v % 256 ^ (n + 1) := by
      rw [pow_succ', Nat.mod_mul]
    simp [takeLE, putLE, ih, hsplit]

theorem takeNat_putLE_append {v : Nat} (h : fits32 v = true) : takeNat (putLE 4 v ++ rest) = .ok (v, rest) := by
  have hv : v < 256 ^ 4 := of_decide_eq_true h
  rw [takeNat, takeLE_putLE_append, Nat.mod_eq_of_lt hv]

@[simp] theorem takeFWord_putLE_append (v : FWord) : takeFWord (putLE 8 v.toNat ++ rest) = .ok (v, rest) := by
  have hv : v.toNat < 256 ^ 8 := v.isLt
  simp only [takeFWord, takeLE_putLE_append, Nat.mod_eq_of_lt hv, BitVec.ofNat_toNat, BitVec.setWidth_eq]

@[simp] theorem takeMem_putMem_append (m : DataMem) : takeMem (putMem m ++ rest) = .ok (m, rest) := by
  cases m <;> rfl

end

/-! ### Decoding an encoding -/

/-- A command's word is decoded to that command (R73). -/
theorem decodeCommand_of_encode {i : Instr} {w : Word32} (h : encode i = .command w) : decodeCommand w = .ok i := by
  cases i <;> cases h <;> rfl

/-- A record's kind code selects the micro-operation, and its operands are read back in order; what follows is left
over (R77). -/
theorem decodeRecord_of_encode {i : Instr} {bs : List Byte} (hwf : i.wellFormed = true) (h : encode i = .record bs)
    (rest : List Byte) : decodeRecord (bs ++ rest) = .ok (i, rest) := by
  cases i with
  | initTw | xform | xformT => cases h
  | cmul =>
    cases h
    simp [decodeRecord, decodeOperands, bind, Except.bind]
  | bfly4 | combine | bufld | bufst | twrd =>
    simp only [Instr.wellFormed, Bool.and_eq_true] at hwf
    cases h
    simp [decodeRecord, decodeOperands, takeNat_putLE_append, hwf, bind, Except.bind]

theorem decode_encode {i : Instr} (hwf : i.wellFormed = true) : decode (encode i) = .ok (i, []) := by
  cases henc : encode i with
  | command w => rw [decode, decodeCommand_of_encode henc]
  | record bs => simpa [decode] using decodeRecord_of_encode hwf henc []

/-- Settles O1: a field's bytes hold its value (`takeLE_putLE_append`), and a record is its kind code and its fields. -/
theorem decodeOfEncode : Obligations.DecodeOfEncode :=
  ⟨fun _ hwf => decode_encode hwf, fun _ _ rest hwf henc => decodeRecord_of_encode hwf henc rest⟩

/-! ### Command words -/

/-- The three command words (R73), and no other (R74). -/
theorem decodeCommand_eq_ok_iff {w : Word32} {i : Instr} : decodeCommand w = .ok i ↔
    w = 0x00000001#32 ∧ i = .initTw ∨ w = 0x00000002#32 ∧ i = .xform ∨ w = 0x00000003#32 ∧ i = .xformT := by
  unfold decodeCommand
  split
  · simp_all [eq_comm]
  · split
    · simp_all [eq_comm]
    · split <;> simp_all [eq_comm]

/-- A word whose bits 31:8 are 0 is its OPC, bits 7:0 (R71). -/
theorem opcode_fields_iff (w : Word32) (opc : BitVec 8) :
    w.extractLsb' 8 24 = 0#24 ∧ w.extractLsb' 0 8 = opc ↔ w = opc.setWidth 32 := by
  simp only [BitVec.toNat_eq, BitVec.extractLsb'_toNat, BitVec.toNat_setWidth, BitVec.toNat_ofNat,
    Nat.shiftRight_eq_div_pow]
  omega

/-- Settles O2: the fields of R71 fix the word, and the decoder accepts three words. -/
theorem commandDecoder : Obligations.CommandDecoder := by
  refine ⟨fun w i => ?_, fun w h1 h2 h3 => ?_⟩
  · simp only [decodeCommand_eq_ok_iff, and_or_left, ← and_assoc, opcode_fields_iff]
    rfl
  · rw [decodeCommand, if_neg h1, if_neg h2, if_neg h3]

/-- Settles O4: the decoder evaluated on the five words. -/
theorem specWordsDecode : Obligations.SpecWordsDecode := ⟨rfl, rfl, rfl, rfl, rfl⟩

namespace Machine

/-! ### The step on an encoded operation -/

section
variable {s : State} {i : Instr} {rest : List Event}

/-- A command word written to CMD while idle runs its command (R70). -/
theorem step_writeCommand {w : Word32} (he : s.events = .writeReg 0x00 w :: rest) (hidle : s.status.busy = false)
    (hw : decodeCommand w = .ok i) : step s = exec i { s with events := rest } := by
  simp only [step, he, accept, hidle, writeCommand, hw]
  rfl

/-- An issued record runs its micro-operation, whatever follows it (R70; log 9). -/
theorem step_issue {bs tail : List Byte} (he : s.events = .issue bs :: rest) (hbs : decodeRecord bs = .ok (i, tail)) :
    step s = exec i { s with events := rest } := by
  simp only [step, he, accept, hbs]

end

/-- Settles O5: a command word and a record, the two events that start an operation (R70). -/
theorem stepRunsDecoded : Obligations.StepRunsDecoded :=
  ⟨fun _ _ _ _ he hidle hw => step_writeCommand he hidle hw, fun _ _ _ _ _ he hbs => step_issue he hbs⟩

/-- Settles O6: the event of an encoding starts the operation that the encoding is decoded to. -/
theorem encodedOperationRuns : Obligations.EncodedOperationRuns := by
  intro s i hwf
  cases henc : encode i with
  | command w => exact step_writeCommand (s := s.withEvent (.writeReg 0x00 w)) rfl rfl (decodeCommand_of_encode henc)
  | record bs =>
    have hdec : decodeRecord bs = .ok (i, []) := by simpa using decodeRecord_of_encode hwf henc []
    exact step_issue (s := s.withEvent (.issue bs)) rfl hdec

end Machine

end Sys2Proof
end

section
/-! SUPPORT. The family 40_numerics.md: a word as its sign and its other 63 bits, the classes of R90 read from those bits,
and the magnitude as a strictly increasing function of them. -/

namespace Sys2Proof.Machine

/-! ### A word as its sign and its other bits -/

/-- Bits 62:0, the exponent and the fraction (R90; `packSign_magBits`). -/
def magBits (w : FWord) : Nat := w.toNat % 2 ^ 63

theorem magBits_lt (w : FWord) : magBits w < 2 ^ 63 := Nat.mod_lt _ (by norm_num)

theorem packSign_magBits (w : FWord) : packSign (signBit w) (magBits w) = w := by
  have hlt := w.isLt
  apply BitVec.eq_of_toNat_eq
  rw [packSign_toNat _ _ (magBits_lt w), signBit, magBits]
  simp only [decide_eq_true_eq]
  split <;> omega

theorem magBits_packSign (neg : Bool) {m : Nat} (h : m < 2 ^ 63) : magBits (packSign neg m) = m := by
  rw [magBits, packSign_toNat neg m h]
  split <;> omega

theorem eq_of_signBit_of_magBits {a b : FWord} (hs : signBit a = signBit b) (hm : magBits a = magBits b) : a = b := by
  rw [← packSign_magBits a, ← packSign_magBits b, hs, hm]

theorem expField_eq (w : FWord) : expField w = magBits w / 2 ^ 52 := by
  unfold expField magBits
  omega

theorem fracField_eq (w : FWord) : fracField w = magBits w % 2 ^ 52 := by
  unfold fracField magBits
  omega

@[simp] theorem magBits_fneg (w : FWord) : magBits (fneg w) = magBits w := fneg_toNat_mod w

@[simp] theorem signBit_fneg (w : FWord) : signBit (fneg w) = !signBit w := by
  have hmsb : ∀ v : FWord, signBit v = v.msb := fun v => (BitVec.msb_eq_decide v).symm
  rw [hmsb, hmsb, fneg, BitVec.msb_xor]
  exact Bool.xor_true _

/-! ### The classes of R90 -/

theorem isNaN_iff (w : FWord) : isNaN w = true ↔ infMag < magBits w := by
  have hlt := magBits_lt w
  simp only [isNaN, expField_eq, fracField_eq, infMag, Bool.and_eq_true, decide_eq_true_eq]
  omega

theorem isInf_iff (w : FWord) : isInf w = true ↔ magBits w = infMag := by
  have hlt := magBits_lt w
  simp only [isInf, expField_eq, fracField_eq, infMag, Bool.and_eq_true, decide_eq_true_eq]
  omega

theorem isFinite_iff (w : FWord) : isFinite w = true ↔ magBits w < infMag := by
  have hlt := magBits_lt w
  simp only [isFinite, expField_eq, infMag, decide_eq_true_eq]
  omega

theorem isZero_iff (w : FWord) : isZero w = true ↔ magBits w = 0 := by
  simp only [isZero, expField_eq, fracField_eq, Bool.and_eq_true, decide_eq_true_eq]
  omega

@[simp] theorem isInf_fneg (w : FWord) : isInf (fneg w) = isInf w := by
  rw [Bool.eq_iff_iff, isInf_iff, isInf_iff, magBits_fneg]

@[simp] theorem isFinite_fneg (w : FWord) : isFinite (fneg w) = isFinite w := by
  rw [Bool.eq_iff_iff, isFinite_iff, isFinite_iff, magBits_fneg]

@[simp] theorem isZero_fneg (w : FWord) : isZero (fneg w) = isZero w := by
  rw [Bool.eq_iff_iff, isZero_iff, isZero_iff, magBits_fneg]

theorem isNaN_or_isInf_or_isFinite (w : FWord) : isNaN w = true ∨ isInf w = true ∨ isFinite w = true := by
  rw [isNaN_iff, isInf_iff, isFinite_iff]
  omega

theorem isNaN_of_isInf {w : FWord} (h : isInf w = true) : isNaN w = false := by
  rw [← Bool.not_eq_true, isNaN_iff]
  rw [isInf_iff] at h
  omega

theorem isNaN_of_isFinite {w : FWord} (h : isFinite w = true) : isNaN w = false := by
  rw [← Bool.not_eq_true, isNaN_iff]
  rw [isFinite_iff] at h
  omega

theorem isInf_of_isFinite {w : FWord} (h : isFinite w = true) : isInf w = false := by
  rw [← Bool.not_eq_true, isInf_iff]
  rw [isFinite_iff] at h
  omega

theorem isFinite_of_isZero {w : FWord} (h : isZero w = true) : isFinite w = true := by
  rw [isZero_iff] at h
  rw [isFinite_iff, h]
  decide

theorem isZero_of_isInf {w : FWord} (h : isInf w = true) : isZero w = false :=
  Bool.eq_false_iff.mpr fun hz => by simp [isInf_of_isFinite (isFinite_of_isZero hz)] at h

theorem eq_of_isInf {a b : FWord} (ha : isInf a = true) (hb : isInf b = true) (hs : signBit a = signBit b) : a = b :=
  eq_of_signBit_of_magBits hs (((isInf_iff a).mp ha).trans ((isInf_iff b).mp hb).symm)

theorem packSign_infMag_of_isInf {w : FWord} (h : isInf w = true) : packSign (signBit w) infMag = w := by
  rw [← (isInf_iff w).mp h, packSign_magBits]

theorem packSign_zero_of_isZero {w : FWord} (h : isZero w = true) : packSign (signBit w) 0 = w := by
  rw [← (isZero_iff w).mp h, packSign_magBits]

theorem packSign_zero_eq (neg : Bool) : packSign neg 0 = if neg = true then minusZero else plusZero := by
  cases neg <;> decide

/-- A zero is `-0` exactly when its sign bit is set (R90). -/
theorem eq_minusZero_iff {w : FWord} (h : isZero w = true) : w = minusZero ↔ signBit w = true := by
  constructor
  · rintro rfl
    decide
  · intro hs
    rw [← packSign_zero_of_isZero h, hs, packSign_zero_eq, if_pos rfl]

/-! ### The magnitude -/

/-- Below its exponent's carry, a word with `e*2^52 + n` as exponent and fraction bits is `n` units of its last place,
`2^e`. With `n = 2^53` it is the first word of the next binade, which has the same value (R90). -/
theorem magnitude_packSign_grid (neg : Bool) {e n : Nat} (hn : n ≤ 2 ^ 53) (he : e = 0 ∨ 2 ^ 52 ≤ n)
    (hb : e * 2 ^ 52 + n < 2 ^ 63) : magnitude (packSign neg (e * 2 ^ 52 + n)) = n * 2 ^ e := by
  rw [magnitude, expField_packSign neg _ hb, fracField_packSign neg _ hb]
  obtain hsub | hlow := Nat.lt_or_ge n (2 ^ 52)
  · obtain rfl : e = 0 := by omega
    rw [if_pos (by omega), pow_zero]
    omega
  · rw [if_neg (by omega)]
    obtain hnormal | rfl := Nat.lt_or_eq_of_le hn
    · rw [show (e * 2 ^ 52 + n) / 2 ^ 52 - 1 = e by omega, show 2 ^ 52 + (e * 2 ^ 52 + n) % 2 ^ 52 = n by omega]
    · rw [show (e * 2 ^ 52 + 2 ^ 53) / 2 ^ 52 - 1 = e + 1 by omega,
        show 2 ^ 52 + (e * 2 ^ 52 + 2 ^ 53) % 2 ^ 52 = 2 ^ 52 by omega, pow_succ' 2 e, ← mul_assoc]
      norm_num

/-- Every pattern of exponent and fraction bits has the form of `magnitude_packSign_grid`, short of the carry. -/
theorem exists_grid (x : Nat) : ∃ e n, n < 2 ^ 53 ∧ (e = 0 ∨ 2 ^ 52 ≤ n) ∧ x = e * 2 ^ 52 + n :=
  ⟨x / 2 ^ 52 - 1, x - (x / 2 ^ 52 - 1) * 2 ^ 52, by omega, by omega, by omega⟩

theorem magnitude_eq_packSign_magBits (neg : Bool) (w : FWord) : magnitude w = magnitude (packSign neg (magBits w)) := by
  unfold magnitude
  rw [expField_packSign _ _ (magBits_lt w), fracField_packSign _ _ (magBits_lt w), ← expField_eq, ← fracField_eq]

@[simp] theorem magnitude_fneg (w : FWord) : magnitude (fneg w) = magnitude w := by
  unfold magnitude
  rw [expField_fneg, fracField_fneg]

theorem magnitude_lt_of_magBits_lt {a b : FWord} (h : magBits a < magBits b) : magnitude a < magnitude b := by
  have hb := magBits_lt b
  obtain ⟨e, n, hn, he, hx⟩ := exists_grid (magBits a)
  calc magnitude a = n * 2 ^ e := by
        rw [magnitude_eq_packSign_magBits false a, hx, magnitude_packSign_grid false hn.le he (by omega)]
    _ < (n + 1) * 2 ^ e := Nat.mul_lt_mul_of_pos_right n.lt_succ_self (by positivity)
    _ = magnitude (packSign false (magBits a + 1)) := by
        rw [hx, Nat.add_assoc, magnitude_packSign_grid false hn (by omega) (by omega)]
    _ ≤ magnitude (packSign false (magBits b)) := magnitude_packSign_mono h hb
    _ = magnitude b := (magnitude_eq_packSign_magBits false b).symm

theorem eq_of_signBit_of_magnitude {a b : FWord} (hs : signBit a = signBit b) (hm : magnitude a = magnitude b) :
    a = b := by
  apply eq_of_signBit_of_magBits hs
  obtain hlt | heq | hgt := Nat.lt_trichotomy (magBits a) (magBits b)
  · exact absurd hm (magnitude_lt_of_magBits_lt hlt).ne
  · exact heq
  · exact absurd hm (magnitude_lt_of_magBits_lt hgt).ne'

theorem magnitude_eq_zero_iff (w : FWord) : magnitude w = 0 ↔ isZero w = true := by
  simp only [magnitude, isZero, Bool.and_eq_true, decide_eq_true_eq]
  split <;> simp [*]

/-- No finite word is beyond `(2^53 - 1) * 2^971`, in units of `2^-1074` (R90). -/
theorem magnitude_le_of_isFinite {w : FWord} (h : isFinite w = true) : magnitude w ≤ (2 ^ 53 - 1) * 2 ^ 2045 := by
  rw [isFinite_iff, infMag] at h
  rw [magnitude_eq_packSign_magBits false w,
    ← magnitude_packSign_grid false (e := 2045) (n := 2 ^ 53 - 1) (by norm_num) (by norm_num) (by norm_num)]
  exact magnitude_packSign_mono (by omega) (by norm_num)

/-! ### The value -/

theorem natAbs_value (w : FWord) : (value w).natAbs = magnitude w := by
  unfold value
  split <;> simp

theorem value_eq_zero_iff (w : FWord) : value w = 0 ↔ isZero w = true := by
  rw [← magnitude_eq_zero_iff, ← natAbs_value, Int.natAbs_eq_zero]

theorem decide_value_neg {w : FWord} (h : value w ≠ 0) : decide (value w < 0) = signBit w := by
  have hpos : magnitude w ≠ 0 := by rwa [Ne, magnitude_eq_zero_iff, ← value_eq_zero_iff]
  unfold value
  cases signBit w
  · simp
  · simpa using Nat.pos_of_ne_zero hpos

@[simp] theorem value_fneg (w : FWord) : value (fneg w) = -value w := by
  unfold value
  rw [magnitude_fneg, signBit_fneg]
  cases signBit w <;> simp

end Sys2Proof.Machine
end

section
/-! SUPPORT. Rounding to nearest even (R91): what `nearestEven` answers, the significand that `roundMag` rounds, and where
it overflows. -/

namespace Sys2Proof.Machine

/-! ### Rounding to a whole number -/

/-- The rounded number is at most half a unit off, and at exactly half a unit it is even (R91). -/
theorem nearestEven_spec (m d : Nat) :
    2 * (nearestEven m d * 2 ^ d) ≤ 2 * m + 2 ^ d ∧ 2 * m ≤ 2 * (nearestEven m d * 2 ^ d) + 2 ^ d ∧
    (2 * (nearestEven m d * 2 ^ d) = 2 * m + 2 ^ d ∨ 2 * m = 2 * (nearestEven m d * 2 ^ d) + 2 ^ d →
      nearestEven m d % 2 = 0) := by
  have hdiv : m / 2 ^ d * 2 ^ d + m % 2 ^ d = m := by rw [mul_comm]; exact Nat.div_add_mod m (2 ^ d)
  have hrem : m % 2 ^ d < 2 ^ d := Nat.mod_lt _ (by positivity)
  have hup : (m / 2 ^ d + 1) * 2 ^ d = m / 2 ^ d * 2 ^ d + 2 ^ d := Nat.succ_mul _ _
  unfold nearestEven
  dsimp only
  split
  · omega
  · split
    · obtain heven | hodd := Nat.mod_two_eq_zero_or_one (m / 2 ^ d)
      · rw [heven, Nat.add_zero]
        omega
      · rw [hodd]
        omega
    · omega

/-- No whole number of units of `2^d` is nearer to `m`, and if another is as near, the rounded one is even (R91). -/
theorem nearestEven_nearest (m d j : Nat) :
    |((nearestEven m d * 2 ^ d : Nat) : Int) - m| ≤ |((j * 2 ^ d : Nat) : Int) - m| ∧
    (j ≠ nearestEven m d → |((nearestEven m d * 2 ^ d : Nat) : Int) - m| = |((j * 2 ^ d : Nat) : Int) - m| →
      nearestEven m d % 2 = 0) := by
  obtain ⟨hlow, hhigh, htie⟩ := nearestEven_spec m d
  obtain hlt | rfl | hgt := Nat.lt_trichotomy j (nearestEven m d)
  · have hstep : j * 2 ^ d + 2 ^ d ≤ nearestEven m d * 2 ^ d := by
      rw [← Nat.succ_mul]
      exact Nat.mul_le_mul_right _ hlt
    simp only [Int.abs_eq_natAbs]
    omega
  · exact ⟨le_rfl, fun hne => absurd rfl hne⟩
  · have hstep : nearestEven m d * 2 ^ d + 2 ^ d ≤ j * 2 ^ d := by
      rw [← Nat.succ_mul]
      exact Nat.mul_le_mul_right _ hgt
    simp only [Int.abs_eq_natAbs]
    omega

/-! ### The significand of the rounded magnitude -/

/-- How many bits of `m` fall below the last place of the rounded magnitude (`roundMag_eq_roundDrop`). -/
def roundDrop (m k : Nat) : Nat := max (m.log2 - 52) k

theorem roundMag_eq_roundDrop (m k : Nat) :
    roundMag m k = min ((roundDrop m k - k) * 2 ^ 52 + nearestEven m (roundDrop m k)) infMag := rfl

theorem le_roundDrop (m k : Nat) : k ≤ roundDrop m k := Nat.le_max_right _ _

theorem lt_two_pow_roundDrop (m k : Nat) : m < 2 ^ 53 * 2 ^ roundDrop m k :=
  calc m < 2 ^ (m.log2 + 1) := Nat.lt_log2_self
    _ ≤ 2 ^ (53 + roundDrop m k) := Nat.pow_le_pow_right (by norm_num) (by unfold roundDrop; omega)
    _ = 2 ^ 53 * 2 ^ roundDrop m k := pow_add 2 53 _

/-- Where bits above the subnormal grid fall off, the magnitude has all 53 bits of a significand. -/
theorem two_pow_roundDrop_le {m k : Nat} (h : k < roundDrop m k) : 2 ^ 52 * 2 ^ roundDrop m k ≤ m := by
  unfold roundDrop at h ⊢
  have hm : m ≠ 0 := by
    rintro rfl
    simp at h
  calc 2 ^ 52 * 2 ^ max (m.log2 - 52) k = 2 ^ m.log2 := by rw [← pow_add]; congr 1; omega
    _ ≤ m := Nat.log2_self_le hm

theorem significand_le (m k : Nat) : nearestEven m (roundDrop m k) ≤ 2 ^ 53 :=
  nearestEven_le (lt_two_pow_roundDrop m k)

theorem le_significand {m k : Nat} (h : k < roundDrop m k) : 2 ^ 52 ≤ nearestEven m (roundDrop m k) := by
  have hpos : 0 < 2 ^ roundDrop m k := by positivity
  obtain ⟨-, hhigh, -⟩ := nearestEven_spec m (roundDrop m k)
  have hm := two_pow_roundDrop_le h
  by_contra! hlt
  have hstep := Nat.mul_le_mul_right (2 ^ roundDrop m k) hlt
  rw [Nat.succ_mul] at hstep
  omega

/-- The rounded magnitude overflows exactly from the midpoint between the largest finite number and `2^1024` on (R91). -/
theorem overflow_iff (m k : Nat) :
    infMag ≤ (roundDrop m k - k) * 2 ^ 52 + nearestEven m (roundDrop m k) ↔ (2 ^ 54 - 1) * 2 ^ (2044 + k) ≤ m := by
  have hpos : 0 < 2 ^ (2044 + k) := by positivity
  have hsig := significand_le m k
  unfold infMag
  obtain hlt | heq | hgt := Nat.lt_trichotomy (roundDrop m k) (2045 + k)
  · have hm := lt_two_pow_roundDrop m k
    have hdrop : 2 ^ roundDrop m k ≤ 2 ^ (2044 + k) := Nat.pow_le_pow_right (by norm_num) (by omega)
    omega
  · have hdrop : 2 ^ roundDrop m k = 2 * 2 ^ (2044 + k) := by rw [heq, ← pow_succ']; congr 1; omega
    obtain ⟨hlow, hhigh, htie⟩ := nearestEven_spec m (roundDrop m k)
    rw [hdrop] at hlow hhigh htie
    obtain hcarry | hodd | hless := show nearestEven m (roundDrop m k) = 2 ^ 53 ∨
        nearestEven m (roundDrop m k) = 2 ^ 53 - 1 ∨ nearestEven m (roundDrop m k) + 2 ≤ 2 ^ 53 by omega
    · rw [hcarry] at hlow ⊢
      omega
    · rw [hodd] at hhigh htie ⊢
      omega
    · have hstep := Nat.mul_le_mul_right (2 * 2 ^ (2044 + k)) hless
      rw [Nat.add_mul] at hstep
      omega
  · have hm := two_pow_roundDrop_le (m := m) (k := k) (by omega)
    have hlow := le_significand (m := m) (k := k) (by omega)
    have hdrop : 4 * 2 ^ (2044 + k) ≤ 2 ^ roundDrop m k := by
      rw [show 4 = 2 ^ 2 from rfl, ← pow_add]
      exact Nat.pow_le_pow_right (by norm_num) (by omega)
    omega

/-! ### Nearest among the finite words -/

/-- Every finite magnitude is a whole number of the last places of the rounded one, or lies below its binade. -/
theorem magnitude_grid_or_below (w : FWord) (d : Nat) :
    (∃ j, magnitude w = j * 2 ^ d) ∨ 0 < d ∧ magnitude w < 2 ^ 52 * 2 ^ d := by
  have hw := magBits_lt w
  obtain ⟨e, n, hn, he, hx⟩ := exists_grid (magBits w)
  rw [magnitude_eq_packSign_magBits false w, hx, magnitude_packSign_grid false hn.le he (by omega)]
  obtain hlt | hle := Nat.lt_or_ge e d
  · refine .inr ⟨by omega, ?_⟩
    calc n * 2 ^ e < 2 ^ 53 * 2 ^ e := Nat.mul_lt_mul_of_pos_right hn (by positivity)
      _ = 2 ^ 52 * 2 ^ (e + 1) := by rw [pow_succ' 2 e, ← mul_assoc]; norm_num
      _ ≤ 2 ^ 52 * 2 ^ d := Nat.mul_le_mul_left _ (Nat.pow_le_pow_right (by norm_num) hlt)
  · refine .inl ⟨n * 2 ^ (e - d), ?_⟩
    rw [mul_assoc, ← pow_add, Nat.sub_add_cancel hle]

/-- No finite magnitude is nearer to `m / 2^k` than the rounded significand, and if another is as near, the significand is
even (R91). -/
theorem significand_nearest (m k : Nat) (v : FWord) :
    |((nearestEven m (roundDrop m k) * 2 ^ roundDrop m k : Nat) : Int) - m| ≤
      |((magnitude v * 2 ^ k : Nat) : Int) - m| ∧
    (magnitude v ≠ nearestEven m (roundDrop m k) * 2 ^ (roundDrop m k - k) →
      |((nearestEven m (roundDrop m k) * 2 ^ roundDrop m k : Nat) : Int) - m| =
        |((magnitude v * 2 ^ k : Nat) : Int) - m| →
      nearestEven m (roundDrop m k) % 2 = 0) := by
  have hplace : 2 ^ (roundDrop m k - k) * 2 ^ k = 2 ^ roundDrop m k := by
    rw [← pow_add, Nat.sub_add_cancel (le_roundDrop m k)]
  obtain ⟨j, hj⟩ | ⟨hd, hbelow⟩ := magnitude_grid_or_below v (roundDrop m k - k)
  · obtain ⟨hnear, htie⟩ := nearestEven_nearest m (roundDrop m k) j
    rw [hj, mul_assoc, hplace]
    exact ⟨hnear, fun hne => htie fun h => hne (by rw [h])⟩
  · have hlow := two_pow_roundDrop_le (m := m) (k := k) (by omega)
    have hv : magnitude v * 2 ^ k < 2 ^ 52 * 2 ^ roundDrop m k := by
      rw [← hplace, ← mul_assoc]
      exact Nat.mul_lt_mul_of_pos_right hbelow (by positivity)
    have hcloser : |((nearestEven m (roundDrop m k) * 2 ^ roundDrop m k : Nat) : Int) - m| <
        |((magnitude v * 2 ^ k : Nat) : Int) - m| := by
      refine (nearestEven_nearest m (roundDrop m k) (2 ^ 52)).1.trans_lt ?_
      simp only [Int.abs_eq_natAbs]
      omega
    exact ⟨hcloser.le, fun _ heq => absurd heq hcloser.ne⟩

/-! ### The rounded word -/

/-- The bound of R91, `2^1024 - 2^970`, in units of `2^-1074 / 2^k`. -/
theorem overflowBound_eq (k : Nat) : (2 ^ 1024 - 2 ^ 970) * 2 ^ 1074 * 2 ^ k = (2 ^ 54 - 1) * 2 ^ (2044 + k) := by
  have hsub : 2 ^ 1024 - 2 ^ 970 = (2 ^ 54 - 1) * 2 ^ 970 := by rw [Nat.sub_mul, one_mul, ← pow_add]
  rw [hsub, mul_assoc, mul_assoc, ← pow_add, ← pow_add, ← Nat.add_assoc]

theorem roundMag_of_overflow {m k : Nat} (h : (2 ^ 54 - 1) * 2 ^ (2044 + k) ≤ m) : roundMag m k = infMag :=
  Nat.min_eq_right ((overflow_iff m k).mpr h)

theorem roundMag_of_lt {m k : Nat} (h : m < (2 ^ 54 - 1) * 2 ^ (2044 + k)) :
    roundMag m k = (roundDrop m k - k) * 2 ^ 52 + nearestEven m (roundDrop m k) ∧ roundMag m k < infMag := by
  have hlt := Nat.not_le.mp (mt (overflow_iff m k).mp (Nat.not_le.mpr h))
  rw [roundMag_eq_roundDrop, Nat.min_eq_left hlt.le]
  exact ⟨rfl, hlt⟩

/-- Below the overflow the rounded word's magnitude is the significand at its last place, and its fraction has the
significand's parity (R91). -/
theorem packSign_roundMag_of_lt (neg : Bool) {m k : Nat} (h : m < (2 ^ 54 - 1) * 2 ^ (2044 + k)) :
    magnitude (packSign neg (roundMag m k)) = nearestEven m (roundDrop m k) * 2 ^ (roundDrop m k - k) ∧
    fracField (packSign neg (roundMag m k)) % 2 = nearestEven m (roundDrop m k) % 2 := by
  obtain ⟨hx, hlt⟩ := roundMag_of_lt h
  have hsig : roundDrop m k - k = 0 ∨ 2 ^ 52 ≤ nearestEven m (roundDrop m k) :=
    (Nat.eq_zero_or_pos _).imp_right fun hpos => le_significand (by omega)
  have hbits : (roundDrop m k - k) * 2 ^ 52 + nearestEven m (roundDrop m k) < 2 ^ 63 := by
    unfold infMag at hlt
    omega
  rw [hx, magnitude_packSign_grid neg (significand_le m k) hsig hbits, fracField_packSign neg _ hbits]
  exact ⟨rfl, by omega⟩

theorem roundMag_lt (m k : Nat) : roundMag m k < 2 ^ 63 := (roundMag_le m k).trans_lt (by decide)

@[simp] theorem signBit_packSign_roundMag (neg : Bool) (m k : Nat) : signBit (packSign neg (roundMag m k)) = neg :=
  signBit_packSign neg _ (roundMag_lt m k)

theorem magBits_packSign_roundMag (neg : Bool) (m k : Nat) : magBits (packSign neg (roundMag m k)) = roundMag m k :=
  magBits_packSign neg (roundMag_lt m k)

/-- Settles O16: the significand is the nearest whole number of last places (`significand_nearest`), and overflows exactly
from the bound on (`overflow_iff`). -/
theorem roundIsNearestEven : Obligations.RoundIsNearestEven := by
  rintro neg m k w rfl
  rw [overflowBound_eq, isInf_iff, isFinite_iff, magBits_packSign_roundMag, signBit_packSign_roundMag]
  refine ⟨fun h => ⟨roundMag_of_overflow h, rfl⟩, fun h => ⟨(roundMag_of_lt h).2, rfl, fun v _ hsign => ?_⟩⟩
  obtain ⟨hmag, hparity⟩ := packSign_roundMag_of_lt neg h
  obtain ⟨hnear, htie⟩ := significand_nearest m k v
  have hplace : magnitude (packSign neg (roundMag m k)) * 2 ^ k =
      nearestEven m (roundDrop m k) * 2 ^ roundDrop m k := by
    rw [hmag, mul_assoc, ← pow_add, Nat.sub_add_cancel (le_roundDrop m k)]
  rw [← hplace, ← hmag] at htie
  rw [← hplace] at hnear
  rw [hparity]
  push_cast at hnear htie
  exact ⟨hnear, fun hne => htie fun heq => hne (eq_of_signBit_of_magnitude (by simp [hsign]) heq)⟩

/-- A finite word's own magnitude is rounded to that word (R98). -/
theorem round_magnitude {w : FWord} (hw : isFinite w = true) (k : Nat) :
    packSign (signBit w) (roundMag (magnitude w * 2 ^ k) k) = w := by
  have hbelow : magnitude w * 2 ^ k < (2 ^ 54 - 1) * 2 ^ (2044 + k) := by
    calc magnitude w * 2 ^ k ≤ (2 ^ 53 - 1) * 2 ^ 2045 * 2 ^ k := Nat.mul_le_mul_right _ (magnitude_le_of_isFinite hw)
      _ = (2 ^ 54 - 2) * 2 ^ (2044 + k) := by
        rw [show 2 ^ 54 - 2 = (2 ^ 53 - 1) * 2 from rfl, mul_assoc, mul_assoc, ← pow_add, ← pow_succ']
        congr 2
        omega
      _ < (2 ^ 54 - 1) * 2 ^ (2044 + k) := Nat.mul_lt_mul_of_pos_right (by norm_num) (by positivity)
  rw [← overflowBound_eq] at hbelow
  obtain ⟨-, hsign, hnear⟩ := (roundIsNearestEven (signBit w) _ k _ rfl).2 hbelow
  have hdist := (hnear w hw rfl).1
  push_cast at hdist
  rw [sub_self, abs_zero, abs_nonpos_iff, sub_eq_zero] at hdist
  refine eq_of_signBit_of_magnitude hsign (Nat.eq_of_mul_eq_mul_right (show 0 < 2 ^ k by positivity) ?_)
  exact_mod_cast hdist

end Sys2Proof.Machine
end

section
/-! SUPPORT. `P4` on the two arguments (R101). -/

namespace Sys2Proof.Machine

/-- A signed argument that is a power of 4 is below `2^31`, so one of fifteen (R101). -/
theorem P4_toInt_iff (w : Word32) : P4 w.toInt = true ↔ ∃ i < 15, w.toInt = 4 ^ (i + 1) := by
  rw [P4_iff]
  constructor
  · rintro ⟨m, hm, hw⟩
    have hlt : (4 : Int) ^ m < 4 ^ 16 := hw ▸ (BitVec.toInt_lt (x := w)).trans (by norm_num)
    have hm' : m < 16 := (pow_lt_pow_iff_right₀ (by norm_num)).mp hlt
    exact ⟨m - 1, by omega, by rw [hw, Nat.sub_add_cancel hm]⟩
  · rintro ⟨i, -, hw⟩
    exact ⟨i + 1, by omega, hw⟩

/-- Below the sign bit, a word has the value `2^i` exactly when bit `i` is its only one. -/
theorem toInt_eq_two_pow_iff (w : Word32) {i : Nat} (hi : i < 31) :
    w.toInt = 2 ^ i ↔ ∀ b < 32, w.getLsbD b = decide (b = i) := by
  have htwo : (BitVec.twoPow 32 i).toInt = 2 ^ i := by
    rw [BitVec.toInt_twoPow, if_neg (by omega), if_neg (by omega)]
  have hbit : ∀ b, (BitVec.twoPow 32 i).getLsbD b = decide (b = i) := fun b => by
    rw [BitVec.getLsbD_twoPow, decide_eq_true (by omega), Bool.true_and, decide_eq_decide, eq_comm]
  simp only [← htwo, BitVec.toInt_inj, ← hbit]
  exact ⟨fun h b _ => by rw [h], BitVec.eq_of_getLsbD_eq⟩

/-- Settles O21: the fifteen powers, and each as a power of 2 with an even exponent. -/
theorem p4OfArguments : Obligations.P4OfArguments := by
  refine ⟨fun w => (P4_toInt_iff w).trans ?_, fun w => (P4_toInt_iff w).trans ⟨?_, ?_⟩⟩
  · change _ ↔ w.toInt ∈ (List.range 15).map fun i => (4 : Int) ^ (i + 1)
    simp only [List.mem_map, List.mem_range, eq_comm]
  · rintro ⟨i, hi, hw⟩
    have hpow : w.toInt = 2 ^ (2 * (i + 1)) := by
      rw [hw, pow_mul]
      norm_num
    exact ⟨hpow ▸ by positivity, 2 * (i + 1), by omega, by omega, by omega,
      (toInt_eq_two_pow_iff w (by omega)).mp hpow⟩
  · rintro ⟨-, i, hi, heven, hge, hbits⟩
    refine ⟨i / 2 - 1, by omega, ?_⟩
    rw [(toInt_eq_two_pow_iff w (by omega)).mpr hbits, show (4 : Int) = 2 ^ 2 from rfl, ← pow_mul]
    congr 1
    omega

end Sys2Proof.Machine
end

section
/-! SUPPORT. The cases of `fadd`, `fsub` and `fmul` (R92 to R94), one lemma per case, their commutativity, and that a
representable result is exact (R98). -/

namespace Sys2Proof.Machine

/-! ### fadd -/

section
variable {k : Nat} {a b : FWord}

theorem fadd_of_isInf_of_ne (ha : isInf a = true) (hb : isInf b = true) (hs : signBit a ≠ signBit b) :
    fadd k a b = nanOf k := by
  simp [fadd, isNaN_of_isInf ha, isNaN_of_isInf hb, ha, hb, hs]

theorem fadd_of_isInf_of_eq (ha : isInf a = true) (hb : isInf b = true) (hs : signBit a = signBit b) :
    fadd k a b = a := by
  simp [fadd, isNaN_of_isInf ha, isNaN_of_isInf hb, ha, hs]

theorem fadd_of_isInf_of_isFinite (ha : isInf a = true) (hb : isFinite b = true) : fadd k a b = a := by
  simp [fadd, isNaN_of_isInf ha, isNaN_of_isFinite hb, isInf_of_isFinite hb, ha]

theorem fadd_of_isFinite_of_isInf (ha : isFinite a = true) (hb : isInf b = true) : fadd k a b = b := by
  simp [fadd, isNaN_of_isFinite ha, isNaN_of_isInf hb, isInf_of_isFinite ha, hb]

theorem fadd_of_isZero (ha : isZero a = true) (hb : isZero b = true) :
    fadd k a b = if signBit a = true ∧ signBit b = true then minusZero else plusZero := by
  have hfa := isFinite_of_isZero ha
  have hfb := isFinite_of_isZero hb
  simp [fadd, isNaN_of_isFinite hfa, isNaN_of_isFinite hfb, isInf_of_isFinite hfa, isInf_of_isFinite hfb, ha, hb]

theorem fadd_of_isFinite (ha : isFinite a = true) (hb : isFinite b = true)
    (hz : ¬ (isZero a = true ∧ isZero b = true)) :
    fadd k a b = if value a + value b = 0 then plusZero
      else packSign (decide (value a + value b < 0)) (roundMag (value a + value b).natAbs 0) := by
  simp [fadd, isNaN_of_isFinite ha, isNaN_of_isFinite hb, isInf_of_isFinite ha, isInf_of_isFinite hb, hz]

theorem fadd_of_sum_ne_zero (ha : isFinite a = true) (hb : isFinite b = true) (hr : value a + value b ≠ 0) :
    fadd k a b = packSign (decide (value a + value b < 0)) (roundMag (value a + value b).natAbs 0) := by
  have hz : ¬ (isZero a = true ∧ isZero b = true) := by
    rw [← value_eq_zero_iff, ← value_eq_zero_iff]
    omega
  rw [fadd_of_isFinite ha hb hz, if_neg hr]

/-- `fadd` answers its operands in either order alike, and where it draws a NaN the draw is the same one (R92). -/
theorem fadd_comm (k : Nat) (a b : FWord) : fadd k a b = fadd k b a := by
  obtain hna | hia | hfa := isNaN_or_isInf_or_isFinite a
  · rw [fadd_of_isNaN (by simp [hna]), fadd_of_isNaN (by simp [hna])]
  · obtain hnb | hib | hfb := isNaN_or_isInf_or_isFinite b
    · rw [fadd_of_isNaN (by simp [hnb]), fadd_of_isNaN (by simp [hnb])]
    · by_cases hs : signBit a = signBit b
      · rw [eq_of_isInf hia hib hs]
      · rw [fadd_of_isInf_of_ne hia hib hs, fadd_of_isInf_of_ne hib hia (Ne.symm hs)]
    · rw [fadd_of_isInf_of_isFinite hia hfb, fadd_of_isFinite_of_isInf hfb hia]
  · obtain hnb | hib | hfb := isNaN_or_isInf_or_isFinite b
    · rw [fadd_of_isNaN (by simp [hnb]), fadd_of_isNaN (by simp [hnb])]
    · rw [fadd_of_isFinite_of_isInf hfa hib, fadd_of_isInf_of_isFinite hib hfa]
    · by_cases hz : isZero a = true ∧ isZero b = true
      · simp only [fadd_of_isZero hz.1 hz.2, fadd_of_isZero hz.2 hz.1, and_comm]
      · rw [fadd_of_isFinite hfa hfb hz, fadd_of_isFinite hfb hfa (mt And.symm hz), Int.add_comm]

/-! ### fsub -/

theorem fsub_self (ha : isFinite a = true) : fsub k a a = plusZero := by
  unfold fsub
  by_cases hz : isZero a = true
  · rw [fadd_of_isZero hz (by simpa using hz), signBit_fneg, if_neg (by simp)]
  · rw [fadd_of_isFinite ha (by simpa using ha) (fun h => hz h.1), if_pos (by simp)]

/-! ### fmul -/

theorem fmul_of_isZero_of_isInf (ha : isZero a = true) (hb : isInf b = true) : fmul k a b = nanOf k := by
  simp [fmul, ha, hb]

theorem fmul_of_isInf_of_isZero (ha : isInf a = true) (hb : isZero b = true) : fmul k a b = nanOf k := by
  simp [fmul, ha, hb]

theorem fmul_of_isInf (hi : isInf a = true ∨ isInf b = true) (hna : isNaN a = false) (hnb : isNaN b = false)
    (hza : isZero a = false) (hzb : isZero b = false) : fmul k a b = packSign (signBit a != signBit b) infMag := by
  simp [fmul, hi, hna, hnb, hza, hzb]

theorem fmul_of_isZero (hz : isZero a = true ∨ isZero b = true) (ha : isFinite a = true) (hb : isFinite b = true) :
    fmul k a b = packSign (signBit a != signBit b) 0 := by
  simp [fmul, hz, isNaN_of_isFinite ha, isNaN_of_isFinite hb, isInf_of_isFinite ha, isInf_of_isFinite hb]

theorem fmul_of_isFinite (ha : isFinite a = true) (hb : isFinite b = true) (hza : isZero a = false)
    (hzb : isZero b = false) :
    fmul k a b = packSign (signBit a != signBit b) (roundMag (magnitude a * magnitude b) 1074) := by
  simp [fmul, hza, hzb, isNaN_of_isFinite ha, isNaN_of_isFinite hb, isInf_of_isFinite ha, isInf_of_isFinite hb]

/-- `fmul` answers its operands in either order alike: the condition and the result of each case are symmetric, and where
it draws a NaN the draw is the same one (R94). -/
theorem fmul_comm (k : Nat) (a b : FWord) : fmul k a b = fmul k b a := by
  have hsign : (signBit a != signBit b) = (signBit b != signBit a) := bne_comm
  have hinvalid : (isZero a && isInf b || isInf a && isZero b) = (isZero b && isInf a || isInf b && isZero a) := by
    rw [Bool.or_comm, Bool.and_comm (isInf a), Bool.and_comm (isZero a)]
  unfold fmul
  rw [hsign, hinvalid, Bool.or_comm (isNaN a), Bool.or_comm (isInf a), Bool.or_comm (isZero a),
    Nat.mul_comm (magnitude a)]

theorem magnitude_oneWord : magnitude oneWord = 2 ^ 1074 := by
  rw [← packSign_oneMag, show oneMag = 1022 * 2 ^ 52 + 2 ^ 52 from rfl,
    magnitude_packSign_grid false (by decide) (by decide) (by decide), ← pow_add]

theorem fmul_oneWord (ha : isNaN a = false) : fmul k a oneWord = a := by
  have hsign : (signBit a != signBit oneWord) = signBit a := Bool.bne_false _
  have hone : isFinite oneWord = true := by decide
  obtain hna | hia | hfa := isNaN_or_isInf_or_isFinite a
  · simp [ha] at hna
  · rw [fmul_of_isInf (.inl hia) ha (by decide) (isZero_of_isInf hia) (by decide), hsign, packSign_infMag_of_isInf hia]
  · cases hz : isZero a with
    | true => rw [fmul_of_isZero (.inl hz) hfa hone, hsign, packSign_zero_of_isZero hz]
    | false => rw [fmul_of_isFinite hfa hone hz (by decide), hsign, magnitude_oneWord, round_magnitude hfa]

theorem fmul_plusZero (ha : isFinite a = true) :
    fmul k a plusZero = if signBit a = true then minusZero else plusZero := by
  rw [fmul_of_isZero (.inr (by decide)) ha (by decide), ← packSign_zero_eq]
  exact congrArg (packSign · 0) (Bool.bne_false _)

end

/-- Settles O17: one lemma per case of R92. -/
theorem faddCases : Obligations.FaddCases := by
  intro k a b
  refine ⟨fun h => ?_, fun ha hb hs => ?_, fun ha hb hs => ?_, fadd_of_isInf_of_isFinite, fadd_of_isFinite_of_isInf,
    fun ha hb => ?_, fadd_of_sum_ne_zero, fun ha hb hz hr => ?_, fun _ => fadd_comm k a b⟩
  · rw [fadd_of_isNaN (by simpa using h), isNaN_nanOf]
  · rw [fadd_of_isInf_of_ne ha hb hs, isNaN_nanOf]
  · rw [fadd_of_isInf_of_eq ha hb hs]
    exact ⟨rfl, eq_of_isInf ha hb hs⟩
  · rw [fadd_of_isZero ha hb]
    simp only [eq_minusZero_iff ha, eq_minusZero_iff hb]
  · rw [fadd_of_isFinite ha hb hz, if_pos hr]

/-- Settles O18: `fneg` flips the sign and nothing else, so each case is one of `fadd`. -/
theorem fsubCases : Obligations.FsubCases := by
  refine fun k a b => ⟨rfl, fun ha hb hs => ?_, fsub_self, ?_, ?_⟩
  · rw [fsub, fadd_of_isInf_of_ne ha (by simpa using hb) (by simp [hs]), isNaN_nanOf]
  · rw [fsub, fadd_of_isZero (by decide) (by decide), if_neg (by decide)]
  · rw [fsub, fadd_of_isZero (by decide) (by decide), if_pos (by decide)]

/-- Settles O19: one lemma per case of R94. -/
theorem fmulCases : Obligations.FmulCases := by
  intro k a b
  refine ⟨fun h => ?_, fun ha hb => ?_, fun ha hb => ?_, fmul_of_isInf, fmul_of_isZero, fmul_of_isFinite,
    fun _ => fmul_comm k a b, fmul_oneWord, fmul_plusZero⟩
  · rw [fmul_of_isNaN (by simpa using h), isNaN_nanOf]
  · rw [fmul_of_isZero_of_isInf ha hb, isNaN_nanOf]
  · rw [fmul_of_isInf_of_isZero ha hb, isNaN_nanOf]

/-! ### Exactness -/

theorem magnitude_of_product {a b w : FWord} {n : Nat} (h : value a * value b = value w * 2 ^ n) :
    magnitude a * magnitude b = magnitude w * 2 ^ n := by
  rw [← natAbs_value, ← natAbs_value, ← natAbs_value, ← Int.natAbs_mul, h, Int.natAbs_mul, Int.natAbs_pow]
  rfl

/-- The sign of an exact product, in units of `2^-n` (R94). -/
theorem signBit_of_product {a b w : FWord} {n : Nat} (hne : value w ≠ 0) (h : value a * value b = value w * 2 ^ n) :
    (signBit a != signBit b) = signBit w := by
  have hunit : (0 : Int) < 2 ^ n := by positivity
  obtain ⟨ha, hb⟩ : value a ≠ 0 ∧ value b ≠ 0 := mul_ne_zero_iff.mp (h ▸ mul_ne_zero hne hunit.ne')
  have hneg : value a * value b < 0 ↔ value w * 2 ^ n < 0 := by rw [h]
  rw [mul_neg_iff, mul_neg_iff] at hneg
  rw [← decide_value_neg ha, ← decide_value_neg hb, ← decide_value_neg hne, Bool.eq_iff_iff, bne_iff_ne, Ne,
    decide_eq_decide, decide_eq_true_eq]
  omega

section
variable {k : Nat} {a b w : FWord} (ha : isFinite a = true) (hb : isFinite b = true) (hw : isFinite w = true)
  (hne : value w ≠ 0)
include ha hb hw hne

theorem fadd_exact (h : value a + value b = value w) : fadd k a b = w := by
  rw [fadd_of_sum_ne_zero ha hb (h ▸ hne), h, natAbs_value, decide_value_neg hne]
  simpa using round_magnitude hw 0

theorem fsub_exact (h : value a - value b = value w) : fsub k a b = w :=
  fadd_exact ha (by simpa using hb) hw hne (by rw [value_fneg, ← sub_eq_add_neg, h])

theorem fmul_exact (h : value a * value b = value w * 2 ^ 1074) : fmul k a b = w := by
  have hmag : magnitude a * magnitude b = magnitude w * 2 ^ 1074 := magnitude_of_product h
  have hnonzero : magnitude a * magnitude b ≠ 0 := by
    rw [hmag]
    exact mul_ne_zero (by rwa [← natAbs_value, Int.natAbs_ne_zero]) (by positivity)
  obtain ⟨hza, hzb⟩ := mul_ne_zero_iff.mp hnonzero
  rw [Ne, magnitude_eq_zero_iff, Bool.not_eq_true] at hza hzb
  rw [fmul_of_isFinite ha hb hza hzb, hmag, signBit_of_product hne h, round_magnitude hw]

end

/-- Settles O20: the exact result's magnitude is the word's own, which rounds to the word (`round_magnitude`). -/
theorem representableIsExact : Obligations.RepresentableIsExact :=
  fun _ _ _ _ ha hb hw hne => ⟨fadd_exact ha hb hw hne, fsub_exact ha hb hw hne, fmul_exact ha hb hw hne⟩

end Sys2Proof.Machine
end

section
/-! SUPPORT. The family 41_twiddle_table.md: the enclosures of the default ROM (R112; log 6) hold the exact cosine and sine,
since the half-angle and the addition formulas are rounded outwards at every step of the walk. -/

namespace Sys2Proof.Machine

/-! ### The whole square root -/

theorem lt_isqrtFrom_succ_mul_self (bits n acc : Nat) (h : n < (acc + 2 ^ bits) * (acc + 2 ^ bits)) :
    n < (isqrtFrom bits n acc + 1) * (isqrtFrom bits n acc + 1) := by
  induction bits generalizing acc with
  | zero => exact h
  | succ bits ih =>
    unfold isqrtFrom
    split
    · refine ih _ ?_
      rwa [Nat.add_assoc, ← Nat.two_mul, ← pow_succ']
    · exact ih _ (Nat.not_le.mp ‹_›)

/-- The root of half of `x` is no larger than any `y` with `x <= 2*y^2`. -/
theorem isqrtFrom_half_le {bits x : Nat} {y : ℝ} (hy : 0 ≤ y) (h : (x : ℝ) ≤ 2 * y ^ 2) :
    (isqrtFrom bits (x / 2) 0 : ℝ) ≤ y := by
  have hsq := isqrtFrom_mul_self_le bits (x / 2) 0 (Nat.zero_le _)
  set m := isqrtFrom bits (x / 2) 0
  have hx : 2 * (m * m) ≤ x := by omega
  have hx' : 2 * ((m : ℝ) * m) ≤ x := by exact_mod_cast hx
  exact le_of_sq_le_sq (by linarith [sq (m : ℝ)]) hy

/-- The root of half of `x` is less than 1 below any `y` with `2*y^2 <= x`. -/
theorem le_isqrtFrom_half_succ {bits x : Nat} {y : ℝ} (hbits : x / 2 < 2 ^ bits * 2 ^ bits) (h : 2 * y ^ 2 ≤ x) :
    y ≤ (isqrtFrom bits (x / 2) 0 + 1 : Nat) := by
  have hsq := lt_isqrtFrom_succ_mul_self bits (x / 2) 0 (by simpa using hbits)
  set m := isqrtFrom bits (x / 2) 0 + 1
  have hx : x < 2 * (m * m) := by omega
  have hx' : (x : ℝ) < 2 * ((m : ℝ) * m) := by exact_mod_cast hx
  exact le_of_sq_le_sq (by linarith [sq (m : ℝ)]) (Nat.cast_nonneg m)

/-! ### Bounds in units of `2^-P` -/

/-- The bounds hold of the cosine and the sine of `θ`, and no upper one exceeds 1. -/
structure Enclosure.Encloses (b : Enclosure) (prec : Nat) (θ : ℝ) : Prop where
  cLo : (b.cLo : ℝ) ≤ 2 ^ prec * Real.cos θ
  cHi : 2 ^ prec * Real.cos θ ≤ b.cHi
  sLo : (b.sLo : ℝ) ≤ 2 ^ prec * Real.sin θ
  sHi : 2 ^ prec * Real.sin θ ≤ b.sHi
  cHiLeOne : b.cHi ≤ 2 ^ prec
  sHiLeOne : b.sHi ≤ 2 ^ prec

theorem scaleDown_mul_le {prec m n : Nat} {x y : ℝ} (hm : (m : ℝ) ≤ 2 ^ prec * x) (hn : (n : ℝ) ≤ 2 ^ prec * y) :
    (scaleDown prec (m * n) : ℝ) ≤ 2 ^ prec * (x * y) := by
  have hdiv : ((scaleDown prec (m * n) * 2 ^ prec : Nat) : ℝ) ≤ (m * n : Nat) := by
    exact_mod_cast Nat.div_mul_le_self (m * n) (2 ^ prec)
  have hmul := mul_le_mul hm hn (Nat.cast_nonneg n) ((Nat.cast_nonneg m).trans hm)
  push_cast at hdiv
  refine le_of_mul_le_mul_right ?_ (show (0 : ℝ) < 2 ^ prec by positivity)
  linarith

theorem le_scaleUp_mul {prec m n : Nat} {x y : ℝ} (hy : 0 ≤ y) (hm : 2 ^ prec * x ≤ m) (hn : 2 ^ prec * y ≤ n) :
    2 ^ prec * (x * y) ≤ (scaleUp prec (m * n) : ℝ) := by
  have hceil : m * n ≤ scaleUp prec (m * n) * 2 ^ prec := by
    have hdiv := Nat.div_add_mod' (m * n + (2 ^ prec - 1)) (2 ^ prec)
    have hmod := Nat.mod_lt (m * n + (2 ^ prec - 1)) (show 0 < 2 ^ prec by positivity)
    unfold scaleUp
    omega
  have hceil' : (m : ℝ) * n ≤ scaleUp prec (m * n) * 2 ^ prec := by exact_mod_cast hceil
  have hmul := mul_le_mul hm hn (by positivity) (Nat.cast_nonneg m)
  refine le_of_mul_le_mul_right ?_ (show (0 : ℝ) < 2 ^ prec by positivity)
  linarith

/-- A difference cut off at 0 is no smaller than the true one. -/
theorem sub_le_cast_tsub (m n : Nat) : (m : ℝ) - n ≤ (m - n : Nat) := by
  rw [sub_le_iff_le_add]
  exact_mod_cast (le_tsub_add : m ≤ m - n + n)

/-- A difference cut off at 0 is no larger than a bound of the true one that is not negative. -/
theorem cast_tsub_le {m n : Nat} {y : ℝ} (hy : 0 ≤ y) (h : (m : ℝ) - n ≤ y) : ((m - n : Nat) : ℝ) ≤ y := by
  obtain hle | hle := Nat.le_total n m
  · rwa [Nat.cast_sub hle]
  · rwa [Nat.sub_eq_zero_of_le hle, Nat.cast_zero]

theorem two_pow_mul_le (prec : Nat) {x : ℝ} (hx : x ≤ 1) : 2 ^ prec * x ≤ ((2 ^ prec : Nat) : ℝ) := by
  push_cast
  exact mul_le_of_le_one_right (by positivity) hx

/-! ### The steps of the walk -/

section
variable {prec : Nat} {a b : Enclosure} {θ φ : ℝ}

/-- Half-angle formulas, rounded outwards. -/
theorem Enclosure.Encloses.halfAngle (h : b.Encloses prec θ) (h0 : 0 ≤ θ) (hpi : θ ≤ Real.pi / 2) :
    (halfAngle prec b).Encloses prec (θ / 2) := by
  have hcos : 0 ≤ Real.cos (θ / 2) := Real.cos_nonneg_of_neg_pi_div_two_le_of_le (by linarith) (by linarith)
  have hsin : 0 ≤ Real.sin (θ / 2) := Real.sin_nonneg_of_nonneg_of_le_pi (by linarith) (by linarith)
  have hpos : (0 : ℝ) < 2 ^ prec := by positivity
  have hcosSq : 2 * (2 ^ prec * Real.cos (θ / 2)) ^ 2 = (2 ^ prec + 2 ^ prec * Real.cos θ) * 2 ^ prec := by
    rw [mul_pow, Real.cos_sq, mul_div_cancel₀ θ two_ne_zero]
    ring
  have hsinSq : 2 * (2 ^ prec * Real.sin (θ / 2)) ^ 2 = (2 ^ prec - 2 ^ prec * Real.cos θ) * 2 ^ prec := by
    rw [mul_pow, Real.sin_sq_eq_half_sub, mul_div_cancel₀ θ two_ne_zero]
    ring
  have hroom : ∀ x ≤ 2 * 2 ^ prec, x * 2 ^ prec / 2 < 2 ^ (prec + 1) * 2 ^ (prec + 1) := fun x hx => by
    have hmul := Nat.mul_le_mul_right (2 ^ prec) hx
    have hsq : 0 < 2 ^ prec * 2 ^ prec := by positivity
    rw [pow_succ, show 2 ^ prec * 2 * (2 ^ prec * 2) = 4 * (2 ^ prec * 2 ^ prec) by ring]
    rw [mul_assoc] at hmul
    omega
  have hhi := h.cHiLeOne
  refine ⟨isqrtFrom_half_le (by positivity) ?_, ?_, isqrtFrom_half_le (by positivity) ?_, ?_, Nat.min_le_left _ _,
    Nat.min_le_left _ _⟩
  · rw [hcosSq]
    push_cast
    exact mul_le_mul_of_nonneg_right (by linarith [h.cLo]) hpos.le
  · refine (le_min (two_pow_mul_le prec (Real.cos_le_one _)) (le_isqrtFrom_half_succ (hroom _ (by omega)) ?_)).trans_eq
      (Nat.cast_min _ _).symm
    rw [hcosSq]
    push_cast
    exact mul_le_mul_of_nonneg_right (by linarith [h.cHi]) hpos.le
  · rw [hsinSq, Nat.cast_mul]
    push_cast [hhi]
    exact mul_le_mul_of_nonneg_right (by linarith [h.cHi]) hpos.le
  · refine (le_min (two_pow_mul_le prec (Real.sin_le_one _)) (le_isqrtFrom_half_succ (hroom _ (by omega)) ?_)).trans_eq
      (Nat.cast_min _ _).symm
    rw [hsinSq, Nat.cast_mul]
    have hsub := sub_le_cast_tsub (2 ^ prec) b.cLo
    push_cast at hsub ⊢
    exact mul_le_mul_of_nonneg_right (by linarith [h.cLo]) hpos.le

/-- Angle addition, rounded outwards. -/
theorem Enclosure.Encloses.addAngle (ha : a.Encloses prec θ) (hb : b.Encloses prec φ) (hθ : 0 ≤ θ) (hφ : 0 ≤ φ)
    (hsum : θ + φ ≤ Real.pi / 2) : (addAngle prec a b).Encloses prec (θ + φ) := by
  have hcosSum : 0 ≤ Real.cos (θ + φ) := Real.cos_nonneg_of_neg_pi_div_two_le_of_le (by linarith) hsum
  have hcos : 0 ≤ Real.cos φ := Real.cos_nonneg_of_neg_pi_div_two_le_of_le (by linarith) (by linarith)
  have hsin : 0 ≤ Real.sin φ := Real.sin_nonneg_of_nonneg_of_le_pi hφ (by linarith)
  have hcosEq : 2 ^ prec * Real.cos (θ + φ) =
      2 ^ prec * (Real.cos θ * Real.cos φ) - 2 ^ prec * (Real.sin θ * Real.sin φ) := by rw [Real.cos_add, mul_sub]
  have hsinEq : 2 ^ prec * Real.sin (θ + φ) =
      2 ^ prec * (Real.sin θ * Real.cos φ) + 2 ^ prec * (Real.cos θ * Real.sin φ) := by rw [Real.sin_add, mul_add]
  refine ⟨cast_tsub_le (by positivity) ?_, ?_, ?_, ?_, Nat.min_le_left _ _,
    Nat.min_le_left _ _⟩
  · rw [hcosEq]
    exact sub_le_sub (scaleDown_mul_le ha.cLo hb.cLo) (le_scaleUp_mul hsin ha.sHi hb.sHi)
  · refine (le_min (two_pow_mul_le prec (Real.cos_le_one _)) ?_).trans_eq (Nat.cast_min _ _).symm
    rw [hcosEq]
    exact (sub_le_sub (le_scaleUp_mul hcos ha.cHi hb.cHi) (scaleDown_mul_le ha.sLo hb.sLo)).trans
      (sub_le_cast_tsub _ _)
  · refine (Nat.cast_le.mpr (Nat.min_le_right _ _)).trans ?_
    rw [hsinEq, Nat.cast_add]
    exact add_le_add (scaleDown_mul_le ha.sLo hb.cLo) (scaleDown_mul_le ha.cLo hb.sLo)
  · refine (le_min (two_pow_mul_le prec (Real.sin_le_one _)) ?_).trans_eq (Nat.cast_min _ _).symm
    rw [hsinEq, Nat.cast_add]
    exact add_le_add (le_scaleUp_mul hcos ha.sHi hb.cHi) (le_scaleUp_mul hsin ha.cHi hb.sHi)

end

/-- The walk adds the part of the base angle that the low bits of `r` stand for (R112). -/
theorem Enclosure.Encloses.encloseFrom {prec : Nat} (bits r : Nat) {base acc : Enclosure} {α β : ℝ}
    (hbase : base.Encloses prec α) (hacc : acc.Encloses prec β) (hα : 0 ≤ α) (hβ : 0 ≤ β)
    (hsum : β + α ≤ Real.pi / 2) :
    (encloseFrom prec bits r base acc).Encloses prec (β + α * (r % 2 ^ bits : Nat) / 2 ^ bits) := by
  induction bits generalizing base acc α β with
  | zero => simpa [Machine.encloseFrom, Nat.mod_one] using hacc
  | succ bits ih =>
    have hhalf := hbase.halfAngle hα (by linarith)
    have hrem : r % 2 ^ (bits + 1) = r % 2 ^ bits + 2 ^ bits * (r / 2 ^ bits % 2) := Nat.mod_pow_succ
    unfold Machine.encloseFrom
    dsimp only
    split
    next hbit =>
      convert ih hhalf (hacc.addAngle hhalf hβ (by linarith) (by linarith)) (by linarith) (by linarith)
        (by linarith) using 1
      rw [hrem, hbit]
      push_cast
      field_simp
      ring
    next hbit =>
      convert ih hhalf hacc (by linarith) hβ (by linarith) using 1
      rw [hrem, Nat.mod_two_ne_one.mp hbit, mul_zero, add_zero, pow_succ]
      field_simp

/-- The enclosure of an angle of the first quadrant is right (R112). -/
theorem enclose_encloses (prec : Nat) {bits r : Nat} (hr : r < 2 ^ bits) :
    (enclose prec bits r).Encloses prec (Real.pi / 2 * r / 2 ^ bits) := by
  have hquarter : Enclosure.Encloses ⟨0, 0, 2 ^ prec, 2 ^ prec⟩ prec (Real.pi / 2) := by
    constructor <;> simp
  have hzero : Enclosure.Encloses ⟨2 ^ prec, 2 ^ prec, 0, 0⟩ prec 0 := by
    constructor <;> simp
  have h := hquarter.encloseFrom bits r hzero (by positivity) le_rfl (by linarith)
  rwa [Nat.mod_eq_of_lt hr, zero_add] at h

end Sys2Proof.Machine
end

section
/-! SUPPORT. The default ROM's words are correctly rounded (R112) wherever both ends of an enclosure round to one word: that
word is nearest to all between the ends, and quarter turns only swap cosine and sine and change signs. -/

namespace Sys2Proof.Machine

/-! ### Nearest words -/

/-- The numbers no nearer to `v` than to `w` form a half-line, so with both ends it holds all between. -/
theorem abs_sub_le_of_between {w v lo hi x : ℝ} (hlo : |w - lo| ≤ |v - lo|) (hhi : |w - hi| ≤ |v - hi|)
    (hlx : lo ≤ x) (hxh : x ≤ hi) : |w - x| ≤ |v - x| := by
  rw [← sq_le_sq] at *
  obtain hwv | hvw := le_total w v
  · have := mul_le_mul_of_nonneg_right hxh (sub_nonneg.mpr hwv)
    linarith
  · have := mul_le_mul_of_nonneg_right hlx (sub_nonneg.mpr hvw)
    linarith

theorem roundFixed_lt {prec x : Nat} (hx : x ≤ 2 ^ prec) : roundFixed prec x < 2 ^ 63 :=
  (roundFixed_le hx).trans_lt (by decide)

theorem isFinite_packSign_roundFixed (neg : Bool) {prec x : Nat} (hx : x ≤ 2 ^ prec) :
    isFinite (packSign neg (roundFixed prec x)) = true :=
  (packSign_le_one neg (roundFixed_le hx)).1

/-- Rounding a fixed-point value up to 1 gives a nearest magnitude (R91). -/
theorem roundFixed_nearest {prec x : Nat} (hx : x ≤ 2 ^ prec) {v : FWord} (hv : isFinite v = true) :
    |(magnitude (packSign false (roundFixed prec x)) : ℝ) * 2 ^ prec - x * 2 ^ 1074| ≤
      |(magnitude v : ℝ) * 2 ^ prec - x * 2 ^ 1074| := by
  have hbelow : x * 2 ^ 1074 < (2 ^ 1024 - 2 ^ 970) * 2 ^ 1074 * 2 ^ prec := by
    rw [overflowBound_eq]
    calc x * 2 ^ 1074 ≤ 2 ^ prec * 2 ^ 1074 := Nat.mul_le_mul_right _ hx
      _ = 2 ^ (1074 + prec) := by rw [mul_comm, pow_add]
      _ ≤ 2 ^ (2044 + prec) := Nat.pow_le_pow_right (by norm_num) (by omega)
      _ < (2 ^ 54 - 1) * 2 ^ (2044 + prec) := lt_mul_of_one_lt_left (by positivity) (by norm_num)
  obtain ⟨-, -, hnear⟩ := (roundIsNearestEven (signBit v) (x * 2 ^ 1074) prec _ rfl).2 hbelow
  have hsign : magnitude (packSign (signBit v) (roundFixed prec x)) = magnitude (packSign false (roundFixed prec x)) := by
    rw [magnitude_eq_packSign_magBits false, magBits_packSign _ (roundFixed_lt hx)]
  have hdist := (hnear v hv rfl).1
  rw [← roundFixed, hsign] at hdist
  exact_mod_cast hdist

/-- Where both ends of bounds round to one word, its magnitude is nearest to every value between them (R112). -/
theorem decided_nearest {prec lo hi : Nat} (hdec : decided prec lo hi = true) {y : ℝ} (hlo : (lo : ℝ) ≤ 2 ^ prec * y)
    (hhi : 2 ^ prec * y ≤ hi) (hlo1 : lo ≤ 2 ^ prec) (hhi1 : hi ≤ 2 ^ prec) {v : FWord} (hv : isFinite v = true) :
    |(magnitude (packSign false (roundFixed prec lo)) : ℝ) / 2 ^ 1074 - y| ≤ |(magnitude v : ℝ) / 2 ^ 1074 - y| := by
  have hunit : (0 : ℝ) < 2 ^ 1074 := by positivity
  have hfromLo := roundFixed_nearest hlo1 hv
  have hfromHi := roundFixed_nearest hhi1 hv
  rw [← of_decide_eq_true hdec] at hfromHi
  generalize (2 : ℝ) ^ 1074 = unit at *
  have hnear := abs_sub_le_of_between hfromLo hfromHi (mul_le_mul_of_nonneg_right hlo hunit.le)
    (mul_le_mul_of_nonneg_right hhi hunit.le)
  have hscale : ∀ m : ℝ, |m * 2 ^ prec - 2 ^ prec * y * unit| = |m / unit - y| * |unit * 2 ^ prec| := fun m => by
    rw [← abs_mul]
    refine congrArg _ ?_
    field_simp
  rw [hscale, hscale] at hnear
  exact le_of_mul_le_mul_right hnear (abs_pos.mpr (mul_pos hunit (by positivity)).ne')

/-! ### Quarter turns -/

/-- The cosine (`false`) or the sine (`true`), as `romTrig` names them. -/
noncomputable def exactTrig (isSine : Bool) (θ : ℝ) : ℝ := if isSine then Real.sin θ else Real.cos θ

/-- Whether `turns` quarter turns make the cosine or the sine of an angle of the first quadrant negative. -/
def quarterNeg (isSine : Bool) (turns : Nat) : Bool :=
  if isSine then decide (2 ≤ turns) else decide (turns = 1) || decide (turns = 2)

/-- Whether the sine of the angle without its `turns` quarter turns is what the value comes from. -/
def quarterSine (isSine : Bool) (turns : Nat) : Bool := isSine != decide (turns % 2 = 1)

/-- `x`, negated if `neg`. -/
def signed {R : Type} [Neg R] (neg : Bool) (x : R) : R := if neg then -x else x

theorem exactTrig_add_quarters (isSine : Bool) (q : Nat) (θ : ℝ) : exactTrig isSine (θ + q * (Real.pi / 2)) =
    signed (quarterNeg isSine (q % 4)) (exactTrig (quarterSine isSine (q % 4)) θ) := by
  have hturn : θ + q * (Real.pi / 2) = θ + (q % 4 : Nat) * (Real.pi / 2) + (q / 4 : Nat) * (2 * Real.pi) := by
    conv_lhs => rw [← Nat.mod_add_div q 4]
    push_cast
    ring
  have hfull : exactTrig isSine (θ + q * (Real.pi / 2)) = exactTrig isSine (θ + (q % 4 : Nat) * (Real.pi / 2)) := by
    rw [hturn]
    cases isSine
    · exact Real.cos_add_nat_mul_two_pi _ _
    · exact Real.sin_add_nat_mul_two_pi _ _
  have htwo : (2 : ℝ) * (Real.pi / 2) = Real.pi := by ring
  have hthree : (3 : ℝ) * (Real.pi / 2) = Real.pi / 2 + Real.pi := by ring
  rw [hfull]
  have hq : q % 4 < 4 := Nat.mod_lt _ (by norm_num)
  generalize q % 4 = turns at hq ⊢
  interval_cases turns <;> cases isSine <;>
    simp [exactTrig, quarterNeg, quarterSine, signed, htwo, hthree, ← add_assoc, Real.sin_add_pi_div_two,
      Real.cos_add_pi_div_two]

/-! ### A decided word of the default ROM -/

/-- The bounds of the cosine or of the sine. -/
def Enclosure.bounds (b : Enclosure) (isSine : Bool) : Nat × Nat := if isSine then (b.sLo, b.sHi) else (b.cLo, b.cHi)

/-- The enclosure of the angle `2*pi*a / 4^(d+2)`, without its quarter turns, at the first precision (log 6). -/
def firstEnclosure (d a : Nat) : Enclosure := enclose romPrecision (2 * (d + 1)) (a % 4 ^ (d + 1))

/-- The angle that it encloses (`firstEnclosure_encloses`). -/
noncomputable def quadrantAngle (d a : Nat) : ℝ := Real.pi / 2 * (a % 4 ^ (d + 1) : Nat) / 4 ^ (d + 1)

theorem quadrantAngle_nonneg (d a : Nat) : 0 ≤ quadrantAngle d a := by
  unfold quadrantAngle
  positivity

theorem quadrantAngle_le (d a : Nat) : quadrantAngle d a ≤ Real.pi / 2 := by
  have hrem : a % 4 ^ (d + 1) < 4 ^ (d + 1) := Nat.mod_lt _ (by positivity)
  rw [quadrantAngle, div_le_iff₀ (by positivity)]
  exact mul_le_mul_of_nonneg_left (by exact_mod_cast hrem.le) (by positivity)

theorem exactTrig_quadrantAngle_nonneg (isSine : Bool) (d a : Nat) : 0 ≤ exactTrig isSine (quadrantAngle d a) := by
  have h0 := quadrantAngle_nonneg d a
  have hpi := quadrantAngle_le d a
  cases isSine
  · exact Real.cos_nonneg_of_neg_pi_div_two_le_of_le (by linarith) hpi
  · exact Real.sin_nonneg_of_nonneg_of_le_pi h0 (by linarith)

/-- The exact angle of R111 is that angle and its quarter turns. -/
theorem romAngle_eq (d a : Nat) :
    2 * Real.pi * (a : ℝ) / 4 ^ (d + 2) = quadrantAngle d a + (a / 4 ^ (d + 1) : Nat) * (Real.pi / 2) := by
  have hdiv : (a : ℝ) = (a % 4 ^ (d + 1) : Nat) + 4 ^ (d + 1) * (a / 4 ^ (d + 1) : Nat) := by
    exact_mod_cast (Nat.mod_add_div a (4 ^ (d + 1))).symm
  rw [quadrantAngle, hdiv, pow_succ _ (d + 1)]
  field_simp
  ring

theorem firstEnclosure_encloses (d a : Nat) : (firstEnclosure d a).Encloses romPrecision (quadrantAngle d a) := by
  have hrem : a % 4 ^ (d + 1) < 2 ^ (2 * (d + 1)) := by
    rw [pow_mul]
    exact Nat.mod_lt _ (by positivity)
  have h := enclose_encloses romPrecision hrem
  rwa [pow_mul (2 : ℝ), show (2 : ℝ) ^ 2 = 4 by norm_num] at h

/-- Where the first bounds decide, no higher precision is tried (log 6). -/
theorem romMagnitude_of_decided {bits r tries prec : Nat} {pick : Enclosure → Nat × Nat}
    (h : decided prec (pick (enclose prec bits r)).1 (pick (enclose prec bits r)).2 = true) :
    romMagnitude bits r pick tries prec = roundFixed prec (pick (enclose prec bits r)).1 := by
  cases tries with
  | zero => rfl
  | succ tries =>
    unfold romMagnitude
    dsimp only
    rw [if_pos h]

theorem Enclosure.Encloses.bounds {b : Enclosure} {prec : Nat} {θ : ℝ} (h : b.Encloses prec θ) (isSine : Bool) :
    ((b.bounds isSine).1 : ℝ) ≤ 2 ^ prec * exactTrig isSine θ ∧ 2 ^ prec * exactTrig isSine θ ≤ (b.bounds isSine).2 ∧
      (b.bounds isSine).2 ≤ 2 ^ prec := by
  cases isSine
  · exact ⟨h.cLo, h.cHi, h.cHiLeOne⟩
  · exact ⟨h.sLo, h.sHi, h.sHiLeOne⟩

/-- A default word whose bounds decide it is their rounded lower end, with the sign of its quadrant (R112). -/
theorem romTrig_of_decided {d a : Nat} {isSine useSine : Bool}
    (huse : useSine = quarterSine isSine (a / 4 ^ (d + 1) % 4))
    (hdec : decided romPrecision ((firstEnclosure d a).bounds useSine).1 ((firstEnclosure d a).bounds useSine).2 = true) :
    romTrig d a isSine = packSign (quarterNeg isSine (a / 4 ^ (d + 1) % 4) &&
      decide (roundFixed romPrecision ((firstEnclosure d a).bounds useSine).1 ≠ 0))
        (roundFixed romPrecision ((firstEnclosure d a).bounds useSine).1) := by
  have hpick : romMagnitude (2 * (d + 1)) (a % 4 ^ (d + 1)) (·.bounds useSine) 2 romPrecision =
      if useSine then romMagnitude (2 * (d + 1)) (a % 4 ^ (d + 1)) (fun b => (b.sLo, b.sHi)) 2 romPrecision
      else romMagnitude (2 * (d + 1)) (a % 4 ^ (d + 1)) (fun b => (b.cLo, b.cHi)) 2 romPrecision := by
    cases useSine
    · exact (if_neg Bool.false_ne_true).symm
    · exact (if_pos rfl).symm
  rw [firstEnclosure, ← romMagnitude_of_decided (pick := (·.bounds useSine)) (tries := 2) hdec, hpick, huse]
  rfl

/-- The word for a signed magnitude has that value; the magnitude 0 takes no sign. -/
theorem value_packSign_signed (neg : Bool) {mag : Nat} (h : mag < 2 ^ 63) :
    value (packSign (neg && decide (mag ≠ 0)) mag) = signed neg (magnitude (packSign false mag) : Int) := by
  have hmag : ∀ sign, magnitude (packSign sign mag) = magnitude (packSign false mag) := fun sign => by
    rw [magnitude_eq_packSign_magBits false (packSign sign mag), magBits_packSign _ h]
  rw [value, signBit_packSign _ _ h, hmag]
  obtain rfl | hne := eq_or_ne mag 0
  · cases neg <;> decide
  · simp [signed, hne]

/-- A magnitude nearest to `y` is, with a sign, nearest to `y` with that sign. -/
theorem signed_nearest {neg : Bool} {m : Nat} {y : ℝ} (hy : 0 ≤ y) {v : FWord}
    (h : |(m : ℝ) / 2 ^ 1074 - y| ≤ |(magnitude v : ℝ) / 2 ^ 1074 - y|) :
    |((signed neg (m : Int) : Int) : ℝ) / 2 ^ 1074 - signed neg y| ≤ |(value v : ℝ) / 2 ^ 1074 - signed neg y| := by
  have hunit : (0 : ℝ) < 2 ^ 1074 := by positivity
  generalize (2 : ℝ) ^ 1074 = unit at *
  have hleft : |((signed neg (m : Int) : Int) : ℝ) / unit - signed neg y| = |(m : ℝ) / unit - y| := by
    cases neg
    · simp [signed]
    · simp only [signed, if_true, Int.cast_neg, Int.cast_natCast, neg_div]
      rw [← neg_sub', abs_neg]
  have hv : (magnitude v : ℝ) / unit = |(value v : ℝ) / unit| := by
    rw [← natAbs_value, Nat.cast_natAbs, Int.cast_abs, abs_div, abs_of_pos hunit]
  have hyabs : y = |signed neg y| := by
    cases neg <;> simp [signed, abs_of_nonneg hy]
  calc _ = |(m : ℝ) / unit - y| := hleft
    _ ≤ |(magnitude v : ℝ) / unit - y| := h
    _ = |(|(value v : ℝ) / unit| - |signed neg y|)| := by rw [hv, ← hyabs]
    _ ≤ _ := abs_abs_sub_abs_le _ _

/-- A default word whose bounds decide it is finite and nearest to the exact cosine or sine (R112). -/
theorem romTrig_nearest {d a : Nat} (isSine : Bool) (hdec : ∀ useSine, decided romPrecision
      ((firstEnclosure d a).bounds useSine).1 ((firstEnclosure d a).bounds useSine).2 = true) :
    isFinite (romTrig d a isSine) = true ∧ ∀ v, isFinite v = true →
      |(value (romTrig d a isSine) : ℝ) / 2 ^ 1074 - exactTrig isSine (2 * Real.pi * (a : ℝ) / 4 ^ (d + 2))| ≤
        |(value v : ℝ) / 2 ^ 1074 - exactTrig isSine (2 * Real.pi * (a : ℝ) / 4 ^ (d + 2))| := by
  obtain ⟨useSine, huse⟩ : ∃ useSine, useSine = quarterSine isSine (a / 4 ^ (d + 1) % 4) := ⟨_, rfl⟩
  obtain ⟨hlo, hhi, hhi1⟩ := (firstEnclosure_encloses d a).bounds useSine
  have hlo1 : ((firstEnclosure d a).bounds useSine).1 ≤ 2 ^ romPrecision := by
    exact_mod_cast (hlo.trans hhi).trans (Nat.cast_le.mpr hhi1)
  rw [romTrig_of_decided huse (hdec useSine), romAngle_eq, exactTrig_add_quarters, ← huse,
    value_packSign_signed _ (roundFixed_lt hlo1)]
  exact ⟨isFinite_packSign_roundFixed _ hlo1, fun v hv => signed_nearest (exactTrig_quadrantAngle_nonneg useSine d a)
    (decided_nearest (hdec useSine) hlo hhi hlo1 hhi1 hv)⟩

/-- Settles O43: the enclosure is right by induction on the walk, and where both its ends round to one word, that word is
nearest to all between them. -/
theorem defaultRomCorrectlyRounded : Obligations.DefaultRomCorrectlyRounded := by
  intro d k i _ _ b angle hcos hsin
  have hdec : ∀ useSine, decided romPrecision ((firstEnclosure d (i * k)).bounds useSine).1
      ((firstEnclosure d (i * k)).bounds useSine).2 = true := Bool.forall_bool.mpr ⟨hcos, hsin⟩
  exact ⟨romTrig_nearest false hdec, romTrig_nearest true hdec⟩

end Sys2Proof.Machine
end

section
/-! SUPPORT. The default ROM's levels (R116), the laws of R113 in every state, the linear blocks (R115), and the two table
operations (R117, R118). -/

namespace Sys2Proof.Machine

/-! ### Nesting of the levels -/

/-- A bit 0 below the lowest adds nothing to the angle. -/
theorem encloseFrom_double (prec bits r : Nat) (base acc : Enclosure) :
    encloseFrom prec (bits + 1) (2 * r) base acc = encloseFrom prec bits r base acc := by
  induction bits generalizing base acc with
  | zero => simp [encloseFrom]
  | succ bits ih =>
    have hbit : 2 * r / 2 ^ (bits + 1) = r / 2 ^ bits := by
      rw [pow_succ', Nat.mul_div_mul_left _ _ (by norm_num)]
    rw [encloseFrom, hbit]
    conv_rhs => rw [encloseFrom]
    simp only [ih]

theorem enclose_four_mul (prec bits r : Nat) : enclose prec (bits + 2) (4 * r) = enclose prec bits r := by
  rw [show 4 * r = 2 * (2 * r) by ring]
  exact (encloseFrom_double prec (bits + 1) (2 * r) _ _).trans (encloseFrom_double prec bits r _ _)

theorem romMagnitude_four_mul (bits r : Nat) (pick : Enclosure → Nat × Nat) (tries prec : Nat) :
    romMagnitude (bits + 2) (4 * r) pick tries prec = romMagnitude bits r pick tries prec := by
  induction tries generalizing prec with
  | zero => rw [romMagnitude, romMagnitude, enclose_four_mul]
  | succ tries ih => rw [romMagnitude, romMagnitude, enclose_four_mul, ih]

/-- Four times the numerator on the next level is the same angle (R116). -/
theorem romTrig_succ_four_mul (d a : Nat) (isSine : Bool) : romTrig (d + 1) (4 * a) isSine = romTrig d a isSine := by
  have hturns : 4 * a / 4 ^ (d + 1 + 1) = a / 4 ^ (d + 1) := by
    rw [pow_succ', Nat.mul_div_mul_left _ _ (by norm_num)]
  have hrem : 4 * a % 4 ^ (d + 1 + 1) = 4 * (a % 4 ^ (d + 1)) := by rw [pow_succ', Nat.mul_mod_mul_left]
  have hbits : 2 * (d + 1 + 1) = 2 * (d + 1) + 2 := by ring
  simp only [romTrig, hturns, hrem, hbits, romMagnitude_four_mul]

/-- The exact table's word for coefficient `i` of group `k` (R111). -/
theorem realTable_eq (d k : Nat) {i c : Nat} (hi : i < 4) (hc : c < 2) :
    realTable d (8 * k + 2 * i + c) = exactTrig (decide (c = 1)) (2 * Real.pi * ((i * k : Nat) : ℝ) / 4 ^ (d + 2)) := by
  have hgroup : (8 * k + 2 * i + c) / 8 = k := by omega
  have hcoeff : (8 * k + 2 * i + c) % 8 / 2 = i := by omega
  unfold realTable exactTrig
  rw [hgroup, hcoeff]
  interval_cases c
  · rw [if_pos (by omega)]
    rfl
  · rw [if_neg (by omega)]
    rfl

/-- The default table's word for coefficient `i` of group `k` (R111). -/
theorem romDefault_eq (d k : Nat) {i c : Nat} (hi : i < 4) (hc : c < 2) :
    romDefault d (8 * k + 2 * i + c) = romTrig d (i * k) (decide (c = 1)) := by
  interval_cases c
  · exact romDefault_even d k hi
  · exact romDefault_odd d k hi

/-- Settles O42: on level `d + 1`, group `4*k` has four times the numerator and so the same angle. -/
theorem defaultRomNesting : Obligations.DefaultRomNesting := by
  intro d k i c _ hi hc
  have hnum : i * (4 * k) = 4 * (i * k) := by ring
  refine ⟨?_, ?_⟩
  · rw [romDefault_eq d k hi hc, romDefault_eq (d + 1) (4 * k) hi hc, hnum, romTrig_succ_four_mul]
  · rw [realTable_eq d k hi hc, realTable_eq (d + 1) (4 * k) hi hc, hnum, pow_succ _ (d + 2)]
    push_cast
    congr 1
    field_simp

/-! ### The ROM in every state -/

/-- What a move of the sequencer can change: what `SameControl` leaves free, the frame stack and STATUS (R39). -/
def State.Moved (s t : State) : Prop := s.SameControl { t with frames := s.frames, status := s.status }

theorem State.SameControl.moved {s t : State} (h : s.SameControl t) (frames : List Frame) :
    s.Moved { t with frames := frames } := by
  unfold State.Moved State.SameControl
  rw [h]

theorem popFrame_moved {s t : State} (h : s.SameControl t) (rest : List Frame) : s.Moved (popFrame rest t) := by
  unfold State.Moved State.SameControl
  rw [h]
  cases rest <;> rfl

theorem tickDivide_moved (f : Frame) (rest : List Frame) (s : State) : s.Moved (tickDivide f rest s) := by
  unfold tickDivide
  split
  · exact (State.SameControl.refl s).moved _
  · exact (State.SameControl.refl s).moved _

theorem tickPlain_moved (f : Frame) (rest : List Frame) (s : State) : s.Moved (tickPlain f rest s) := by
  unfold tickPlain
  split
  · exact popFrame_moved (bfly4_touches _ _ _ s).control rest
  · split
    · exact tickDivide_moved f rest s
    · split
      · exact (combine_control _ _ _ _ _ s).moved _
      · exact popFrame_moved (.refl s) rest

theorem tickTiled_moved (f : Frame) (rest : List Frame) (s : State) : s.Moved (tickTiled f rest s) := by
  unfold tickTiled
  split
  · exact (State.SameControl.refl s).moved _
  · split
    · exact tickDivide_moved f rest s
    · split
      · split
        · exact (bufld_touches 0 0 _ _ _ s).control.moved _
        · split
          · exact (combine_control _ _ _ _ _ s).moved _
          · exact (bufst_touches _ _ _ s).control.moved _
      · exact popFrame_moved (.refl s) rest

theorem tick_moved (s : State) : s.Moved (tick s) := by
  unfold tick
  split
  · exact (State.SameControl.refl s).moved _
  · split
    · exact tickPlain_moved _ _ s
    · exact tickTiled_moved _ _ s

theorem Settled.twrom {s t : State} {ev : Event} (hs : Settled s ev t) : t.twrom = s.twrom := by
  cases hs with
  | stored off w =>
    unfold writeRegister
    split
    · rfl
    · split <;> rfl
  | wrote win => cases win <;> rfl
  | _ => rfl

/-- No step changes the ROM (R113 L1). -/
theorem step_twrom {s t : State} (h : step s = .next t) : t.twrom = s.twrom := by
  obtain ⟨-, rfl⟩ | ⟨ev, rest, -, hs⟩ | ⟨ev, rest, i, -, hr, -⟩ := step_cases h
  · exact (tick_moved s).twrom
  · exact hs.twrom
  · exact hr.sparesInputs.twrom

/-- The exact entries are the only ones whose angle is a multiple of a quarter turn (R112, R113 L2). -/
theorem quarter_dvd_iff {d k i : Nat} (hk : k < 4 ^ (d + 1)) (hi : i < 4) :
    4 ^ (d + 1) ∣ i * k ↔ i = 0 ∨ k = 0 ∨ (i = 2 ∧ k = 2 * 4 ^ d) := by
  have hquarter : 4 ^ (d + 1) = 4 * 4 ^ d := pow_succ' 4 d
  interval_cases i
  · simp
  · rw [one_mul]
    exact ⟨fun h => .inr (.inl (Nat.eq_zero_of_dvd_of_lt h hk)), by simp +contextual⟩
  · rw [hquarter, show 4 * 4 ^ d = 2 * (2 * 4 ^ d) by ring, Nat.mul_dvd_mul_iff_left (by norm_num)]
    constructor
    · rintro ⟨j, rfl⟩
      have hj : j < 2 := by
        by_contra! hge
        have := Nat.mul_le_mul_left (2 * 4 ^ d) hge
        omega
      interval_cases j <;> simp
    · rintro (h | rfl | ⟨-, rfl⟩)
      · omega
      · exact dvd_zero _
      · exact dvd_rfl
  · have hcop : Nat.Coprime (4 ^ (d + 1)) 3 := Nat.Coprime.pow_left _ (by decide)
    rw [hcop.dvd_mul_left]
    exact ⟨fun h => .inr (.inl (Nat.eq_zero_of_dvd_of_lt h hk)), by simp +contextual⟩

/-- Under the laws, group 0 of a level holds the coefficient `(1.0, +0)` four times (R113 L2). -/
theorem RomLaws.gatherTable_zero {levels d : Nat} {rom : Nat → Nat → FWord} (h : RomLaws levels rom) (hd : d < levels) :
    gatherTable (rom d) 0 = ⟨oneWord, plusZero, oneWord, plusZero, oneWord, plusZero, oneWord, plusZero⟩ := by
  obtain ⟨hexact, -, -⟩ := h
  have hgroup : ∀ i < 4, rom d (tableOffset 0 i 0) = oneWord ∧ rom d (tableOffset 0 i 1) = plusZero :=
    fun i hi => hexact d hd 0 (by positivity) i hi (.inr rfl)
  simp [gatherTable, hgroup]

/-- Settles O41: no step writes the ROM, and `State.Inv` carries its laws and a legal TWN, which keeps TWRD's check inside
the levels it holds. -/
theorem romObeysLaws : Obligations.RomObeysLaws := by
  refine ⟨romLaws_romDefault, fun s t h d o => by rw [State.romWord, State.romWord, step_twrom h],
    fun d k i => quarter_dvd_iff, fun s hs d o hok => ?_⟩
  obtain ⟨hd, ho⟩ := romLevel_of_tableIndexOk hs.twnLegal hok
  obtain ⟨-, -, hbounded⟩ := hs.romLaws
  obtain ⟨hfinite, hone⟩ := hbounded d hd o ho
  exact ⟨hd, hfinite, hone, hs.romLaws.gatherTable_zero hd⟩

/-! ### The blocks of the ROM -/

/-- The levels of the table for `4^(n+1)` fill the ROM up to `LB(n)` (R114, R115). -/
theorem levelBase_eq_sum (n : Nat) : levelBase n = ∑ l ∈ Finset.Icc 1 n, 2 * 4 ^ (l + 1) := by
  induction n with
  | zero => rfl
  | succ n ih =>
    rw [Finset.sum_Icc_succ_top (Nat.le_add_left 1 n), ← ih]
    exact levelBase_succ n

/-- Settles O40: each block ends where the next begins (`levelBase_succ`), so the search for an address finds its level. -/
theorem romBlocks : Obligations.RomBlocks :=
  ⟨fun d => ⟨three_mul_levelBase d, levelBase_succ d⟩, rfl, rfl, rfl, rfl, rfl, fun n _ => levelBase_eq_sum (n - 1),
    fun _ => rfl, fun s _ _ hd ho => s.romLinear_levelBase_add (by omega) ho⟩

/-! ### TWRD and INIT_TW -/

theorem tableIndexOk_iff (s : State) (d o : Nat) : s.tableIndexOk d o = true ↔
    s.twn.toNat ≠ 0 ∧ (d : Int) ≤ (log4 s.twn.toNat : Int) - 2 ∧ o < 2 * 4 ^ (d + 2) := by
  simp only [State.tableIndexOk, Bool.and_eq_true, decide_eq_true_eq]
  omega

theorem sizeOk_iff (s : State) :
    s.sizeOk = true ↔ P4 s.argN.toInt = true ∧ s.argN.toInt ≤ 4 ^ s.cfg.log4NMax := by
  simp [State.sizeOk, State.sizeArg, Cfg.nMax]

/-- Settles O38: the check decides between the word and the error. -/
theorem twrdResult : Obligations.TwrdResult := by
  intro s d o
  refine ⟨fun hbad => if_neg ?_, fun htwn hd ho => if_pos ((tableIndexOk_iff s d o).mpr ⟨htwn, hd, ho⟩)⟩
  rw [tableIndexOk_iff]
  omega

/-- Settles O39: the size check decides between the new TWN and the error. -/
theorem initTwResult : Obligations.InitTwResult := by
  intro s
  refine ⟨fun hpow hmax => ?_, fun hbad => if_neg ?_⟩
  · have hok : s.sizeOk = true := (sizeOk_iff s).mpr ⟨hpow, hmax⟩
    exact ⟨if_pos hok, argN_toNat_of_sizeOk hok⟩
  · rw [sizeOk_iff]
    rintro ⟨hpow, hmax⟩
    obtain h | h := hbad
    · simp [h] at hpow
    · omega

end Sys2Proof.Machine
end

section
/-! SUPPORT. The family 42_butterfly.md: CORE4 operation by operation and over the reals, what BFLY4 leaves and what it
spares, and the operands on which a stand-alone operation stops. -/

namespace Sys2Proof.Machine

/-! ### The checks as comparisons with the memory's size -/

theorem leafSourceOk_iff (s : State) (xb st : Nat) :
    s.leafSourceOk xb st = true ↔ xb + 6 * st + 1 < 2 * s.cfg.nMax := decide_eq_true_iff

theorem leafTargetOk_iff (s : State) (yb : Nat) : s.leafTargetOk yb = true ↔ yb + 7 < 2 * s.cfg.nMax :=
  decide_eq_true_iff

theorem tileOk_iff (s : State) (yb q t : Nat) :
    s.tileOk yb q t = true ↔ yb + 2 * (q * 3 + t * s.cfg.ls + s.cfg.ls) ≤ 2 * s.cfg.nMax := decide_eq_true_iff

/-! ### BFLY4 -/

/-- BFLY4 writes YMEM, the temporaries and the draw number only (R127). -/
theorem bfly4_frame (yb xb st : Nat) (s : State) : bfly4 yb xb st s =
    { s with ymem := (bfly4 yb xb st s).ymem, t := (bfly4 yb xb st s).t, draws := s.draws + 16 } := by
  simpa [State.SameControl] using (bfly4_touches yb xb st s).control

/-- Element `e` of the strided view begins `2*e` strides from the base, so the samples are the words R127 names. -/
theorem gather_eq {F : Type} (read : Nat → F) (b st : Nat) : gather read b st =
    ⟨read b, read (b + 1), read (b + 2 * st), read (b + 2 * st + 1),
     read (b + 4 * st), read (b + 4 * st + 1), read (b + 6 * st), read (b + 6 * st + 1)⟩ := by
  simp [gather, strided]

/-- Settles O31: both checks pass, and BFLY4's words (`bfly4_readY`), footprint (`bfly4_touches`) and frame are known. -/
theorem bfly4Result : Obligations.Bfly4Result := by
  intro s yb xb st hx hy
  have hrun : exec (.bfly4 yb xb st) s = .next (bfly4 yb xb st s) :=
    (if_pos ((leafSourceOk_iff s xb st).mpr hx)).trans (if_pos ((leafTargetOk_iff s yb).mpr hy))
  refine ⟨_, hrun, fun c hc => ?_, (bfly4_touches yb xb st s).readY, bfly4_t yb xb st s, bfly4_frame yb xb st s⟩
  rw [bfly4_readY yb xb st s c hc, gather_eq]

/-- Settles O32: each negated bound fails the check that `exec` tries, after those before it passed. -/
theorem absentWordsFault : Obligations.AbsentWordsFault := by
  intro s yb xb st q t
  refine ⟨fun hx => if_neg ?_, fun hx hy => (if_pos ((leafSourceOk_iff s xb st).mpr hx)).trans (if_neg ?_),
    fun ht => ?_⟩
  · rw [leafSourceOk_iff]
    omega
  · rw [leafTargetOk_iff]
    omega
  · have hbad : ¬s.tileOk yb q t = true := by
      rw [tileOk_iff]
      omega
    exact ⟨if_neg hbad, if_neg hbad⟩

/-! ### CORE4 -/

/-- Settles O29: the eight temporaries are the words of `coreSums`, and the results are formed from them. -/
theorem core4Formulas : Obligations.Core4Formulas :=
  fun _ _ _ _ _ _ _ _ _ => ⟨_, _, _, _, _, _, _, _, rfl, rfl, rfl, rfl, rfl, rfl, rfl, rfl, rfl⟩

/-- Complex sample `m` of eight words: words `2*m` and `2*m + 1` (R12). -/
def Oct.sample (x : Oct ℝ) (m : Nat) : ℂ := ⟨x.word (2 * m), x.word (2 * m + 1)⟩

/-- R125 over the reals, in complex form. -/
theorem core4_samples (k : Nat) (x : Oct ℝ) :
    (core4 realNumerics k x).sample 0 = (x.sample 0 + x.sample 2) + (x.sample 1 + x.sample 3) ∧
    (core4 realNumerics k x).sample 1 = (x.sample 0 - x.sample 2) + Complex.I * (x.sample 1 - x.sample 3) ∧
    (core4 realNumerics k x).sample 2 = (x.sample 0 + x.sample 2) - (x.sample 1 + x.sample 3) ∧
    (core4 realNumerics k x).sample 3 = (x.sample 0 - x.sample 2) - Complex.I * (x.sample 1 - x.sample 3) := by
  refine ⟨?_, ?_, ?_, ?_⟩ <;> apply Complex.ext <;>
    simp [Oct.sample, Oct.word, core4, coreResults, coreSums, realNumerics, sub_eq_add_neg, add_assoc]

/-- Settles O30: for each `q` the powers of `j` in R126's sum are the units `±1`, `±j` of the complex form of R125. -/
theorem core4IsPositiveDft : Obligations.Core4IsPositiveDft := by
  intro k x q hq
  obtain ⟨h0, h1, h2, h3⟩ := core4_samples k x
  change (core4 realNumerics k x).sample q = ∑ m ∈ Finset.range 4, x.sample m * Complex.I ^ (m * q)
  simp only [pow_mul', Finset.sum_range_succ, Finset.sum_range_zero]
  have hI : Complex.I ^ 2 = -1 := Complex.I_sq
  interval_cases q
  · rw [h0, pow_zero]
    ring
  · rw [h1, pow_one]
    linear_combination -(x.sample 2 + x.sample 3 * Complex.I) * hI
  · rw [h2, hI]
    ring
  · rw [h3, Complex.I_pow_three]
    linear_combination -(x.sample 2 - x.sample 3 * Complex.I) * hI

end Sys2Proof.Machine
end

section
/-! SUPPORT. The family 43_combine.md: CMUL, COMBINE under its checks and when one fails, the stride of zero, and the
independence of the groups of a frame. -/

namespace Sys2Proof.Machine

/-- Settles O33: CMUL's meaning is the formula of R135 by definition. -/
theorem cmulResult : Obligations.CmulResult := fun _ _ _ _ _ => rfl

/-! ### COMBINE's checks and its frame -/

section
variable (s : State) (m : DataMem) (base st n j : Nat)

theorem combineOk_iff : s.combineOk m base st n j = true ↔
    2 ≤ n ∧ s.twn.toNat ≠ 0 ∧ n ≤ log4 s.twn.toNat ∧ j < 4 ^ (n - 1) ∧ base + 6 * st + 1 < dataWords s.cfg m := by
  simp only [State.combineOk, Bool.and_eq_true, decide_eq_true_eq, and_assoc]

/-- COMBINE writes its data memory, the temporaries and the draw number only (R139). -/
theorem combine_frame : combine m base st n j s =
    { s with
      ymem := (combine m base st n j s).ymem
      buf := (combine m base st n j s).buf
      t := (combine m base st n j s).t
      p := (combine m base st n j s).p
      draws := s.draws + 40 } := by
  simpa only [State.SameControl, combine_draws] using combine_control m base st n j s

end

/-- Coefficient `i` of a group begins `2*i` words after the group's first (R27). -/
theorem gatherTable_eq {F : Type} (read : Nat → F) (j : Nat) : gatherTable read j =
    ⟨read (8 * j), read (8 * j + 1), read (8 * j + 2), read (8 * j + 3),
     read (8 * j + 4), read (8 * j + 5), read (8 * j + 6), read (8 * j + 7)⟩ := rfl

/-- Settles O34: the checks pass, and COMBINE's words (`combine_readD`, `combine_readD_other`) and frame are known. -/
theorem combineResult_holds : Obligations.CombineResult := by
  intro s m base st n j hst hn htwn hlevel hj hwords
  have hok : s.combineOk m base st n j = true := (combineOk_iff s m base st n j).mpr ⟨hn, htwn, hlevel, hj, hwords⟩
  refine ⟨combine m base st n j s, if_pos hok, fun q hq c hc => ?_, combine_readD_other m base st n j s, ?_, ?_,
    combine_frame s m base st n j⟩
  · refine (combine_readD m base st n j s hst q c hq hc).trans ?_
    rw [combineResult, combineValues, gather_eq, gatherTable_eq]
  · rintro rfl
    exact combine_ymem_buf base st n j s
  · rintro rfl
    exact combine_buf_ymem base st n j s

/-- Settles O35: each disjunct contradicts one of the checks. -/
theorem combineBounds : Obligations.CombineBounds := by
  intro s m base st n j hbad
  change _ ∨ _ ∨ _ ∨ _ ∨ dataWords s.cfg m ≤ base + 6 * st + 1 at hbad
  refine if_neg ?_
  rw [combineOk_iff]
  omega

/-! ### Stride zero -/

/-- With stride 0 the four results are written over each other, and sample 3 is written last (R139). -/
theorem scatter_zero_readD (m : DataMem) (b : Nat) (y : Oct FWord) (s : State) :
    (scatter m b 0 y s).readD m b = y.w6 ∧ (scatter m b 0 y s).readD m (b + 1) = y.w7 := by
  simp [scatter, strided, State.readD_writeD]

/-- Settles O36: the checks pass, the last result stays (`scatter_zero_readD`), and COMBINE names no other word. -/
theorem combineStrideZero : Obligations.CombineStrideZero := by
  intro s m base n j hn htwn hlevel hj hwords
  have hok : s.combineOk m base 0 n j = true := (combineOk_iff s m base 0 n j).mpr ⟨hn, htwn, hlevel, hj, hwords⟩
  have hkept := scatter_zero_readD m base (combineResult m base 0 n j s)
  refine ⟨combine m base 0 n j s, combineResult m base 0 n j s, if_pos hok, rfl, ?_, ?_, fun a h0 h1 =>
    combine_readD_other m base 0 n j s a fun q _ c hc => ?_⟩
  · rw [combine, State.readD_draw]
    exact (hkept _).1
  · rw [combine, State.readD_draw]
    exact (hkept _).2
  · unfold strided
    omega

/-! ### Groups of one frame -/

section
variable {m : DataMem} {b st n k k' j j' : Nat} (s : State) (hk : k < st) (hk' : k' < st) (hne : k ≠ k')
include hk hk' hne

/-- A COMBINE leaves the words of every other group of its frame (R142). -/
theorem combine_readD_group {q c : Nat} (hc : c < 2) : (combine m (b + 2 * k') st n j' s).readD m
    (strided (b + 2 * k) st q c) = s.readD m (strided (b + 2 * k) st q c) :=
  combine_readD_other m _ st n j' s _ fun _ _ _ hc' heq => hne (strided_inj hk hk' hc hc' heq).1

/-- A COMBINE of one group does not change what another group's COMBINE computes, up to NaN patterns (R142). -/
theorem combineResult_combine_group : SameOct (combineResult m (b + 2 * k) st n j s)
    (combineResult m (b + 2 * k) st n j (combine m (b + 2 * k') st n j' s)) := by
  have hsamples : gather ((combine m (b + 2 * k') st n j' s).readD m) (b + 2 * k) st =
      gather (s.readD m) (b + 2 * k) st :=
    gather_congr fun _ _ _ hc => combine_readD_group s hk hk' hne hc
  unfold combineResult
  rw [hsamples, (combine_control m (b + 2 * k') st n j' s).romWord]
  exact (SameOct.refl _).combineValues _ _ _

/-- At a word of group `k` it makes no difference whether `k` is combined before or after another group. -/
theorem combine_comm_readD_group {q c : Nat} (hq : q < 4) (hc : c < 2) : sameWord
    ((combine m (b + 2 * k') st n j' (combine m (b + 2 * k) st n j s)).readD m (strided (b + 2 * k) st q c))
    ((combine m (b + 2 * k) st n j (combine m (b + 2 * k') st n j' s)).readD m (strided (b + 2 * k) st q c)) := by
  have hst : 1 ≤ st := by omega
  rw [combine_readD_group _ hk hk' hne hc, combine_readD m _ st n j s hst q c hq hc,
    combine_readD m _ st n j _ hst q c hq hc]
  exact (combineResult_combine_group s hk hk' hne).word _

/-- The COMBINEs of two groups of one frame commute, in either memory (R142). -/
theorem combine_comm_readD (a : Nat) : sameWord
    ((combine m (b + 2 * k') st n j' (combine m (b + 2 * k) st n j s)).readD m a)
    ((combine m (b + 2 * k) st n j (combine m (b + 2 * k') st n j' s)).readD m a) := by
  by_cases hmem : ∃ q < 4, ∃ c < 2, a = strided (b + 2 * k) st q c
  · obtain ⟨q, hq, c, hc, rfl⟩ := hmem
    exact combine_comm_readD_group s hk hk' hne hq hc
  by_cases hmem' : ∃ q < 4, ∃ c < 2, a = strided (b + 2 * k') st q c
  · obtain ⟨q, hq, c, hc, rfl⟩ := hmem'
    exact (combine_comm_readD_group s hk' hk hne.symm hq hc).symm
  push Not at hmem hmem'
  rw [combine_readD_other m _ st n j' _ a hmem', combine_readD_other m _ st n j s a hmem,
    combine_readD_other m _ st n j _ a hmem, combine_readD_other m _ st n j' s a hmem']
  exact sameWord.refl _

end

/-- Settles O37: the groups of a frame are those of stride `N/4` in YMEM. -/
theorem groupsCommute : Obligations.GroupsCommute :=
  fun s _ _ _ _ _ hk hk' hne a => combine_comm_readD (m := .ymem) s hk hk' hne a

end Sys2Proof.Machine
end

section
/-! SUPPORT. The family 44_driver.md: the commands under their entry checks (R151, R161, R185), what they leave (R150, R155,
R170), and their traces (R160, R167, R174, R176). -/

namespace Sys2Proof.Machine

/-! ### The commands under their checks -/

theorem thresholdOk_iff (s : State) :
    s.thresholdOk = true ↔ P4 s.argTh.toInt = true ∧ (s.cfg.ls : Int) ≤ s.argTh.toInt :=
  Bool.and_eq_true_iff.trans (and_congr_right' decide_eq_true_iff)

theorem tableOk_iff (s : State) : s.tableOk = true ↔ (s.twn.toNat : Int) = s.argN.toInt := decide_eq_true_iff

section
variable {s : State}

theorem exec_xform_badSize (h : ¬s.sizeOk = true) : exec .xform s = .next (s.raise .invalidSize) := by
  simp [exec, execXform, h]

theorem exec_xform_badTable (hsize : s.sizeOk = true) (h : ¬s.tableOk = true) :
    exec .xform s = .next (s.raise .uninitializedTable) := by
  simp [exec, execXform, hsize, h]

theorem exec_xform_accepted (hsize : s.sizeOk = true) (htable : s.tableOk = true) :
    exec .xform s = .next ((recPlain (log4 s.sizeArg.toNat) 0 0 1 s).finish .ok) := by
  simp [exec, execXform, hsize, htable]

theorem exec_xformT_badSize (h : ¬s.sizeOk = true) : exec .xformT s = .next (s.raise .invalidSize) := by
  simp [exec, execXformT, h]

theorem exec_xformT_badThreshold (hsize : s.sizeOk = true) (h : ¬s.thresholdOk = true) :
    exec .xformT s = .next (s.raise .invalidSize) := by
  simp [exec, execXformT, hsize, h]

theorem exec_xformT_badTable (hsize : s.sizeOk = true) (hth : s.thresholdOk = true) (h : ¬s.tableOk = true) :
    exec .xformT s = .next (s.raise .uninitializedTable) := by
  simp [exec, execXformT, hsize, hth, h]

theorem exec_xformT_accepted (hsize : s.sizeOk = true) (hth : s.thresholdOk = true) (htable : s.tableOk = true) :
    exec .xformT s = .next ((recTiled s.thresholdArg.toNat (log4 s.sizeArg.toNat) 0 0 1 s).finish .ok) := by
  simp [exec, execXformT, hsize, hth, htable]

theorem commandTrace_xform_accepted (hsize : s.sizeOk = true) (htable : s.tableOk = true) :
    commandTrace .xform s = tracePlain (log4 s.sizeArg.toNat) 0 0 1 := by
  simp [commandTrace, hsize, htable]

theorem commandTrace_xformT_accepted (hsize : s.sizeOk = true) (hth : s.thresholdOk = true)
    (htable : s.tableOk = true) : commandTrace .xformT s =
    traceTiled s.cfg.ls s.thresholdArg.toNat (log4 s.sizeArg.toNat) 0 0 1 := by
  simp [commandTrace, hsize, hth, htable]

theorem not_sizeOk (h : P4 s.argN.toInt = false ∨ (4 : Int) ^ s.cfg.log4NMax < s.argN.toInt) :
    ¬s.sizeOk = true := by
  rw [sizeOk_iff]
  rintro ⟨hpow, hmax⟩
  obtain h | h := h
  · simp [h] at hpow
  · omega

theorem not_thresholdOk (h : P4 s.argTh.toInt = false ∨ s.argTh.toInt < s.cfg.ls) : ¬s.thresholdOk = true := by
  rw [thresholdOk_iff]
  rintro ⟨hpow, hls⟩
  obtain h | h := h
  · simp [h] at hpow
  · omega

/-- Settles O46: the size check comes first, and each failing check raises its own code. -/
theorem xformErrors : Obligations.XformErrors := by
  intro s
  refine ⟨fun hbad => exec_xform_badSize (not_sizeOk hbad), fun hpow hmax htwn => ?_⟩
  exact exec_xform_badTable ((sizeOk_iff s).mpr ⟨hpow, hmax⟩) (mt (tableOk_iff s).mp htwn)

/-- Settles O47: size, threshold, table, in this order (R185). -/
theorem xformTErrors : Obligations.XformTErrors := by
  intro s
  refine ⟨fun hbad => exec_xformT_badSize (not_sizeOk hbad), fun hpow hmax hbad => ?_,
    fun hpow hmax hth hls htwn => ?_⟩
  · exact exec_xformT_badThreshold ((sizeOk_iff s).mpr ⟨hpow, hmax⟩) (not_thresholdOk hbad)
  · exact exec_xformT_badTable ((sizeOk_iff s).mpr ⟨hpow, hmax⟩) ((thresholdOk_iff s).mpr ⟨hth, hls⟩)
      (mt (tableOk_iff s).mp htwn)

/-! ### The commands at a size `4^n` and a threshold `4^k` -/

theorem exec_xform_pow {n : Nat} (h1 : 1 ≤ n) (h2 : n ≤ s.cfg.log4NMax) (hN : s.argN.toInt = 4 ^ n)
    (htwn : s.twn.toNat = 4 ^ n) : exec .xform s = .next ((recPlain n 0 0 1 s).finish .ok) := by
  obtain ⟨hsize, hlog⟩ := sizeOk_of_pow h1 h2 hN
  rw [exec_xform_accepted hsize (tableOk_of_pow hN htwn), hlog]

theorem exec_xformT_pow {n k : Nat} (h1 : 1 ≤ n) (h2 : n ≤ s.cfg.log4NMax) (hN : s.argN.toInt = 4 ^ n)
    (htwn : s.twn.toNat = 4 ^ n) (hk : 1 ≤ k) (hTh : s.argTh.toInt = 4 ^ k) (hls : s.cfg.ls ≤ 4 ^ k) :
    exec .xformT s = .next ((recTiled (4 ^ k) n 0 0 1 s).finish .ok) := by
  obtain ⟨hsize, hlog⟩ := sizeOk_of_pow h1 h2 hN
  obtain ⟨hth, hpow⟩ := thresholdOk_of_pow hk hTh hls
  rw [exec_xformT_accepted hsize hth (tableOk_of_pow hN htwn), hlog, hpow]

theorem four_le_pow {k : Nat} (hk : 1 ≤ k) : 4 ≤ 4 ^ k := Nat.le_self_pow (by omega) 4

/-- The end of a command adds STATUS to what the recursion may change (R70 step 5). -/
theorem State.SameControl.finish_frame {t : State} (h : s.SameControl t) (c : ErrCode) : t.finish c =
    { s with ymem := t.ymem, buf := t.buf, t := t.t, p := t.p, draws := t.draws, status := ⟨false, true, c⟩ } := by
  rw [State.finish, h]

/-! ### What the commands leave -/

/-- REC at the root leaves the values of the recursion in the words it is asked for (R150). -/
theorem recPlain_root_values {n : Nat} (hn : 1 ≤ n) (a : Nat) (ha : a < 2 * 4 ^ n) :
    sameWord ((recPlain n 0 0 1 s).readY a) (recValues binary64 s.romWord s.readX n 0 1 a) := by
  obtain ⟨m, rfl⟩ := Nat.exists_eq_add_of_le' hn
  simpa only [Nat.zero_add] using recPlain_values m 0 0 1 s a ha

/-- RECT at the root leaves the same values, with a chunk length and a threshold in range (R155, R170). -/
theorem recTiled_root_values {n k : Nat} (hv : s.cfg.valid = true) (hn : 1 ≤ n) (hk : 1 ≤ k)
    (hls : s.cfg.ls ≤ 4 ^ k) (a : Nat) (ha : a < 2 * 4 ^ n) :
    sameWord ((recTiled (4 ^ k) n 0 0 1 s).readY a) (recValues binary64 s.romWord s.readX n 0 1 a) := by
  obtain ⟨m, rfl⟩ := Nat.exists_eq_add_of_le' hn
  simpa only [Nat.zero_add] using
    recTiled_values (4 ^ k) (four_le_pow hk) m 0 0 1 s (ls_dvd_quarter hv hls) a ha

/-- Settles O48: the command is REC and the end; REC's values (`recPlain_values`), footprint (`recPlain_touches`) and BUF
(`recPlain_buf`) are known. -/
theorem xformComputes : Obligations.XformComputes := by
  intro s n h1 h2 hN htwn
  have htouch := recPlain_touches n 0 0 1 s
  have hframe := htouch.control.finish_frame .ok
  rw [recPlain_buf] at hframe
  exact ⟨_, exec_xform_pow h1 h2 hN htwn, rfl, recPlain_root_values h1, fun a ha => htouch.readY a (.inr (by omega)),
    hframe⟩

/-- Settles O49: as O48, through RECT; at or below the threshold RECT is REC (`recTiled_of_le`), which leaves BUF. -/
theorem xformTComputes : Obligations.XformTComputes := by
  intro s n k hv h1 h2 hN htwn hk hTh hls
  have htouch := recTiled_touches (4 ^ k) n 0 0 1 s
  refine ⟨_, exec_xformT_pow h1 h2 hN htwn hk hTh hls, rfl, recTiled_root_values hv h1 hk hls,
    fun a ha => htouch.readY a (.inr (by omega)), fun hnk => ?_, htouch.control.finish_frame .ok⟩
  rw [State.finish_buf, recTiled_of_le (Nat.pow_le_pow_right (by norm_num) hnk) h1, recPlain_buf]

/-- Settles O51: both commands leave the values of one recursion on one input (R170). -/
theorem tiledEqualsPlain : Obligations.TiledEqualsPlain := by
  intro s s' n k hv h1 h2 h2' hN htwn hk hTh hls eN etwn exmem eepoch erom
  refine ⟨_, _, exec_xformT_pow h1 h2 hN htwn hk hTh hls,
    exec_xform_pow h1 h2' (eN ▸ hN) (etwn ▸ htwn), fun a ha => ?_⟩
  have hrom : s'.romWord = s.romWord := by
    funext d o
    rw [State.romWord, State.romWord, erom]
  have hx : s'.readX = s.readX := by
    funext b
    rw [State.readX, State.readX, exmem, eepoch]
  have hplain := recPlain_root_values (s := s') h1 a ha
  rw [hrom, hx] at hplain
  exact (recTiled_root_values hv h1 hk hls a ha).trans hplain.symm

end

/-! ### The trace of an accepted command -/

/-- What an accepted size, with the table for it, says of the root frame (R166, R167). -/
theorem rootFits_of_accepted {s : State} (hsize : s.sizeOk = true) (htable : s.tableOk = true) :
    FrameFits s (log4 s.sizeArg.toNat) 0 0 1 := by
  obtain ⟨n, h1, h2, hN⟩ := pow_of_sizeOk hsize
  rw [(sizeOk_of_pow h1 h2 hN).2]
  exact rootFits h1 h2 (twn_of_tableOk hN htable)

theorem four_le_threshold {s : State} (h : s.thresholdOk = true) : 4 ≤ s.thresholdArg.toNat := by
  obtain ⟨k, hk, hTh, hls⟩ := pow_of_thresholdOk h
  rw [(thresholdOk_of_pow hk hTh hls).2]
  exact four_le_pow hk

/-- Every micro-operation of a command's trace is one of the four kinds and passes its checks (R160, R167). -/
theorem commandTrace_ok (s : State) (c i : Instr) (hi : i ∈ commandTrace c s) :
    isTraceOp i = true ∧ microOk s i = true := by
  cases c
  case xform =>
    simp only [commandTrace] at hi
    split at hi
    · rename_i hok
      obtain ⟨hsize, htable⟩ := Bool.and_eq_true_iff.mp hok
      exact tracePlain_ok _ 0 0 1 s (rootFits_of_accepted hsize htable) i hi
    · cases hi
  case xformT =>
    simp only [commandTrace] at hi
    split at hi
    · rename_i hok
      simp only [Bool.and_eq_true] at hok
      obtain ⟨⟨hsize, hth⟩, htable⟩ := hok
      exact traceTiled_ok _ (four_le_threshold hth) _ 0 0 1 s (rootFits_of_accepted hsize htable) i hi
    · cases hi
  all_goals cases hi

theorem runTrace_commandTrace (s : State) (c : Instr) :
    runTrace (commandTrace c s) s = .next (applyTrace (commandTrace c s) s) :=
  runTrace_of_microOk _ s (fun i hi => (commandTrace_ok s c i hi).1) fun i hi => (commandTrace_ok s c i hi).2

/-- Settles O52: no operation of the trace stops, and the recursion is the composition of its trace (`recPlain_trace`,
`recTiled_trace`). -/
theorem commandsComposeTheirTrace : Obligations.CommandsComposeTheirTrace := by
  intro s hsize htable
  refine ⟨⟨_, runTrace_commandTrace s .xform, ?_⟩, fun hth => ⟨_, runTrace_commandTrace s .xformT, ?_⟩⟩
  · rw [exec_xform_accepted hsize htable, commandTrace_xform_accepted hsize htable, recPlain_trace]
  · rw [exec_xformT_accepted hsize hth htable, commandTrace_xformT_accepted hsize hth htable, recTiled_trace]

/-- A COMBINE that passes its checks reads table words that TWRD's check lets through (R140, R117). -/
theorem tableIndexOk_of_combineOk {s : State} {m : DataMem} {base st n j : Nat}
    (h : s.combineOk m base st n j = true) {i b : Nat} (hi : i < 4) (hb : b < 2) :
    s.tableIndexOk (n - 2) (8 * j + 2 * i + b) = true := by
  obtain ⟨hn, htwn, hlevel, hj, -⟩ := (combineOk_iff s m base st n j).mp h
  obtain ⟨l, rfl⟩ := Nat.exists_eq_add_of_le' hn
  rw [tableIndexOk_iff, Nat.add_sub_cancel]
  rw [show l + 2 - 1 = l + 1 by omega] at hj
  have hwords : 4 ^ (l + 2) = 4 * 4 ^ (l + 1) := pow_succ' 4 (l + 1)
  exact ⟨htwn, by omega, by omega⟩

/-- A command never ends with code 2 (R167). -/
theorem exec_command_err {s t : State} {c : Instr} (hc : isCommand c = true) (h : exec c s = .next t) :
    t.status.err ≠ .indexOutOfRange := by
  cases c
  case initTw =>
    simp only [exec, execInitTw] at h
    split at h <;> cases h <;> simp
  case xform =>
    simp only [exec, execXform] at h
    split at h <;> [skip; split at h] <;> cases h <;> simp
  case xformT =>
    simp only [exec, execXformT] at h
    split at h <;> [skip; split at h <;> [skip; split at h]] <;> cases h <;> simp
  all_goals cases hc

/-- Settles O53: every operation of a trace passes its checks, and for a COMBINE these cover the table words it reads. -/
theorem noIndexOutOfRange : Obligations.NoIndexOutOfRange := fun s c hc =>
  ⟨fun i hi => (commandTrace_ok s c i hi).2,
    fun _ _ _ _ _ hmem _ hi _ hb => tableIndexOk_of_combineOk (commandTrace_ok s c _ hmem).2 hi hb,
    fun _ ht => exec_command_err hc ht⟩

/-- A tiled trace at or below its threshold is the plain one (R160). -/
theorem traceTiled_of_le {th n : Nat} (h : 4 ^ n ≤ th) (hn : 1 ≤ n) (ls yb xb st : Nat) :
    traceTiled ls th n yb xb st = tracePlain n yb xb st := by
  obtain ⟨m, rfl⟩ := Nat.exists_eq_add_of_le' hn
  rw [traceTiled, if_pos h]

/-- Settles O55: at `n = 1` REC is its base case, and every legal threshold is at least 4, so RECT is REC. -/
theorem sizeFourIsOneButterfly : Obligations.SizeFourIsOneButterfly := by
  intro s hN htwn hmax
  obtain ⟨hsize, hlog⟩ := sizeOk_of_pow (n := 1) le_rfl hmax hN
  have htable : s.tableOk = true := tableOk_of_pow (n := 1) hN htwn
  refine ⟨?_, ?_, bfly4_buf 0 0 1 s, fun hth => ⟨?_, ?_⟩⟩
  · rw [commandTrace_xform_accepted hsize htable, hlog, tracePlain]
  · rw [exec_xform_accepted hsize htable, hlog, recPlain]
  · rw [commandTrace_xformT_accepted hsize hth htable, hlog,
      traceTiled_of_le (four_le_threshold hth) le_rfl, tracePlain]
  · rw [exec_xformT_accepted hsize hth htable, hlog, recTiled_of_le (four_le_threshold hth) le_rfl, recPlain]

end Sys2Proof.Machine
end

section
/-! SUPPORT. BUFLD and BUFST as the statements have them (R158, R159), what the recursion reads (R166), that the branches of
a frame are independent (R165), and which YMEM words a transform writes (R22). -/

namespace Sys2Proof.Machine

/-! ### Buffer moves -/

/-- Settles O44: the tile's words exist, and BUFLD's copy (`bufld_readB`, `bufld_loaded`) and frame (`bufld_eq`) are known. -/
theorem bufldResult : Obligations.BufldResult := by
  intro s yb q t htile
  exact ⟨bufld yb q t s, if_pos ((tileOk_iff s yb q t).mpr htile),
    fun i hi e he c hc => bufld_readB yb q t s i e c hi he hc,
    fun b hb => (bufld_loaded yb q t s).rest b (by omega), bufld_eq yb q t s⟩

/-- Settles O45: the tile's words exist, and BUFST's copy (`bufst_readY`), footprint (`bufst_readY_other`) and frame
(`bufst_eq`) are known. -/
theorem bufstResult : Obligations.BufstResult := by
  intro s yb q t htile
  exact ⟨bufst yb q t s, if_pos ((tileOk_iff s yb q t).mpr htile),
    fun hq i hi e he c hc => bufst_readY yb q t s hq i e c hi he hc,
    fun a ha => bufst_readY_other yb q t s a ha, bufst_eq yb q t s⟩

/-! ### What the recursion reads -/

/-- The recursion's values depend on the strided input words only (R166). -/
theorem recValues_congr {F : Type} (ops : Numerics F) (table : Nat → Nat → F) {x x' : Nat → F} (n xb st : Nat)
    (h : ∀ m < 4 ^ (n + 1), ∀ c < 2, x (xb + 2 * st * m + c) = x' (xb + 2 * st * m + c)) :
    recValues ops table x (n + 1) xb st = recValues ops table x' (n + 1) xb st := by
  induction n generalizing xb st with
  | zero =>
    have hgather : gather x xb st = gather x' xb st := gather_congr fun q hq c hc => by
      rw [strided, mul_right_comm]
      exact h q hq c hc
    funext a
    rw [recValues, recValues, hgather]
  | succ n ih =>
    have hsub : ∀ j < 4, recValues ops table x (n + 1) (xb + 2 * st * j) (4 * st) =
        recValues ops table x' (n + 1) (xb + 2 * st * j) (4 * st) := fun j hj => ih _ _ fun m hm c hc => by
      have hpow : 4 ^ (n + 2) = 4 * 4 ^ (n + 1) := pow_succ' 4 (n + 1)
      rw [show xb + 2 * st * j + 2 * (4 * st) * m = xb + 2 * st * (j + 4 * m) by ring]
      exact h _ (by omega) c hc
    funext a
    simp only [recValues, hsub 0 (by omega), hsub 1 (by omega), hsub 2 (by omega), hsub 3 (by omega)]

/-- Settles O57: both recursions compute `recValues` of their own input, which is the same (`recValues_congr`). -/
theorem recursionReadsOnlyItsInput : Obligations.RecursionReadsOnlyItsInput := by
  intro s s' n yb xb st hn hx hrom
  obtain ⟨m, rfl⟩ := Nat.exists_eq_add_of_le' hn
  have hvalues : recValues binary64 s'.romWord s'.readX (m + 1) xb st =
      recValues binary64 s.romWord s.readX (m + 1) xb st := by
    rw [recValues_congr binary64 s'.romWord m xb st fun i hi c hc => (hx i hi c hc).symm]
    congr 1
    exact (funext₂ hrom).symm
  have hplain : ∀ a < 2 * 4 ^ (m + 1), sameWord (recValues binary64 s.romWord s.readX (m + 1) xb st a)
      ((recPlain (m + 1) yb xb st s').readY (yb + a)) := fun a ha =>
    hvalues ▸ (recPlain_values m yb xb st s' a ha).symm
  exact ⟨fun a ha => (recPlain_values m yb xb st s a ha).trans (hplain a ha),
    fun th hth hdvd a ha => (recTiled_values th hth m yb xb st s hdvd a ha).trans (hplain a ha)⟩

/-! ### The branches of a frame -/

/-- Branch `j` of a plain frame of size `4^(m+1)` (R150, R165). -/
def recBranch (m yb xb st j : Nat) (s : State) : State :=
  recPlain m (yb + 2 * 4 ^ m * j) (xb + 2 * st * j) (4 * st) s

theorem recBranch_touches (m yb xb st j : Nat) (s : State) :
    Touches (yb + 2 * 4 ^ m * j) (yb + 2 * 4 ^ m * (j + 1)) s (recBranch m yb xb st j s) := by
  rw [Nat.mul_succ, ← Nat.add_assoc]
  exact recPlain_touches m _ _ _ s

section
variable {m j j' : Nat} (yb xb st : Nat) (s : State)

/-- In its own quarter a branch leaves the same words whether another branch ran before it or runs after it (R165). -/
theorem recBranch_comm_readY_quarter (hm : 1 ≤ m) (hne : j ≠ j') {a : Nat} (hlo : yb + 2 * 4 ^ m * j ≤ a)
    (hhi : a < yb + 2 * 4 ^ m * (j + 1)) :
    sameWord ((recBranch m yb xb st j' (recBranch m yb xb st j s)).readY a)
      ((recBranch m yb xb st j (recBranch m yb xb st j' s)).readY a) := by
  have houtside : a < yb + 2 * 4 ^ m * j' ∨ yb + 2 * 4 ^ m * (j' + 1) ≤ a := by
    rcases Nat.lt_or_gt_of_ne hne with h | h
    · have := Nat.mul_le_mul_left (2 * 4 ^ m) (show j + 1 ≤ j' from h)
      omega
    · have := Nat.mul_le_mul_left (2 * 4 ^ m) (show j' + 1 ≤ j from h)
      omega
  rw [(recBranch_touches m yb xb st j' _).readY a houtside]
  obtain ⟨b, rfl⟩ := Nat.exists_eq_add_of_le hlo
  obtain ⟨n, rfl⟩ := Nat.exists_eq_add_of_le' hm
  rw [Nat.mul_succ] at hhi
  have hother := (recBranch_touches (n + 1) yb xb st j' s).control
  have hafter := recPlain_values n (yb + 2 * 4 ^ (n + 1) * j) (xb + 2 * st * j) (4 * st)
    (recBranch (n + 1) yb xb st j' s) b (by omega)
  rw [hother.romWord, hother.readX] at hafter
  exact (recPlain_values n _ _ _ s b (by omega)).trans hafter.symm

end

/-- Settles O56: a word lies in the quarter of one of the two branches (`recBranch_comm_readY_quarter`), or neither writes
it. -/
theorem branchesCommute : Obligations.BranchesCommute := by
  intro s m yb xb st j j' hm hj hj' hne
  refine ⟨(recBranch_touches m yb xb st j s).readY, fun a => ?_⟩
  change sameWord ((recBranch m yb xb st j' (recBranch m yb xb st j s)).readY a)
    ((recBranch m yb xb st j (recBranch m yb xb st j' s)).readY a)
  by_cases hin : yb + 2 * 4 ^ m * j ≤ a ∧ a < yb + 2 * 4 ^ m * (j + 1)
  · exact recBranch_comm_readY_quarter yb xb st s hm hne hin.1 hin.2
  by_cases hin' : yb + 2 * 4 ^ m * j' ≤ a ∧ a < yb + 2 * 4 ^ m * (j' + 1)
  · exact (recBranch_comm_readY_quarter yb xb st s hm hne.symm hin'.1 hin'.2).symm
  have hout : a < yb + 2 * 4 ^ m * j ∨ yb + 2 * 4 ^ m * (j + 1) ≤ a := by omega
  have hout' : a < yb + 2 * 4 ^ m * j' ∨ yb + 2 * 4 ^ m * (j' + 1) ≤ a := by omega
  rw [(recBranch_touches m yb xb st j' _).readY a hout', (recBranch_touches m yb xb st j _).readY a hout,
    (recBranch_touches m yb xb st j _).readY a hout, (recBranch_touches m yb xb st j' _).readY a hout']
  exact sameWord.refl _

/-! ### The words a transform writes -/

/-- YMEM word `a` has been written since reset (R22, R44). -/
def State.WrittenY (s : State) (a : Nat) : Prop := (s.ymem.get a).isSome = true

section
variable (s : State) (a : Nat)

@[simp] theorem State.writtenY_writeY (b : Nat) (v : FWord) : (s.writeY b v).WrittenY a ↔ a = b ∨ s.WrittenY a := by
  unfold State.WrittenY
  rw [State.writeY_ymem, Mem.get_set]
  split <;> simp [*]

@[simp] theorem State.writtenY_writeB (b : Nat) (v : FWord) : (s.writeB b v).WrittenY a ↔ s.WrittenY a := .rfl

@[simp] theorem State.writtenY_draw (n : Nat) : (s.draw n).WrittenY a ↔ s.WrittenY a := .rfl

/-- BFLY4 writes its eight YMEM words and unwrites none (R127). -/
theorem writtenY_bfly4 (yb xb st : Nat) :
    (bfly4 yb xb st s).WrittenY a ↔ (yb ≤ a ∧ a < yb + 8) ∨ s.WrittenY a := by
  unfold bfly4 scatterLeaf contiguous
  simp only [State.writtenY_writeY, State.writtenY_draw]
  change _ ∨ _ ∨ _ ∨ _ ∨ _ ∨ _ ∨ _ ∨ _ ∨ s.WrittenY a ↔ _
  by_cases hwritten : s.WrittenY a
  · simp only [hwritten, or_true]
  · simp only [hwritten, or_false]
    omega

/-- No micro-operation unwrites a word (R44). -/
theorem writtenY_applyMicro (i : Instr) (h : s.WrittenY a) : (applyMicro i s).WrittenY a := by
  cases i
  case bfly4 yb xb st => exact (writtenY_bfly4 s a yb xb st).mpr (.inr h)
  case combine m base st n j =>
    cases m
    case ymem =>
      simp only [applyMicro, combine, scatter, State.writeD, State.writtenY_writeY, State.writtenY_draw]
      iterate 8 right
      exact h
    case buf =>
      rw [applyMicro, State.WrittenY, combine_buf_ymem]
      exact h
  case bufld yb q t =>
    rw [applyMicro, bufld_eq]
    exact h
  case bufst yb q t =>
    rw [applyMicro, bufst]
    refine forUpTo_keeps (P := fun u => u.WrittenY a) _ _ _ h fun i _ u hu => ?_
    refine forUpTo_keeps (P := fun u => u.WrittenY a) _ _ _ hu fun e _ v hv => ?_
    simp only [storeElement, State.writtenY_writeY]
    exact .inr (.inr hv)
  all_goals exact h

theorem writtenY_applyTrace (tr : List Instr) (h : s.WrittenY a) : (applyTrace tr s).WrittenY a := by
  induction tr generalizing s with
  | nil => exact h
  | cons i tr ih => exact ih _ (writtenY_applyMicro s a i h)

end

/-- Some BFLY4 of the trace writes word `a`. -/
def Covers (tr : List Instr) (a : Nat) : Prop := ∃ yb xb st, .bfly4 yb xb st ∈ tr ∧ yb ≤ a ∧ a < yb + 8

theorem Covers.mono {tr tr' : List Instr} {a : Nat} (h : Covers tr a) (hsub : ∀ i ∈ tr, i ∈ tr') : Covers tr' a := by
  obtain ⟨yb, xb, st, hmem, hbounds⟩ := h
  exact ⟨yb, xb, st, hsub _ hmem, hbounds⟩

theorem Covers.writtenY {tr : List Instr} {a : Nat} (h : Covers tr a) (s : State) : (applyTrace tr s).WrittenY a := by
  obtain ⟨yb, xb, st, hmem, hbounds⟩ := h
  obtain ⟨before, after, rfl⟩ := List.append_of_mem hmem
  rw [applyTrace_append]
  exact writtenY_applyTrace _ a after ((writtenY_bfly4 _ a yb xb st).mpr (.inl hbounds))

/-- Every word of a frame's output range lies in the quarter of one branch (R150). -/
theorem exists_quarter {m yb a : Nat} (hlo : yb ≤ a) (hhi : a < yb + 2 * 4 ^ (m + 1)) :
    ∃ j < 4, yb + 2 * 4 ^ m * j ≤ a ∧ a < yb + 2 * 4 ^ m * j + 2 * 4 ^ m := by
  obtain ⟨b, rfl⟩ := Nat.exists_eq_add_of_le hlo
  have hQ : 0 < 2 * 4 ^ m := by positivity
  have hmod := Nat.mod_lt b hQ
  have hdiv := Nat.mod_add_div b (2 * 4 ^ m)
  rw [pow_succ] at hhi
  exact ⟨b / (2 * 4 ^ m), Nat.div_lt_of_lt_mul (by omega), by omega, by omega⟩

theorem tracePlain_covers {n yb a : Nat} (xb st : Nat) (hlo : yb ≤ a) (hhi : a < yb + 2 * 4 ^ (n + 1)) :
    Covers (tracePlain (n + 1) yb xb st) a := by
  induction n generalizing yb xb st with
  | zero => exact ⟨yb, xb, st, List.mem_singleton_self _, hlo, hhi⟩
  | succ n ih =>
    obtain ⟨j, hj, hjlo, hjhi⟩ := exists_quarter hlo hhi
    exact (ih _ _ hjlo hjhi).mono fun i hi => List.mem_append_left _ ((mem_listUpTo 4 _ i).mpr ⟨j, hj, hi⟩)

theorem traceTiled_covers {th n yb a : Nat} (ls xb st : Nat) (hth : 4 ≤ th) (hlo : yb ≤ a)
    (hhi : a < yb + 2 * 4 ^ (n + 1)) : Covers (traceTiled ls th (n + 1) yb xb st) a := by
  induction n generalizing yb xb st with
  | zero =>
    rw [traceTiled_of_le hth le_rfl]
    exact tracePlain_covers xb st hlo hhi
  | succ n ih =>
    rw [traceTiled]
    split
    · exact tracePlain_covers xb st hlo hhi
    · obtain ⟨j, hj, hjlo, hjhi⟩ := exists_quarter hlo hhi
      exact (ih _ _ hjlo hjhi).mono fun i hi => List.mem_append_left _ ((mem_listUpTo 4 _ i).mpr ⟨j, hj, hi⟩)

/-- Settles O50: the leaves of either trace cover the output range, and no operation of a trace unwrites a word. -/
theorem transformsOverwriteTheirRange : Obligations.TransformsOverwriteTheirRange := by
  intro s n hn
  obtain ⟨m, rfl⟩ := Nat.exists_eq_add_of_le' hn
  refine ⟨fun a ha => ?_, fun th hth _ a ha => ?_⟩
  · rw [← recPlain_trace]
    exact (tracePlain_covers 0 1 (Nat.zero_le a) (by omega)).writtenY s
  · rw [← recTiled_trace]
    exact (traceTiled_covers s.cfg.ls 0 1 hth (Nat.zero_le a) (by omega)).writtenY s

/-! ### Counts -/

@[simp] theorem countOps_append (sel : Instr → Bool) (tr tr' : List Instr) :
    countOps sel (tr ++ tr') = countOps sel tr + countOps sel tr' := by
  simp [countOps]

theorem countOps_listUpTo (sel : Instr → Bool) (n c : Nat) (f : Nat → List Instr)
    (h : ∀ k < n, countOps sel (f k) = c) : countOps sel (listUpTo n f) = n * c := by
  induction n with
  | zero => rw [Nat.zero_mul]; rfl
  | succ n ih =>
    rw [listUpTo, countOps_append, ih fun k hk => h k (by omega), h n (by omega), Nat.succ_mul]

section
variable {sel : Instr → Bool} {leaf group : Nat}
  (hleaf : ∀ yb xb st, countOps sel [.bfly4 yb xb st] = leaf)
  (hgroup : ∀ m base st n j, countOps sel [.combine m base st n j] = group)
include hleaf hgroup

/-- A plain trace of size `4^(n+1)` has `4^n` leaves and `n*4^n` groups, whatever is counted of each (R174). -/
theorem countOps_tracePlain (n yb xb st : Nat) :
    countOps sel (tracePlain (n + 1) yb xb st) = 4 ^ n * leaf + n * 4 ^ n * group := by
  induction n generalizing yb xb st with
  | zero => simp [tracePlain, hleaf]
  | succ n ih =>
    rw [tracePlain, countOps_append, countOps_listUpTo sel 4 _ _ fun j _ => ih _ _ _,
      countOps_listUpTo sel _ group _ fun j _ => hgroup _ _ _ _ _]
    ring

/-- The tiled trace has the same numbers of both, when each buffered frame is a whole number of tiles (R174). -/
theorem countOps_traceTiled {ls th : Nat} (hld : ∀ yb q t, countOps sel [.bufld yb q t] = 0)
    (hst : ∀ yb q t, countOps sel [.bufst yb q t] = 0) (hth : 4 ≤ th) (hdvd : ∀ m, th < 4 ^ (m + 1) → ls ∣ 4 ^ m)
    (n yb xb st : Nat) :
    countOps sel (traceTiled ls th (n + 1) yb xb st) = 4 ^ n * leaf + n * 4 ^ n * group := by
  induction n generalizing yb xb st with
  | zero => rw [traceTiled_of_le hth le_rfl, countOps_tracePlain hleaf hgroup]
  | succ n ih =>
    rw [traceTiled]
    split
    · exact countOps_tracePlain hleaf hgroup (n + 1) yb xb st
    · rename_i hlt
      have htile : 4 ^ (n + 1) / ls * (ls * group) = 4 ^ (n + 1) * group := by
        rw [← mul_assoc, Nat.div_mul_cancel (hdvd (n + 1) (by omega))]
      rw [countOps_append, countOps_listUpTo sel 4 _ _ fun j _ => ih _ _ _,
        countOps_listUpTo sel _ (ls * group) _ fun t _ => ?_, htile]
      · ring
      · rw [countOps_append, countOps_append, hld, hst,
          countOps_listUpTo sel ls group _ fun e _ => hgroup _ _ _ _ _]
        ring

end

/-- Settles O54: BFLY4s, COMBINEs and all operations counted over the plain trace, the first two over the tiled one. -/
theorem traceCounts : Obligations.TraceCounts := by
  intro n hn
  obtain ⟨m, rfl⟩ := Nat.exists_eq_add_of_le' hn
  rw [Nat.add_sub_cancel]
  refine ⟨fun yb xb st => ⟨?_, ?_, ?_⟩, fun ls th yb xb st hth hdvd => ⟨?_, ?_⟩⟩
  · simpa using countOps_tracePlain (sel := isBfly4) (leaf := 1) (group := 0) (fun _ _ _ => rfl) (fun _ _ _ _ _ => rfl)
      m yb xb st
  · simpa using countOps_tracePlain (sel := isCombine) (leaf := 0) (group := 1) (fun _ _ _ => rfl)
      (fun _ _ _ _ _ => rfl) m yb xb st
  · have hall := countOps_tracePlain (sel := fun _ => true) (leaf := 1) (group := 1) (fun _ _ _ => rfl)
      (fun _ _ _ _ _ => rfl) m yb xb st
    rw [countOps, List.filter_true] at hall
    rw [hall]
    ring
  · simpa using countOps_traceTiled (sel := isBfly4) (leaf := 1) (group := 0) (fun _ _ _ => rfl) (fun _ _ _ _ _ => rfl)
      (fun _ _ _ => rfl) (fun _ _ _ => rfl) hth hdvd m yb xb st
  · simpa using countOps_traceTiled (sel := isCombine) (leaf := 0) (group := 1) (fun _ _ _ => rfl)
      (fun _ _ _ _ _ => rfl) (fun _ _ _ => rfl) (fun _ _ _ => rfl) hth hdvd m yb xb st

end Sys2Proof.Machine
end

section
/-! SUPPORT. The sequencer's moves (R38, R39) against the atomic command (R169): how deep the frame stack grows (R168), and
that a frame's moves end where its recursion ends. -/

namespace Sys2Proof.Machine

/-! ### The depth of the frame stack -/

/-- Every frame has a size `4^n` with `1 <= n`, and the exponents leave room below `N` for the frames beneath (R168). -/
def StackWithin (N : Nat) : List Frame → Prop
  | [] => True
  | f :: rest => (1 ≤ f.n ∧ f.size = 4 ^ f.n ∧ 4 ≤ f.th) ∧ f.n + rest.length ≤ N ∧ StackWithin N rest

section
variable {N : Nat} {f : Frame} {rest : List Frame} {s : State}

theorem StackWithin.length_le {fs : List Frame} (h : StackWithin N fs) : fs.length ≤ N := by
  cases fs with
  | nil => exact Nat.zero_le N
  | cons f rest =>
    obtain ⟨⟨hn, -⟩, hroom, -⟩ := h
    rw [List.length_cons]
    omega

theorem StackWithin.popFrame (h : StackWithin N (f :: rest)) : StackWithin N (popFrame rest s).frames := by
  obtain ⟨-, -, hrest⟩ := h
  cases rest with
  | nil => trivial
  | cons g gs => exact hrest

/-- Only a frame larger than 4 divides, so its children still have `1 <= n`. -/
theorem StackWithin.tickDivide (h : StackWithin N (f :: rest)) (hsize : f.size ≠ 4) :
    StackWithin N (tickDivide f rest s).frames := by
  unfold Machine.tickDivide
  split
  · obtain ⟨⟨hn, hpow, hth⟩, hroom, -⟩ := id h
    have hne : f.n ≠ 1 := fun h1 => hsize (by rw [hpow, h1, pow_one])
    obtain ⟨m, hm⟩ := Nat.exists_eq_add_of_le' (show 2 ≤ f.n by omega)
    refine ⟨⟨?_, ?_, hth⟩, ?_, h⟩
    · simp only [childFrame]
      omega
    · simp only [childFrame, hpow, hm]
      rw [pow_succ]
      exact Nat.mul_div_cancel _ (by norm_num)
    · simp only [childFrame, List.length_cons]
      omega
  · exact h

theorem StackWithin.tickPlain (h : StackWithin N (f :: rest)) : StackWithin N (tickPlain f rest s).frames := by
  unfold Machine.tickPlain
  split
  · exact h.popFrame
  · split
    · exact h.tickDivide ‹_›
    · split
      · exact h
      · exact h.popFrame

theorem StackWithin.tickTiled (h : StackWithin N (f :: rest)) : StackWithin N (tickTiled f rest s).frames := by
  unfold Machine.tickTiled
  split
  · exact h
  · split
    · obtain ⟨⟨-, -, hth⟩, -⟩ := id h
      exact h.tickDivide (by omega)
    · split
      · split
        · exact h
        · split <;> exact h
      · exact h.popFrame

theorem StackWithin.tick (h : StackWithin N s.frames) : StackWithin N (tick s).frames := by
  unfold Machine.tick
  split
  · exact h
  · rename_i hf
    rw [hf] at h
    split
    · exact h.tickPlain
    · exact h.tickTiled

theorem StackWithin.ticks (h : StackWithin N s.frames) (k : Nat) : StackWithin N (ticks k s).frames := by
  induction k generalizing s with
  | zero => exact h
  | succ k ih => exact ih h.tick

end

/-- Settles O59: the root frame's stack is within `n`, and every move keeps it so. -/
theorem frameStackDepth : Obligations.FrameStackDepth := by
  intro s variant n th k hn hth
  have hroot : StackWithin n (started (rootFrame variant n th) s).frames :=
    ⟨⟨hn, rfl, hth⟩, le_rfl, trivial⟩
  exact (hroot.ticks k).length_le

/-! ### Runs of moves -/

/-- Some number of moves leads from `s` to `t`. -/
def Reaches (s t : State) : Prop := ∃ k, ticks k s = t

theorem Reaches.refl (s : State) : Reaches s s := ⟨0, rfl⟩

theorem Reaches.tick {s t : State} (h : tick s = t) : Reaches s t := ⟨1, h⟩

theorem ticks_add (k l : Nat) (s : State) : ticks (k + l) s = ticks l (ticks k s) := by
  induction k generalizing s with
  | zero => rw [Nat.zero_add]; rfl
  | succ k ih =>
    rw [Nat.succ_add]
    exact ih _

theorem Reaches.trans {s t u : State} (h1 : Reaches s t) (h2 : Reaches t u) : Reaches s u := by
  obtain ⟨k, rfl⟩ := h1
  obtain ⟨l, rfl⟩ := h2
  exact ⟨k + l, ticks_add k l s⟩

/-- A loop of the recursion is a run of moves when each of its passes is; `view i` is the machine's state before pass `i`.
The configuration, which fixes the number of tiles, stays. -/
theorem Reaches.loop {n : Nat} {g : Nat → State → State} (view : Nat → State → State) (s : State)
    (h : ∀ i < n, ∀ u, u.cfg = s.cfg → Reaches (view i u) (view (i + 1) (g i u)) ∧ (g i u).cfg = u.cfg) :
    Reaches (view 0 s) (view n (forUpTo n g s)) ∧ (forUpTo n g s).cfg = s.cfg := by
  refine forUpTo_invariant (P := fun i u => Reaches (view 0 s) (view i u) ∧ u.cfg = s.cfg) n g s ⟨.refl _, rfl⟩ ?_
  rintro i hi u ⟨hrun, hcfg⟩
  obtain ⟨hpass, hkeep⟩ := h i hi u hcfg
  exact ⟨hrun.trans hpass, hkeep.trans hcfg⟩

/-! ### The sequencer beside the data -/

/-- `s` with this frame stack and this STATUS. -/
def State.withSequencer (s : State) (frames : List Frame) (r : StatusReg) : State :=
  { s with frames := frames, status := r }

section
variable (fs : List Frame) (r : StatusReg) (s : State)

@[simp] theorem withSequencer_frames : (s.withSequencer fs r).frames = fs := rfl

theorem withSequencer_setFrames (fs' : List Frame) :
    { s.withSequencer fs r with frames := fs' } = s.withSequencer fs' r := rfl

@[simp] theorem withSequencer_cfg : (s.withSequencer fs r).cfg = s.cfg := rfl

/-! No micro-operation looks at the frame stack or at STATUS. -/

theorem bfly4_withSequencer (yb xb st : Nat) :
    bfly4 yb xb st (s.withSequencer fs r) = (bfly4 yb xb st s).withSequencer fs r := by
  have hwrites : ∀ t y, (scatterLeaf yb y { s.withSequencer fs r with t := t }).draw 16 =
      ((scatterLeaf yb y { s with t := t }).draw 16).withSequencer fs r := fun _ _ => rfl
  exact hwrites _ _

theorem combine_withSequencer (m : DataMem) (base st n j : Nat) :
    combine m base st n j (s.withSequencer fs r) = (combine m base st n j s).withSequencer fs r := by
  have hwrites : ∀ p t y, (scatter m base st y { s.withSequencer fs r with p := p, t := t }).draw 40 =
      ((scatter m base st y { s with p := p, t := t }).draw 40).withSequencer fs r := by
    cases m <;> exact fun _ _ _ => rfl
  have hread : (s.withSequencer fs r).readD m = s.readD m := by cases m <;> rfl
  simp only [combine, hread]
  exact hwrites _ _ _

theorem forUpTo_withSequencer (n : Nat) (g : Nat → State → State)
    (h : ∀ i u, g i (u.withSequencer fs r) = (g i u).withSequencer fs r) :
    forUpTo n g (s.withSequencer fs r) = (forUpTo n g s).withSequencer fs r := by
  induction n with
  | zero => rfl
  | succ n ih => rw [forUpTo, forUpTo, ih, h]

theorem bufld_withSequencer (yb q t : Nat) :
    bufld yb q t (s.withSequencer fs r) = (bufld yb q t s).withSequencer fs r :=
  forUpTo_withSequencer fs r s 4 _ fun _ (u : State) => forUpTo_withSequencer fs r u _ _ fun _ _ => rfl

theorem bufst_withSequencer (yb q t : Nat) :
    bufst yb q t (s.withSequencer fs r) = (bufst yb q t s).withSequencer fs r :=
  forUpTo_withSequencer fs r s 4 _ fun _ (u : State) => forUpTo_withSequencer fs r u _ _ fun _ _ => rfl

theorem popFrame_withSequencer (rest : List Frame) :
    popFrame rest (s.withSequencer fs r) = popFrame rest (s.withSequencer [] r) := by
  cases rest <;> rfl

end

/-! ### The moves of a frame -/

/-- A frame of size `4^n` in the phase and at the counters given (R38). -/
@[simps] def frameAt (v : Variant) (n yb xb st th : Nat) (phase : Phase) (j t e : Nat) : Frame :=
  ⟨v, 4 ^ n, n, yb, xb, st, th, phase, j, t, e⟩

theorem size_div_four (n : Nat) : 4 ^ (n + 1) / 4 = 4 ^ n := by
  rw [pow_succ]
  exact Nat.mul_div_cancel _ (by norm_num)

theorem size_ne_four (n : Nat) : 4 ^ (n + 2) ≠ 4 := by
  have hpos : 0 < 4 ^ n := by positivity
  rw [pow_add]
  omega

theorem childFrame_frameAt (v : Variant) (n yb xb st th j : Nat) :
    childFrame (frameAt v (n + 1) yb xb st th .divide j 0 0) =
      frameAt v n (yb + 2 * 4 ^ n * j) (xb + 2 * st * j) (4 * st) th .divide 0 0 0 := by
  simp only [childFrame, frameAt, size_div_four, Nat.add_sub_cancel]

section
variable (n yb xb st th : Nat) (rest : List Frame) (r : StatusReg) (s : State)

/-! One rule per move (R39). -/

theorem tickDivide_push (v : Variant) {j : Nat} (hj : j < 4) (fs : List Frame) :
    tickDivide (frameAt v (n + 1) yb xb st th .divide j 0 0) rest (s.withSequencer fs r) =
      s.withSequencer (frameAt v n (yb + 2 * 4 ^ n * j) (xb + 2 * st * j) (4 * st) th .divide 0 0 0 ::
        frameAt v (n + 1) yb xb st th .divide j 0 0 :: rest) r := by
  rw [← childFrame_frameAt]
  exact if_pos hj

theorem tickDivide_done (v : Variant) (fs : List Frame) :
    tickDivide (frameAt v n yb xb st th .divide 4 0 0) rest (s.withSequencer fs r) =
      s.withSequencer (frameAt v n yb xb st th .combine 0 0 0 :: rest) r := if_neg (lt_irrefl 4)

theorem tick_leaf : tick (s.withSequencer (frameAt .plain 1 yb xb st th .divide 0 0 0 :: rest) r) =
    popFrame rest ((bfly4 yb xb st s).withSequencer [] r) := by
  simp [tick, tickPlain, bfly4_withSequencer, popFrame_withSequencer (_ :: _)]

theorem tick_plain_divide (j : Nat) :
    tick (s.withSequencer (frameAt .plain (n + 2) yb xb st th .divide j 0 0 :: rest) r) =
      tickDivide (frameAt .plain (n + 2) yb xb st th .divide j 0 0) rest
        (s.withSequencer (frameAt .plain (n + 2) yb xb st th .divide j 0 0 :: rest) r) := by
  simp [tick, tickPlain, size_ne_four]

theorem tick_plain_group {j : Nat} (hj : j < 4 ^ (n + 1)) :
    tick (s.withSequencer (frameAt .plain (n + 2) yb xb st th .combine j 0 0 :: rest) r) =
      (combine .ymem (yb + 2 * j) (4 ^ (n + 1)) (n + 2) j s).withSequencer
        (frameAt .plain (n + 2) yb xb st th .combine (j + 1) 0 0 :: rest) r := by
  simp only [tick, tickPlain, withSequencer_frames, frameAt_variant, frameAt_size, frameAt_phase, frameAt_j, frameAt_yb,
    frameAt_n, size_ne_four, size_div_four, hj, if_true, if_false, combine_withSequencer]
  exact withSequencer_setFrames _ r _ _

theorem tick_plain_pop : tick (s.withSequencer (frameAt .plain (n + 2) yb xb st th .combine (4 ^ (n + 1)) 0 0 :: rest) r) =
    popFrame rest (s.withSequencer [] r) := by
  simp [tick, tickPlain, size_ne_four, size_div_four, popFrame_withSequencer (_ :: _)]

theorem tick_tiled_small (h : 4 ^ n ≤ th) :
    tick (s.withSequencer (frameAt .tiled n yb xb st th .divide 0 0 0 :: rest) r) =
      s.withSequencer (frameAt .plain n yb xb st th .divide 0 0 0 :: rest) r := if_pos h

section
variable {n th} (h : ¬4 ^ (n + 1) ≤ th)
include h

theorem tick_tiled_divide (j : Nat) :
    tick (s.withSequencer (frameAt .tiled (n + 1) yb xb st th .divide j 0 0 :: rest) r) =
      tickDivide (frameAt .tiled (n + 1) yb xb st th .divide j 0 0) rest
        (s.withSequencer (frameAt .tiled (n + 1) yb xb st th .divide j 0 0 :: rest) r) := by
  simp [tick, tickTiled, h]

theorem tick_tiled_load {t : Nat} (ht : t < 4 ^ n / s.cfg.ls) :
    tick (s.withSequencer (frameAt .tiled (n + 1) yb xb st th .combine 0 t 0 :: rest) r) =
      (bufld yb (4 ^ n) t s).withSequencer (frameAt .tiled (n + 1) yb xb st th .combine 0 t 1 :: rest) r := by
  simp only [tick, tickTiled, withSequencer_frames, withSequencer_cfg, frameAt_variant, frameAt_size, frameAt_phase,
    frameAt_t, frameAt_e, frameAt_yb, frameAt_th, size_div_four, h, ht, if_true, if_false, bufld_withSequencer]
  exact withSequencer_setFrames _ r _ _

theorem tick_tiled_element {t e : Nat} (ht : t < 4 ^ n / s.cfg.ls) (he : e < s.cfg.ls) :
    tick (s.withSequencer (frameAt .tiled (n + 1) yb xb st th .combine 0 t (e + 1) :: rest) r) =
      (combine .buf (2 * e) s.cfg.ls (n + 1) (t * s.cfg.ls + e) s).withSequencer
        (frameAt .tiled (n + 1) yb xb st th .combine 0 t (e + 1 + 1) :: rest) r := by
  have he' : e + 1 ≤ s.cfg.ls := he
  simp only [tick, tickTiled, withSequencer_frames, withSequencer_cfg, frameAt_variant, frameAt_size, frameAt_phase,
    frameAt_t, frameAt_e, frameAt_n, frameAt_th, size_div_four, h, ht, Nat.succ_ne_zero, he',
    if_true, if_false]
  rw [combine_withSequencer, Nat.add_sub_cancel]
  exact withSequencer_setFrames _ r _ _

theorem tick_tiled_store {t : Nat} (ht : t < 4 ^ n / s.cfg.ls) :
    tick (s.withSequencer (frameAt .tiled (n + 1) yb xb st th .combine 0 t (s.cfg.ls + 1) :: rest) r) =
      (bufst yb (4 ^ n) t s).withSequencer (frameAt .tiled (n + 1) yb xb st th .combine 0 (t + 1) 0 :: rest) r := by
  simp only [tick, tickTiled, withSequencer_frames, withSequencer_cfg, frameAt_variant, frameAt_size, frameAt_phase,
    frameAt_t, frameAt_e, frameAt_yb, frameAt_th, size_div_four, h, ht, Nat.succ_ne_zero, Nat.not_succ_le_self, if_true,
    if_false, bufst_withSequencer]
  exact withSequencer_setFrames _ r _ _

theorem tick_tiled_pop {t : Nat} (ht : 4 ^ n / s.cfg.ls ≤ t) :
    tick (s.withSequencer (frameAt .tiled (n + 1) yb xb st th .combine 0 t 0 :: rest) r) =
      popFrame rest (s.withSequencer [] r) := by
  simp [tick, tickTiled, h, ht.not_gt, size_div_four, popFrame_withSequencer (_ :: _)]

end

/-! ### A frame's moves end where its recursion ends -/

/-- The divide phase of either variant is a run of moves when each child's recursion `g j` is (R39). -/
theorem reaches_divide (v : Variant) (g : Nat → State → State)
    (hmove : ∀ (j : Nat) (u : State), tick (u.withSequencer (frameAt v (n + 1) yb xb st th .divide j 0 0 :: rest) r) =
      tickDivide (frameAt v (n + 1) yb xb st th .divide j 0 0) rest
        (u.withSequencer (frameAt v (n + 1) yb xb st th .divide j 0 0 :: rest) r))
    (hchild : ∀ (j : Nat) (u : State) fs, Reaches (u.withSequencer
        (frameAt v n (yb + 2 * 4 ^ n * j) (xb + 2 * st * j) (4 * st) th .divide 0 0 0 :: fs) r)
      (popFrame fs ((g j u).withSequencer [] r)))
    (hcfg : ∀ j u, (g j u).cfg = u.cfg) :
    Reaches (s.withSequencer (frameAt v (n + 1) yb xb st th .divide 0 0 0 :: rest) r)
      ((forUpTo 4 g s).withSequencer (frameAt v (n + 1) yb xb st th .combine 0 0 0 :: rest) r) := by
  obtain ⟨hbranches, -⟩ := Reaches.loop (n := 4) (g := g)
    (fun j u => u.withSequencer (frameAt v (n + 1) yb xb st th .divide j 0 0 :: rest) r) s
    fun j hj u _ => ⟨(Reaches.tick ((hmove j u).trans (tickDivide_push n yb xb st th rest r u v hj _))).trans
      (hchild j u _), hcfg j u⟩
  exact hbranches.trans (.tick ((hmove 4 _).trans (tickDivide_done (n + 1) yb xb st th rest r _ v _)))

/-- The combine phase of a plain frame (R39, R150). -/
theorem reaches_combinePlain :
    Reaches (s.withSequencer (frameAt .plain (n + 2) yb xb st th .combine 0 0 0 :: rest) r)
      ((combinePlain (n + 1) yb s).withSequencer
        (frameAt .plain (n + 2) yb xb st th .combine (4 ^ (n + 1)) 0 0 :: rest) r) :=
  And.left <| Reaches.loop (fun j u => u.withSequencer (frameAt .plain (n + 2) yb xb st th .combine j 0 0 :: rest) r) s
    fun _ hj u _ => ⟨.tick (tick_plain_group n yb xb st th rest r u hj), (combine_control _ _ _ _ _ u).cfg⟩

/-- A plain frame's moves perform REC and pop the frame (R39, R150). -/
theorem reaches_recPlain : Reaches (s.withSequencer (frameAt .plain (n + 1) yb xb st th .divide 0 0 0 :: rest) r)
    (popFrame rest ((recPlain (n + 1) yb xb st s).withSequencer [] r)) := by
  induction n generalizing yb xb st rest s with
  | zero => exact .tick (tick_leaf yb xb st th rest r s)
  | succ n ih =>
    have hdivide := reaches_divide (n + 1) yb xb st th rest r s .plain (recBranch (n + 1) yb xb st)
      (fun j u => tick_plain_divide n yb xb st th rest r u j) (fun j u fs => ih _ _ _ fs u)
      fun j u => (recBranch_touches (n + 1) yb xb st j u).control.cfg
    exact (hdivide.trans (reaches_combinePlain n yb xb st th rest r _)).trans
      (.tick (tick_plain_pop n yb xb st th rest r _))

section
variable {n th} (h : ¬4 ^ (n + 1) ≤ th)
include h

/-- One tile of a buffered frame (R39, R155). -/
theorem reaches_combineTile {t : Nat} (ht : t < 4 ^ n / s.cfg.ls) :
    Reaches (s.withSequencer (frameAt .tiled (n + 1) yb xb st th .combine 0 t 0 :: rest) r)
      ((combineTile n yb t s).withSequencer (frameAt .tiled (n + 1) yb xb st th .combine 0 (t + 1) 0 :: rest) r) := by
  have hload : (bufld yb (4 ^ n) t s).cfg = s.cfg := (bufld_touches 0 0 yb (4 ^ n) t s).control.cfg
  obtain ⟨helements, hcfg⟩ := Reaches.loop (n := s.cfg.ls)
    (g := fun e => combine .buf (2 * e) s.cfg.ls (n + 1) (t * s.cfg.ls + e))
    (fun e u => u.withSequencer (frameAt .tiled (n + 1) yb xb st th .combine 0 t (e + 1) :: rest) r)
    (bufld yb (4 ^ n) t s) fun e he u hu => by
      have hls : u.cfg.ls = s.cfg.ls := by rw [hu, hload]
      rw [← hls] at ht he ⊢
      exact ⟨.tick (tick_tiled_element yb xb st rest r u h ht he), (combine_control _ _ _ _ _ u).cfg⟩
  refine ((Reaches.tick (tick_tiled_load yb xb st rest r s h ht)).trans helements).trans (.tick ?_)
  have hls := hcfg.trans hload
  have hstore := tick_tiled_store yb xb st rest r _ h (by rwa [hls])
  rwa [hls] at hstore

/-- The combine phase of a buffered frame (R39, R155). -/
theorem reaches_combineTiled :
    Reaches (s.withSequencer (frameAt .tiled (n + 1) yb xb st th .combine 0 0 0 :: rest) r)
      ((combineTiled n yb s).withSequencer
        (frameAt .tiled (n + 1) yb xb st th .combine 0 (4 ^ n / s.cfg.ls) 0 :: rest) r) ∧
      (combineTiled n yb s).cfg = s.cfg :=
  Reaches.loop (fun t u => u.withSequencer (frameAt .tiled (n + 1) yb xb st th .combine 0 t 0 :: rest) r) s
    fun t ht u hu => by
      rw [← hu] at ht
      exact ⟨reaches_combineTile yb xb st rest r u h ht, (combineTile_touches n yb t u ht).control.cfg⟩

end

/-- A tiled frame's moves perform RECT and pop the frame (R39, R155). -/
theorem reaches_recTiled (hth : 4 ≤ th) :
    Reaches (s.withSequencer (frameAt .tiled (n + 1) yb xb st th .divide 0 0 0 :: rest) r)
      (popFrame rest ((recTiled th (n + 1) yb xb st s).withSequencer [] r)) := by
  induction n generalizing yb xb st rest s with
  | zero =>
    rw [recTiled_of_le hth le_rfl]
    exact (Reaches.tick (tick_tiled_small 1 yb xb st th rest r s hth)).trans (reaches_recPlain 0 yb xb st th rest r s)
  | succ n ih =>
    rw [recTiled]
    split
    · rename_i hle
      exact (Reaches.tick (tick_tiled_small _ yb xb st th rest r s hle)).trans (reaches_recPlain _ yb xb st th rest r s)
    · rename_i hgt
      have htouch := fun j u => recTiled_touches th (n + 1) (yb + 2 * 4 ^ (n + 1) * j) (xb + 2 * st * j) (4 * st) u
      have hdivide := reaches_divide (n + 1) yb xb st th rest r s .tiled _
        (fun j u => tick_tiled_divide yb xb st rest r u hgt j) (fun j u fs => ih _ _ _ fs u)
        fun j u => (htouch j u).control.cfg
      obtain ⟨hcombine, hcfg⟩ := reaches_combineTiled yb xb st rest r
        (forUpTo 4 (fun j => recTiled th (n + 1) (yb + 2 * 4 ^ (n + 1) * j) (xb + 2 * st * j) (4 * st)) s) hgt
      exact (hdivide.trans hcombine).trans (.tick (tick_tiled_pop yb xb st rest r _ hgt (by rw [hcfg])))

end

/-- When the root frame pops, the command ends (R70 step 5). -/
theorem popFrame_root {s t : State} (hs : s.frames = []) (h : s.SameControl t) (r : StatusReg) :
    popFrame [] (t.withSequencer [] r) = t.finish .ok := by
  have ht : t.frames = [] := h.frames.trans hs
  change { t with frames := [], status := _ } = { t with status := _ }
  rw [← ht]

/-- Settles O58: the root frame's moves perform the recursion (`reaches_recPlain`, `reaches_recTiled`) and pop it. -/
theorem smallStepsEndInTheCommand : Obligations.SmallStepsEndInTheCommand := by
  intro s n th hn hs
  obtain ⟨m, rfl⟩ := Nat.exists_eq_add_of_le' hn
  refine ⟨?_, fun hth _ => ?_⟩
  · rw [← popFrame_root hs (recPlain_touches (m + 1) 0 0 1 s).control { s.status with busy := true, done := false }]
    exact reaches_recPlain m 0 0 1 0 [] _ s
  · rw [← popFrame_root hs (recTiled_touches th (m + 1) 0 0 1 s).control { s.status with busy := true, done := false }]
    exact reaches_recTiled m 0 0 1 th [] _ s hth

end Sys2Proof.Machine
end

section
/-! SUPPORT. The recursion over the reals (R171): the powers of `exp(+2 pi j/N)`, the samples of eight words, and the
decimation-in-time step from the four branches to the frame. -/

namespace Sys2Proof.Machine

/-! ### The roots of unity -/

/-- `exp(+2 pi j t/4^n)` (R143). -/
noncomputable def turn (n t : Nat) : ℂ := Complex.exp (2 * Real.pi * Complex.I * (t : ℂ) / (4 ^ n : ℂ))

theorem turn_add (n a b : Nat) : turn n (a + b) = turn n a * turn n b := by
  rw [turn, turn, turn, ← Complex.exp_add]
  push_cast
  ring_nf

/-- Four steps of the finer circle are one of the coarser. -/
theorem turn_succ_four_mul (n t : Nat) : turn (n + 1) (4 * t) = turn n t := by
  unfold turn
  rw [pow_succ]
  push_cast
  congr 1
  field_simp

theorem turn_zero_left (t : Nat) : turn 0 t = 1 := by
  rw [turn, pow_zero, div_one, mul_comm]
  exact Complex.exp_nat_mul_two_pi_mul_I t

/-- Whole turns are 1. -/
theorem turn_pow_mul (n t : Nat) : turn n (4 ^ n * t) = 1 := by
  induction n with
  | zero => exact turn_zero_left _
  | succ n ih => rw [pow_succ', mul_assoc, turn_succ_four_mul, ih]

/-- Quarter turns are the powers of the imaginary unit. -/
theorem turn_quarter_mul (n t : Nat) : turn (n + 1) (4 ^ n * t) = Complex.I ^ t := by
  induction n with
  | zero =>
    conv_rhs => rw [← Complex.exp_pi_div_two_mul_I, ← Complex.exp_nat_mul]
    rw [pow_zero, one_mul, turn]
    congr 1
    ring
  | succ n ih => rw [pow_succ', mul_assoc, turn_succ_four_mul, ih]

/-! ### Samples of eight words -/

theorem gatherTable_word {F : Type} (read : Nat → F) (j : Nat) {i c : Nat} (hi : i < 4) (hc : c < 2) :
    (gatherTable read j).word (2 * i + c) = read (8 * j + 2 * i + c) := by
  interval_cases i <;> interval_cases c <;> rfl

theorem gather_word {F : Type} (read : Nat → F) (b st : Nat) {i c : Nat} (hi : i < 4) (hc : c < 2) :
    (gather read b st).word (2 * i + c) = read (b + 2 * st * i + c) := by
  rw [mul_right_comm]
  interval_cases i <;> interval_cases c <;> rfl

/-- The exact coefficient `i` of group `k` is the twiddle factor (R111). -/
theorem gatherTable_sample (d k : Nat) {i : Nat} (hi : i < 4) :
    (gatherTable (realTable d) k).sample i = turn (d + 2) (i * k) := by
  have hre : (gatherTable (realTable d) k).word (2 * i) = _ := gatherTable_word (realTable d) k hi (c := 0) (by omega)
  have him := gatherTable_word (realTable d) k hi (c := 1) (by omega)
  rw [realTable_eq d k hi (by omega)] at hre him
  have harg : 2 * Real.pi * Complex.I * ((i * k : Nat) : ℂ) / (4 ^ (d + 2) : ℂ) =
      ((2 * Real.pi * ((i * k : Nat) : ℝ) / 4 ^ (d + 2) : ℝ) : ℂ) * Complex.I := by
    push_cast
    ring
  rw [Oct.sample, hre, him, turn, harg]
  apply Complex.ext
  · rw [Complex.exp_ofReal_mul_I_re]
    rfl
  · rw [Complex.exp_ofReal_mul_I_im]
    rfl

/-- CMUL over the reals is the complex product (R135). -/
theorem products_sample (k : Nat) (a b : Oct ℝ) {i : Nat} (hi : i < 4) :
    (products realNumerics k a b).sample i = a.sample i * b.sample i := by
  interval_cases i <;> apply Complex.ext <;> simp [Oct.sample, Oct.word, products, complexMul, realNumerics]

/-- COMBINE over the reals: twiddle, then the 4-point DFT (R126, R143). -/
theorem combineValues_sample (k : Nat) (a b : Oct ℝ) {p : Nat} (hp : p < 4) :
    (combineValues realNumerics k a b).sample p =
      ∑ i ∈ Finset.range 4, a.sample i * b.sample i * Complex.I ^ (i * p) := by
  refine (core4IsPositiveDft (k + 24) _ p hp).trans (Finset.sum_congr rfl fun i hi => ?_)
  change (products realNumerics k a b).sample i * _ = _
  rw [products_sample k a b (Finset.mem_range.mp hi)]

/-! ### The transform -/

/-- The complex number in words `a`, `a + 1` (R12). -/
def sampleAt (x : Nat → ℝ) (a : Nat) : ℂ := ⟨x a, x (a + 1)⟩

/-- Output `q` of the DFT of size `4^n` of the strided samples from `b` (R143, R171). -/
noncomputable def dft (x : Nat → ℝ) (n b st q : Nat) : ℂ :=
  ∑ m ∈ Finset.range (4 ^ n), sampleAt x (b + 2 * st * m) * turn n (m * q)

theorem gather_sample (x : Nat → ℝ) (b st : Nat) {i : Nat} (hi : i < 4) :
    (gather x b st).sample i = sampleAt x (b + 2 * st * i) :=
  Complex.ext (gather_word x b st hi (c := 0) (by omega)) (gather_word x b st hi (c := 1) (by omega))

theorem sum_range_four_mul (Q : Nat) (f : Nat → ℂ) :
    ∑ r ∈ Finset.range (4 * Q), f r = ∑ i ∈ Finset.range 4, ∑ m ∈ Finset.range Q, f (i + 4 * m) := by
  induction Q with
  | zero => simp
  | succ Q ih =>
    simp only [Finset.sum_range_succ _ Q, Finset.sum_add_distrib, ← ih]
    simp only [Nat.mul_succ, Finset.sum_range_succ, Finset.sum_range_zero]
    ring_nf

/-- The twiddle of branch `i`'s sample `m` at output `k + Q*p` (R143). -/
theorem turn_branch (n i m k p : Nat) : turn (n + 1) ((i + 4 * m) * (k + 4 ^ n * p)) =
    turn n (m * k) * turn (n + 1) (i * k) * Complex.I ^ (i * p) := by
  have hsplit : (i + 4 * m) * (k + 4 ^ n * p) =
      4 * (m * k + 4 ^ n * (m * p)) + i * k + 4 ^ n * (i * p) := by ring
  rw [hsplit, turn_add, turn_add, turn_succ_four_mul, turn_add, turn_pow_mul, turn_quarter_mul, mul_one]

/-- Decimation in time: output `k + Q*p` from the outputs `k` of the four branches (R143). -/
theorem dft_succ (x : Nat → ℝ) (n b st k p : Nat) : dft x (n + 1) b st (k + 4 ^ n * p) =
    ∑ i ∈ Finset.range 4, dft x n (b + 2 * st * i) (4 * st) k * turn (n + 1) (i * k) * Complex.I ^ (i * p) := by
  rw [dft, pow_succ', sum_range_four_mul]
  refine Finset.sum_congr rfl fun i _ => ?_
  rw [dft, Finset.sum_mul, Finset.sum_mul]
  refine Finset.sum_congr rfl fun m _ => ?_
  rw [turn_branch, show b + 2 * st * (i + 4 * m) = b + 2 * st * i + 2 * (4 * st) * m by ring]
  ring

/-- Output `q` of the recursion is output `q` of the DFT, for every base and stride (R143, R171). -/
theorem recValues_eq_dft (x : Nat → ℝ) (n : Nat) {q : Nat} (b st : Nat) (hq : q < 4 ^ (n + 1)) :
    sampleAt (recValues realNumerics realTable x (n + 1) b st) (2 * q) = dft x (n + 1) b st q := by
  induction n generalizing q b st with
  | zero =>
    refine (core4IsPositiveDft 0 (gather x b st) q hq).trans (Finset.sum_congr rfl fun m hm => ?_)
    have hm4 : m < 4 := Finset.mem_range.mp hm
    change (gather x b st).sample m * _ = _
    rw [gather_sample x b st hm4, ← turn_quarter_mul 0, pow_zero, one_mul]
  | succ n ih =>
    have hQ : 0 < 4 ^ (n + 1) := by positivity
    have hk : q % 4 ^ (n + 1) < 4 ^ (n + 1) := Nat.mod_lt _ hQ
    have hp : q / 4 ^ (n + 1) < 4 := Nat.div_lt_of_lt_mul (by rwa [← pow_succ])
    have heven : 2 * q / 2 = q := by omega
    have hodd : (2 * q + 1) / 2 = q := by omega
    have hre : 2 * q % 2 = 0 := by omega
    have him : (2 * q + 1) % 2 = 1 := by omega
    conv_rhs => rw [← Nat.mod_add_div q (4 ^ (n + 1)), dft_succ]
    simp only [sampleAt, recValues, heven, hodd, hre, him, add_zero]
    refine (combineValues_sample 0 _ _ hp).trans (Finset.sum_congr rfl fun i hi => ?_)
    have hi4 : i < 4 := Finset.mem_range.mp hi
    rw [gatherTable_sample n _ hi4, ← ih _ _ hk]
    interval_cases i <;> rfl

/-- Settles O60: the recursion at the root's base and stride. -/
theorem recursionIsDft : Obligations.RecursionIsDft := by
  intro n x q hn hq
  obtain ⟨m, rfl⟩ := Nat.exists_eq_add_of_le' hn
  refine (recValues_eq_dft x m 0 1 hq).trans (Finset.sum_congr rfl fun r _ => ?_)
  rw [sampleAt, zero_add, mul_one]
  rfl

end Sys2Proof.Machine
end

section
/-! SUPPORT. The family 60_exceptions.md: the illegal command word (R74, R184), the step of an idle machine (R194, R200), and
how a host command ends (R70, R182). -/

namespace Sys2Proof.Machine

/-! ### A word that is no command -/

/-- A word written to CMD while idle that the decoder rejects raises IllegalCommandError on the state without the event
(R74, R184). -/
theorem step_writeIllegalCommand {s : State} {w : Word32} {rest : List Event} {e : Reject}
    (he : s.events = .writeReg 0x00 w :: rest) (hidle : s.status.busy = false) (hw : decodeCommand w = .error e) :
    step s = .next (State.raise { s with events := rest } .illegalCommand) := by
  simp only [step, he, accept, hidle, writeCommand, hw]
  rfl

/-- Settles O7: the decoder rejects the word (`commandDecoder`), and raising an error writes STATUS alone. -/
theorem illegalCommandRaises : Obligations.IllegalCommandRaises := fun _ w _ he hidle h1 h2 h3 =>
  step_writeIllegalCommand he hidle (commandDecoder.2 w h1 h2 h3)

/-! ### The idle machine -/

/-- With no event pending a step is one move of the sequencer (log 8). -/
theorem step_of_noEvents {s : State} (he : s.events = []) : step s = .next (tick s) := by
  rw [step, he]

/-- Settles O8: without an event the step is a move of the sequencer, and an empty frame stack has none. -/
theorem idleStepChangesNothing : Obligations.IdleStepChangesNothing := by
  intro s he hf
  rw [step_of_noEvents he, tick_of_noFrames hf]

/-! ### How a command ends -/

/-- Whatever its checks answer, a host command ends in some state with a result code written: raising an error, too, is
`State.finish` (R70 step 5, R186). -/
theorem exec_command_finishes {c : Instr} (hc : isCommand c = true) (s : State) :
    ∃ u e, exec c s = .next (State.finish u e) := by
  cases c
  case initTw =>
    by_cases hsize : s.sizeOk = true
    · exact ⟨_, _, if_pos hsize⟩
    · exact ⟨_, _, if_neg hsize⟩
  case xform =>
    by_cases hsize : s.sizeOk = true
    · by_cases htable : s.tableOk = true
      · exact ⟨_, _, exec_xform_accepted hsize htable⟩
      · exact ⟨_, _, exec_xform_badTable hsize htable⟩
    · exact ⟨_, _, exec_xform_badSize hsize⟩
  case xformT =>
    by_cases hsize : s.sizeOk = true
    · by_cases hth : s.thresholdOk = true
      · by_cases htable : s.tableOk = true
        · exact ⟨_, _, exec_xformT_accepted hsize hth htable⟩
        · exact ⟨_, _, exec_xformT_badTable hsize hth htable⟩
      · exact ⟨_, _, exec_xformT_badThreshold hsize hth⟩
    · exact ⟨_, _, exec_xformT_badSize hsize⟩
  all_goals cases hc

/-- Settles O15: every command finishes, which leaves it idle and done, and `exec_command_err` excludes code 2. -/
theorem commandsNeverEndInCodeTwo : Obligations.CommandsNeverEndInCodeTwo := by
  intro i s hi
  obtain ⟨u, e, hexec⟩ := exec_command_finishes hi s
  exact ⟨u.finish e, hexec, rfl, rfl, exec_command_err hi hexec⟩

end Sys2Proof.Machine
end

section
/-! SUPPORT. The family 70_reset_and_hazards.md: a reset delivered in any state (R200, R201), and the host's accesses while a
command executes (R209). -/

namespace Sys2Proof.Machine

/-! ### Reset -/

section
variable (s : State)

/-! After a reset no word of a data memory is written, and the ROM is the machine's own (R44, R201; logs 1, 16). -/

@[simp] theorem State.readX_resetNow (a : Nat) : s.resetNow.readX a = Config.powerOnX (s.epoch + 1) a := rfl
@[simp] theorem State.readY_resetNow (a : Nat) : s.resetNow.readY a = Config.powerOnY (s.epoch + 1) a := rfl
@[simp] theorem State.readB_resetNow (a : Nat) : s.resetNow.readB a = Config.powerOnB (s.epoch + 1) a := rfl
@[simp] theorem State.romWord_resetNow (d o : Nat) : s.resetNow.romWord d o = s.romWord d o := rfl

end

/-- A pending reset resets whatever the machine is doing (R200). -/
theorem step_reset {s : State} {rest : List Event} (he : s.events = .reset :: rest) :
    step s = .next (State.resetNow { s with events := rest }) := by
  simp only [step, he, accept]

/-- Settles O10: the step is `State.resetNow`, which keeps the configuration and the ROM and empties the rest. -/
theorem resetEventResets : Obligations.ResetEventResets := fun s rest he =>
  let u : State := { s with events := rest }
  ⟨u.resetNow, step_reset he, rfl, rfl, rfl, rfl, rfl, rfl, u.romWord_resetNow, u.readX_resetNow, u.readY_resetNow,
    u.readB_resetNow⟩

/-! ### Accesses while a command executes -/

section
variable {s : State} {off : Nat} {win : Window} {a : Nat} {v : FWord} {w : Word32} {rest : List Event}

/-- A register read at no whole register's offset is refused and leaves no trace (R29; log 17). -/
theorem step_readReg_misaligned (he : s.events = .readReg off :: rest) (hoff : off % 4 ≠ 0) :
    step s = .next { s with events := rest } := by
  simp only [step, he, accept, if_pos hoff]

/-- A read outside the window is refused and leaves no trace (R61; log 17). -/
theorem step_readMem_outside (he : s.events = .readMem win a :: rest) (ha : windowWords s.cfg win ≤ a) :
    step s = .next { s with events := rest } := by
  simp only [step, he, accept, if_pos ha]

section
variable (hbusy : s.status.busy = true)
include hbusy

/-! With BUSY 1 a write is ignored, and a read that is not refused answers with a free value (R209; log 15). -/

theorem step_writeReg_busy (he : s.events = .writeReg off w :: rest) : step s = .next { s with events := rest } := by
  simp only [step, he, accept, if_pos hbusy]

theorem step_writeMem_busy (he : s.events = .writeMem win a v :: rest) : step s = .next { s with events := rest } := by
  simp only [step, he, accept, if_pos hbusy]

theorem step_readReg_busy (he : s.events = .readReg off :: rest) (hoff : off % 4 = 0) :
    step s = .next (busyReadRegister off { s with events := rest }) := by
  simp only [step, he, accept, if_neg (not_not.mpr hoff), if_pos hbusy]

theorem step_readMem_busy (he : s.events = .readMem win a :: rest) (ha : a < windowWords s.cfg win) :
    step s = .next (busyReadWindow { s with events := rest }) := by
  simp only [step, he, accept, if_neg (Nat.not_le.mpr ha), if_pos hbusy]

/-- A register read changes the replies and the draw number alone, answered or refused (R209). -/
theorem step_readReg_busy_frame {t : State} (he : s.events = .readReg off :: rest) (h : step s = .next t) :
    t = { s with events := rest, replies := t.replies, draws := t.draws } := by
  by_cases hoff : off % 4 = 0
  · rw [step_readReg_busy hbusy he hoff] at h
    cases h
    rfl
  · rw [step_readReg_misaligned he hoff] at h
    cases h
    rfl

/-- A window read changes the replies and the draw number alone, answered or refused (R209). -/
theorem step_readMem_busy_frame {t : State} (he : s.events = .readMem win a :: rest) (h : step s = .next t) :
    t = { s with events := rest, replies := t.replies, draws := t.draws } := by
  rcases lt_or_ge a (windowWords s.cfg win) with ha | ha
  · rw [step_readMem_busy hbusy he ha] at h
    cases h
    rfl
  · rw [step_readMem_outside he ha] at h
    cases h
    rfl

/-- A read of STATUS finds BUSY 1 and DONE 0, whatever the free value says of ERR (R209; log 15). -/
theorem step_readStatus_busy (he : s.events = .readReg 0x0C :: rest) :
    ∃ w : Word32, step s =
      .next { s with events := rest, replies := .word w :: s.replies, draws := s.draws + 1 } ∧
      w.getLsbD 0 = true ∧ w.getLsbD 1 = false := by
  refine ⟨_, step_readReg_busy hbusy he rfl, ?_, ?_⟩ <;> simp

end
end

/-- Settles O28: writes are ignored, a read of STATUS answers BUSY 1 and DONE 0, and no read touches the machine. -/
theorem busyAccess : Obligations.BusyAccess := fun _ _ hbusy =>
  ⟨fun _ _ => step_writeReg_busy hbusy, fun _ _ _ => step_writeMem_busy hbusy, step_readStatus_busy hbusy,
    fun _ _ => step_readReg_busy_frame hbusy, fun _ _ _ => step_readMem_busy_frame hbusy⟩

end Sys2Proof.Machine
end

section
/-! SUPPORT. The kind codes that no micro-operation uses (30_encoding.md section 5): the record decoder by its kind code
(log 7), and the rejection by name (log 23). -/

namespace Sys2Proof

variable (bs : List Byte)

/-- A first byte of at most four bits is the kind code, and what follows is decoded as that kind's operands (R77; log 7). -/
theorem decodeRecord_of_kind {b : Byte} (hb : b.toNat < 16) : decodeRecord (b :: bs) = decodeOperands b.toNat bs :=
  if_pos hb

/-- The kinds 1 to 6 are all there are (R77): outside them the operand bytes are not looked at. -/
theorem decodeOperands_unusedKind {k : Nat} (hk : k = 0 ∨ 7 ≤ k) : decodeOperands k bs = .error (.unusedKind k) := by
  unfold decodeOperands
  split
  case h_7 => rfl
  all_goals omega

/-- Settles O3: an unused code fits the four bits of a kind code, and the operand decoder rejects it unread. -/
theorem unusedKindsRejected : Obligations.UnusedKindsRejected := by
  intro b rest hunused
  have hb : b.toNat < 16 := by omega
  have hk : b.toNat = 0 ∨ 7 ≤ b.toNat := hunused.imp_right And.left
  rw [decodeRecord_of_kind rest hb, decodeOperands_unusedKind rest hk]

end Sys2Proof
end
